-- ==== Sys2Proof/Word.lean ====
section
/-! DEFINITION. The words of the block: the element widths of the three buffers, the register widths and the cursor width
(spec/00_scope.md R6, spec/10_state.md R13, R31, R34 to R36). -/

namespace Sys2Proof

/-- An element of `ART`, a command byte, `STATUS`, `ERRCODE`: 8 bits. -/
abbrev Byte := BitVec 8

/-- An element of `IDX`: "a 4-bit value, range 0–15" (R12). -/
abbrev Nibble := BitVec 4

/-- An element of `PIX`, format `PIX24` (R64): 24 bits. -/
abbrev Pixel := BitVec 24

/-- A register of `DIM_BITS = 16` bits: `W`, `H`, `TILEW` (R6). -/
abbrev Dim := BitVec 16

/-- A register of `LEN_BITS = 32` bits: lengths, counts, geometry results (R6). -/
abbrev Len := BitVec 32

/-- A 17-bit cursor: `y`, `x`, `cend` (R31). -/
abbrev Cursor := BitVec 17

end Sys2Proof
end

