-- ==== Sys2Proof/Config.lean ====
section
/-! DEFINITION. What an implementation fixes and what the spec leaves open: the source's parameters (spec/00_scope.md R5), the
capacity `CAP`, the type `Angle` and the function `Trig` (R7), and the free values. Every `opaque` constant has no body: nothing can be
proved of its value. -/

namespace Sys2Proof

/-- A pair `(s, c)` of non-negative numbers (spec/00_scope.md R7) written as square roots of rationals: `s` is the square root
of `sSq / (denPred + 1)` and `c` that of `cSq / (denPred + 1)`. Every pair of non-negative rationals has this form, and so have
the exact sine and cosine at every multiple of `π/4` and `π/6`: the pairs that whole numbers compute (log 16). -/
structure Trig where
  sSq : Nat
  cSq : Nat
  denPred : Nat
  deriving DecidableEq, Repr, Inhabited

/-- "A real expression in radians" (spec/30_encoding.md R71): natural numbers, `pi` and square roots of natural numbers under
negation, sum, product and division by a positive natural number. `Machine.realValue` is the number an expression denotes. Which
operations an expression has is the model's choice (DESIGN CHOICE, log 2). -/
inductive RealExpr
  | nat (n : Nat)
  | pi
  | sqrt (n : Nat)
  | neg (a : RealExpr)
  | add (a b : RealExpr)
  | mul (a b : RealExpr)
  /-- `a / (denPred + 1)`. -/
  | over (a : RealExpr) (denPred : Nat)
  deriving DecidableEq, Repr, Inhabited

/-- The value of `ANGLE` (spec/10_state.md R19, spec/30_encoding.md R71), as plain data: any real number of radians, or
`trig(s, c)`, "any angle whose `Trig` is the pair `(s, c)`", for any pair of non-negative numbers. A real number that is no value
of a `RealExpr` stands under a name, and which number a name denotes is an uninterpreted constant of `Config`
(DESIGN CHOICE, log 2). -/
inductive Angle
  /-- The number of radians that a real expression denotes. -/
  | expr (e : RealExpr)
  /-- `n * π / 6` radians. -/
  | sixths (n : Int)
  /-- `n * π / 4` radians; `quarters 0` is 0 radians. -/
  | quarters (n : Int)
  /-- The real number of radians that `Config.realAngle name` denotes: any. -/
  | real (name : Nat)
  /-- An angle whose `Trig` is the given pair of square roots of rationals. -/
  | trig (pair : Trig)
  /-- An angle whose `Trig` is the pair of real numbers that `Config.realPair name` denotes: any. -/
  | trigReal (name : Nat)
  deriving DecidableEq, Repr, Inhabited

/-- Exact arithmetic (spec/43_geometry.md R136: "the only rounding is the final `floor`"): the natural number that a condition on
natural numbers determines. With it, the results at a real number are values that a step can store (log 2). -/
structure ExactArithmetic where
  nat : (Nat → Prop) → Nat
  nat_spec : ∀ q : Nat → Prop, (∃ n, q n) → q (nat q)

/-- The parameter `Trig` (spec/00_scope.md R7, 93_implementation_defined.md U13): the pair of non-negative numbers for every angle
that is not given by its pair. It is the reference `Trig` or any other function. Real numbers come with the exact arithmetic that R136
asks for; square roots of rationals need none. That the function is one of the written form is the model's choice
(DESIGN CHOICE, log 2). -/
inductive TrigParameter
  /-- `(|sin x|, |cos x|)` at every real number `x` (R126). -/
  | reference (exact : ExactArithmetic)
  /-- The absolute values of any two real numbers for each angle. -/
  | other (pair : Angle → ℝ × ℝ) (exact : ExactArithmetic)
  /-- Any pair of square roots of rationals for each angle. -/
  | roots (pair : Angle → Trig)
  deriving Inhabited

namespace Config

/-- `LEVELS_MIN` (R5). -/
def levelsMin : Nat := 2

/-- `LEVELS_MAX` (R5). -/
def levelsMax : Nat := 16

/-- `RUN_MAX` (R5). -/
def runMax : Nat := 16

/-- `TILEW_DEFAULT` (R5), the reset value of `TILEW` (R38). -/
def tilewDefault : Dim := 320

/-- `CAP - 1`: free, so that all that is known of `CAP` is `CAP >= 1` (R7; log 1). -/
opaque capPred : Nat

/-- `CAP`, the number of elements each buffer holds (R7). -/
def cap : Nat := capPred + 1

/-- Free value: what an element of width `w` at address `addr` holds while the spec leaves it unspecified (U2, U6, U9). `draw`
counts how often that element has become unspecified (log 3). -/
opaque unspecified (w draw addr : Nat) : BitVec w

/-- Free value: what a host read made while `BUSY = 1` returns (U5), one for each draw (log 5). -/
opaque busyWord (draw : Nat) : Len

/-- Free value: what a host read of `ANGLE` made while `BUSY = 1` returns (U5; log 5). -/
opaque busyAngle (draw : Nat) : Angle

/-- The real number of radians that a name stands for: any real number (R7, U13; log 2). `none` is the number 0. -/
opaque realAngle (name : Nat) : Option ℝ

/-- The pair `(s, c)` that a name stands for, each the absolute value of the real number given: any pair of non-negative real
numbers (R7, U13; log 2). `none` is the pair `(0, 1)`. -/
opaque realPair (name : Nat) : Option (ℝ × ℝ × ExactArithmetic)

/-- The block's `Trig` (R7, U13): free. Nothing is known of which it is (log 2). -/
opaque trig : TrigParameter

end Config

end Sys2Proof
end

