-- ==== Sys2Proof/Syntax.lean ====
section
/-! DEFINITION. The instructions: one constructor per row of spec/opcode_table.json (spec/30_encoding.md R67, R68, R73). The
thirteen command rows stand for the bytes a host writes to `CMD`; the last row is an element of `ART`. -/

namespace Sys2Proof

/-- The rows of the opcode table. A reserved row carries the bits its mask leaves free; a run byte carries its run length
(1 to 16, R61) and its value. -/
inductive Instr
  /-- CLR, byte hex 00 (R143). -/
  | clr
  /-- QUANT, byte hex 01 (R75). -/
  | quant
  /-- ENC, byte hex 02 (R90). -/
  | enc
  /-- DEC, byte hex 03 (R110). -/
  | dec
  /-- COUNT, byte hex 04 (R101). -/
  | count
  /-- BBOX, byte hex 05 (R129). -/
  | bbox
  /-- IRECT, byte hex 06 (R135). -/
  | irect
  /-- Reserved byte hex 07 (R68). -/
  | reserved07
  /-- Reserved bytes hex 08 to 0F (R68). -/
  | reserved08 (low : BitVec 3)
  /-- Reserved bytes hex 10 to 1F (R68). -/
  | reserved10 (low : BitVec 4)
  /-- Reserved bytes hex 20 to 3F (R68). -/
  | reserved20 (low : BitVec 5)
  /-- Reserved bytes hex 40 to 7F (R68). -/
  | reserved40 (low : BitVec 6)
  /-- Reserved bytes hex 80 to FF (R68). -/
  | reserved80 (low : BitVec 7)
  /-- RUNBYTE, an element of `ART` (R60). -/
  | runByte (run : Nat) (value : Nibble)
  deriving DecidableEq, Repr

/-- The encoding format of an instruction: a command byte `CMD8` (R63) or a run byte `RUNBYTE` (R60). Every byte value is
legal in each, so it is the place a byte is read from (`CMD` or `ART`) that says which of the two it is (R73). -/
def Instr.isRunByte : Instr → Bool
  | .runByte _ _ => true
  | .clr | .quant | .enc | .dec | .count | .bbox | .irect | .reserved07 | .reserved08 _ | .reserved10 _
  | .reserved20 _ | .reserved40 _ | .reserved80 _ => false

end Sys2Proof
end

