-- ==== Sys2Proof/WellFormed.lean ====
section
/-! DEFINITION. Which instructions are well formed. The field widths of `Instr` carry every check but one: the run length of a
run byte is 1 to 16 (spec/30_encoding.md R61, R62). -/

namespace Sys2Proof

/-- An instruction some byte encodes. -/
def Instr.wellFormed : Instr → Bool
  | .runByte run _ => decide (1 ≤ run) && decide (run ≤ Config.runMax)
  | .clr | .quant | .enc | .dec | .count | .bbox | .irect | .reserved07 | .reserved08 _ | .reserved10 _
  | .reserved20 _ | .reserved40 _ | .reserved80 _ => true

end Sys2Proof
end

