-- ==== Sys2Proof/Decode.lean ====
section
/-! DEFINITION. Decoding and encoding (spec/30_encoding.md sections 1 and 3). Total on any bytes: what is no instruction is
rejected by name. -/

namespace Sys2Proof

/-- Where a byte stands, which fixes its format: written to `CMD` (R63) or an element of `ART` (R60). -/
inductive Format
  | command
  | runByte
  deriving DecidableEq, Repr

/-- Why some bytes are no instruction. -/
inductive DecodeError
  /-- There is no byte at all; every command and every run is one byte (R70). -/
  | noByte
  deriving DecidableEq, Repr

/-- A command byte (R63, R67, R68): `op` in bits 2 to 0 selects a command when bits 7 to 3 are 0; every other byte is
reserved, in the row its leading one bit selects (R73). -/
def decodeCommand (b : Byte) : Instr :=
  if b = 0x00 then .clr
  else if b = 0x01 then .quant
  else if b = 0x02 then .enc
  else if b = 0x03 then .dec
  else if b = 0x04 then .count
  else if b = 0x05 then .bbox
  else if b = 0x06 then .irect
  else if b = 0x07 then .reserved07
  else if b &&& 0xF8 = 0x08 then .reserved08 (b.extractLsb' 0 3)
  else if b &&& 0xF0 = 0x10 then .reserved10 (b.extractLsb' 0 4)
  else if b &&& 0xE0 = 0x20 then .reserved20 (b.extractLsb' 0 5)
  else if b &&& 0xC0 = 0x40 then .reserved40 (b.extractLsb' 0 6)
  else .reserved80 (b.extractLsb' 0 7)

/-- A run byte (R61): `run_length = b[7:4] + 1`, `value = b[3:0]`. -/
def decodeRunByte (b : Byte) : Instr :=
  .runByte ((b.extractLsb' 4 4).toNat + 1) (b.extractLsb' 0 4)

/-- One byte in its format. -/
def decodeByte : Format → Byte → Instr
  | .command, b => decodeCommand b
  | .runByte, b => decodeRunByte b

/-- The decoder: the instruction at the head of some bytes, and the bytes after it (R70). -/
def decode (f : Format) : List Byte → Except DecodeError (Instr × List Byte)
  | [] => .error .noByte
  | b :: rest => .ok (decodeByte f b, rest)

/-- `run_byte(r, v) = (r - 1) * 16 + v` (R62). -/
def runByteOf (run : Nat) (value : Nibble) : Byte :=
  BitVec.ofNat 8 ((run - 1) * 16 + value.toNat)

/-- The byte of an instruction (R62, R67, R73). -/
def encodeInstr : Instr → Byte
  | .clr => 0x00
  | .quant => 0x01
  | .enc => 0x02
  | .dec => 0x03
  | .count => 0x04
  | .bbox => 0x05
  | .irect => 0x06
  | .reserved07 => 0x07
  | .reserved08 low => 0x08 ||| low.setWidth 8
  | .reserved10 low => 0x10 ||| low.setWidth 8
  | .reserved20 low => 0x20 ||| low.setWidth 8
  | .reserved40 low => 0x40 ||| low.setWidth 8
  | .reserved80 low => 0x80 ||| low.setWidth 8
  | .runByte run value => runByteOf run value

/-- The format an instruction is encoded in. -/
def Instr.format (i : Instr) : Format :=
  if i.isRunByte then .runByte else .command

/-- The encoder: the bytes of an instruction. -/
def encode (i : Instr) : List Byte :=
  [encodeInstr i]

/-- A row of the command table of R67 and R73: a byte `b` selects it when `b &&& mask = pattern`. -/
structure CommandRow where
  mnemonic : String
  pattern : Byte
  mask : Byte
  deriving DecidableEq, Repr

/-- A byte selects a row (R73). -/
def CommandRow.selects (r : CommandRow) (b : Byte) : Bool :=
  b &&& r.mask == r.pattern

/-- The thirteen command rows of R73. -/
def commandTable : List CommandRow :=
  [⟨"CLR", 0x00, 0xFF⟩, ⟨"QUANT", 0x01, 0xFF⟩, ⟨"ENC", 0x02, 0xFF⟩, ⟨"DEC", 0x03, 0xFF⟩, ⟨"COUNT", 0x04, 0xFF⟩,
   ⟨"BBOX", 0x05, 0xFF⟩, ⟨"IRECT", 0x06, 0xFF⟩, ⟨"RESERVED_07", 0x07, 0xFF⟩, ⟨"RESERVED_08_0F", 0x08, 0xF8⟩,
   ⟨"RESERVED_10_1F", 0x10, 0xF0⟩, ⟨"RESERVED_20_3F", 0x20, 0xE0⟩, ⟨"RESERVED_40_7F", 0x40, 0xC0⟩,
   ⟨"RESERVED_80_FF", 0x80, 0x80⟩]

/-- The table's name of an instruction. -/
def Instr.mnemonic : Instr → String
  | .clr => "CLR"
  | .quant => "QUANT"
  | .enc => "ENC"
  | .dec => "DEC"
  | .count => "COUNT"
  | .bbox => "BBOX"
  | .irect => "IRECT"
  | .reserved07 => "RESERVED_07"
  | .reserved08 _ => "RESERVED_08_0F"
  | .reserved10 _ => "RESERVED_10_1F"
  | .reserved20 _ => "RESERVED_20_3F"
  | .reserved40 _ => "RESERVED_40_7F"
  | .reserved80 _ => "RESERVED_80_FF"
  | .runByte _ _ => "RUNBYTE"

/-- `count` bytes of the number `w`, the first its low 8 bits (numbered as spec/opcode_table.json numbers them). -/
def bytesOf : Nat → Nat → List Byte
  | 0, _ => []
  | count + 1, w => BitVec.ofNat 8 w :: bytesOf count (w / 256)

/-- What the decoder reads from a table word as a host writes it to `CMD`: the command row it selects. The RUNBYTE row has an
empty mask and shares all its words with the command rows; it is read from `ART` only (R73; log 8). -/
def decodeTableWord (nbits w : Nat) : Option Instr :=
  match decode .command (bytesOf (nbits / 8) w) with
  | .ok (i, _) => some i
  | .error _ => none

end Sys2Proof
end

