-- ==== Sys2Proof/Machine/State.lean ====
section
/-! DEFINITION. The state of the block and its host (spec/10_state.md), the reasons a step can stop, and the state after reset
(spec/10_state.md R38). All of it is plain data. -/

namespace Sys2Proof.Machine

/-- A buffer memory of `w`-bit elements (spec/20_memory.md R40): the elements that hold a specified value, by strictly rising
address. Every other element is unspecified (U2, U6) and reads as a free value, one that changes only when the element becomes
unspecified anew; `forgotten` is the model's own: the lengths at and beyond which elements have become unspecified, in rising
order (log 3). At `w = 8` a cell is a `Host.Cell`. -/
structure Memory (w : Nat) where
  cells : List (Nat × BitVec w)
  forgotten : List Nat
  deriving DecidableEq, Repr

/-- The three buffers (R34 to R36). -/
inductive Buf
  | pix
  | idx
  | art
  deriving DecidableEq, Repr

/-- `ST`, the sequencer state (R30). -/
inductive Seq
  | idle
  | quantRun
  | encRun
  | countRun
  | decRun
  deriving DecidableEq, Repr

/-- What the host does in one step (spec/30_encoding.md R71, spec/20_memory.md R42, spec/70_reset_and_hazards.md R170). -/
inductive HostAction
  /-- `RegWrite(n, v)`; with `n = 14` it issues a command. -/
  | regWrite (n v : Nat)
  /-- `RegWrite(5, a)` with an angle. -/
  | angleWrite (a : Angle)
  /-- `RegRead(n)`. -/
  | regRead (n : Nat)
  /-- `BufWrite(b, a, v)`. -/
  | bufWrite (b : Buf) (a v : Nat)
  /-- `BufRead(b, a)`. -/
  | bufRead (b : Buf) (a : Nat)
  /-- `WAIT`: repeat `RD STATUS` until bit 0 reads 0. -/
  | wait
  /-- The host does nothing: the sequencer's turn (log 7). -/
  | pass
  /-- The reset event from outside the block (R170). -/
  | reset
  deriving DecidableEq, Repr

/-- What a host read returned: a number zero-extended to 32 bits, or the value of `ANGLE` (R13). -/
inductive Reply
  | value (v : Len)
  | angle (a : Angle)
  deriving DecidableEq, Repr

/-- The state: the registers of R13 under their own names (`CMD` holds no value, R26; of `STATUS` the bits `DONE` and `ERR` are
held and `BUSY` is `st ≠ idle`, R30), the sequencer state and cursors (R30, R31), the three buffers, the parameter `CAP`
(log 1), and the host's side (log 7). -/
structure State where
  /-- `W`, register 0 (R14). -/
  w : Dim
  /-- `H`, register 1 (R15). -/
  h : Dim
  /-- `TILEW`, register 2 (R16). -/
  tilew : Dim
  /-- `LEVELS`, register 3 (R17). -/
  levels : BitVec 5
  /-- `INVERT`, register 4 (R18). -/
  invert : BitVec 1
  /-- `ANGLE`, register 5 (R19). -/
  angle : Angle
  /-- `PIXLEN`, register 6 (R20). -/
  pixlen : Len
  /-- `IDXLEN`, register 7 (R21). -/
  idxlen : Len
  /-- `ALEN`, register 8 (R22). -/
  alen : Len
  /-- `RCOUNT`, register 9 (R23). -/
  rcount : Len
  /-- `BW`, register 10 (R24). -/
  bw : Len
  /-- `BH`, register 11 (R24). -/
  bh : Len
  /-- `IW`, register 12 (R24). -/
  iw : Len
  /-- `IH`, register 13 (R24). -/
  ih : Len
  /-- Bit `DONE` of `STATUS`, register 15 (R25). -/
  done : Bool
  /-- Bit `ERR` of `STATUS`, register 15 (R25). -/
  err : Bool
  /-- `ERRCODE`, register 16 (R27). -/
  errcode : Byte
  /-- `ERR_EXPECT`, register 17 (R28). -/
  errExpect : Len
  /-- `ERR_ACTUAL`, register 18 (R28). -/
  errActual : Len
  /-- `ST` (R30). -/
  st : Seq
  /-- The current row (R31). -/
  y : Cursor
  /-- The current column (R31). -/
  x : Cursor
  /-- One past the last column of the open chunk (R31). -/
  cend : Cursor
  /-- Samples gathered in the encoder's open run (R31). -/
  rl : BitVec 5
  /-- Index of the next artifact byte (R31). -/
  k : Len
  /-- Samples DEC has reconstructed (R31). -/
  n : Len
  /-- Index of QUANT's next sample (R31). -/
  i : Len
  /-- `PIX` (R34). -/
  pix : Memory 24
  /-- `IDX` (R35). -/
  idx : Memory 4
  /-- `ART` (R36). -/
  art : Memory 8
  /-- The parameter `CAP` (R7); no step changes it (R39). -/
  cap : Nat
  /-- The model's own: how many free values busy reads have drawn (log 5). -/
  draws : Nat
  /-- The model's own: what the host is going to do (log 7). -/
  script : List HostAction
  /-- The model's own: what the last host read returned. -/
  reply : Option Reply
  deriving DecidableEq, Repr

/-- Reasons the machine stops. -/
inductive Fault
  /-- BBOX or IRECT met a zero divisor; raised by IRECT alone, in the thin branch, when `s = 0` or `c = 0`, which only a `Trig`
  other than the reference one can bring about (U4). Safe: the spec gives no meaning. -/
  | divisorZero
  /-- A result of BBOX or IRECT does not fit its 32-bit register, which only a `Trig` other than the reference one can bring
  about (U4). Safe: the spec gives no meaning. -/
  | resultTooWide
  deriving DecidableEq, Repr

/-- Reasons an instruction is refused. -/
inductive Refusal
  /-- An instruction without a meaning; raised by no arm of `exec`. Safe. -/
  | notModelled (mnemonic : String)
  deriving DecidableEq, Repr

/-- The machine right after reset (R38). The registers, `st` and the buffers are as the spec states; the cursors (log 6) and
the model's own fields (logs 1, 7, 15) hold the values the log names. -/
def State.reset : State where
  w := 0
  h := 0
  tilew := Config.tilewDefault
  levels := 16
  invert := 0
  angle := .quarters 0
  pixlen := 0
  idxlen := 0
  alen := 0
  rcount := 0
  bw := 0
  bh := 0
  iw := 0
  ih := 0
  done := false
  err := false
  errcode := 0
  errExpect := 0
  errActual := 0
  st := .idle
  y := 0
  x := 0
  cend := 0
  rl := 0
  k := 0
  n := 0
  i := 0
  pix := ⟨[], []⟩
  idx := ⟨[], []⟩
  art := ⟨[], []⟩
  cap := Config.cap
  draws := 0
  script := []
  reply := none

/-- The outcome type of a step of this machine. -/
abbrev Result := Host.Outcome State Fault Refusal

end Sys2Proof.Machine
end

