-- ==== Sys2Proof/Machine/Flags.lean ====
section
/-! DEFINITION. The flags and the error codes: `STATUS8` (spec/30_encoding.md R65), `ERRCODE8` (R66) and the nine error causes
(spec/60_exceptions.md R150). -/

namespace Sys2Proof.Machine

/-- `STATUS.BUSY`: an operation is running (spec/10_state.md R25, R30). -/
def State.busy (s : State) : Bool :=
  s.st != .idle

/-- `STATUS` as the host reads it: bit 0 `BUSY`, bit 1 `DONE`, bit 2 `ERR`, bits 7 to 3 zero (R65). -/
def State.status (s : State) : Byte :=
  (0 : BitVec 5) ++ BitVec.ofBool s.err ++ BitVec.ofBool s.done ++ BitVec.ofBool s.busy

/-- The four error kinds (spec/10_state.md R27). -/
inductive ErrorKind
  | invalidConfig
  | invalidInput
  | malformedStream
  | illegalCommand
  deriving DecidableEq, Repr

/-- `KIND`, bits 3 to 0 of `ERRCODE` (R27). -/
def ErrorKind.code : ErrorKind → Nat
  | .invalidConfig => 1
  | .invalidInput => 2
  | .malformedStream => 3
  | .illegalCommand => 4

/-- The nine causes, one per row of R150. -/
inductive ErrorCause
  /-- `LEVELS` outside 2 to 16. -/
  | levels
  /-- `TILEW = 0`. -/
  | tileWidth
  /-- `PIXLEN` or `IDXLEN` is not `W*H`. -/
  | length
  /-- `W*H` or `ALEN` exceeds `CAP`. -/
  | capacity
  /-- `W = 0` or `H = 0` for the geometry commands. -/
  | zeroDimension
  /-- No byte left and fewer than `W*H` samples. -/
  | exhausted
  /-- The next run leaves the open tile. -/
  | overrun
  /-- `W*H` samples and a byte is left. -/
  | excess
  /-- Command byte hex 07 to FF. -/
  | reservedByte
  deriving DecidableEq, Repr

/-- The kind of a cause (R150). -/
def ErrorCause.kind : ErrorCause → ErrorKind
  | .levels | .tileWidth => .invalidConfig
  | .length | .capacity | .zeroDimension => .invalidInput
  | .exhausted | .overrun | .excess => .malformedStream
  | .reservedByte => .illegalCommand

/-- The sub-cause of a cause (R150). -/
def ErrorCause.sub : ErrorCause → Nat
  | .levels | .length | .exhausted | .reservedByte => 1
  | .tileWidth | .capacity | .overrun => 2
  | .zeroDimension | .excess => 3

/-- `ERRCODE = SUB * 16 + KIND` (R150). -/
def ErrorCause.code (c : ErrorCause) : Byte :=
  BitVec.ofNat 8 (c.sub * 16 + c.kind.code)

end Sys2Proof.Machine
end

