-- ==== Sys2Proof/Machine/Operands.lean ====
section
/-! DEFINITION. The operand forms: the register file as the host reads it (spec/10_state.md R13), the sizes the commands compute
from registers, the channels of a pixel (spec/30_encoding.md R64), and `Trig` (spec/43_geometry.md R126). -/

namespace Sys2Proof.Machine

/-- `N = W * H`, over the unbounded naturals (spec/00_scope.md R9). -/
def State.size (s : State) : Nat :=
  s.w.toNat * s.h.toNat

/-- The element index of row `y`, column `x` (spec/20_memory.md R44), at the cursors. -/
def State.position (s : State) : Nat :=
  s.y.toNat * s.w.toNat + s.x.toNat

/-- The length register of a buffer (R37). -/
def State.lenOf (s : State) : Buf → Nat
  | .pix => s.pixlen.toNat
  | .idx => s.idxlen.toNat
  | .art => s.alen.toNat

/-- Channel `R` of a pixel word, bits 23 to 16 (R64). -/
def pixelR (p : Pixel) : Nat :=
  (p.extractLsb' 16 8).toNat

/-- Channel `G` of a pixel word, bits 15 to 8 (R64). -/
def pixelG (p : Pixel) : Nat :=
  (p.extractLsb' 8 8).toNat

/-- Channel `B` of a pixel word, bits 7 to 0 (R64). -/
def pixelB (p : Pixel) : Nat :=
  (p.extractLsb' 0 8).toNat

/-- The pixel word of a sample `(R, G, B)`: `R * 65536 + G * 256 + B` (R64). -/
def pixelOf (r g b : Nat) : Pixel :=
  BitVec.ofNat 24 (r * 65536 + g * 256 + b)

/-- What `RegRead(n)` returns while `BUSY = 0`: the register zero-extended; `CMD` and numbers above 18 read 0 (R13, R26). -/
def State.readReg (s : State) (n : Nat) : Reply :=
  match n with
  | 0 => .value (s.w.setWidth 32)
  | 1 => .value (s.h.setWidth 32)
  | 2 => .value (s.tilew.setWidth 32)
  | 3 => .value (s.levels.setWidth 32)
  | 4 => .value (s.invert.setWidth 32)
  | 5 => .angle s.angle
  | 6 => .value s.pixlen
  | 7 => .value s.idxlen
  | 8 => .value s.alen
  | 9 => .value s.rcount
  | 10 => .value s.bw
  | 11 => .value s.bh
  | 12 => .value s.iw
  | 13 => .value s.ih
  | 15 => .value (s.status.setWidth 32)
  | 16 => .value (s.errcode.setWidth 32)
  | 17 => .value s.errExpect
  | 18 => .value s.errActual
  | _ => .value 0

/-- The width of a register (R13); `ANGLE` holds no number of bits. -/
def regWidth (n : Nat) : Nat :=
  match n with
  | 0 | 1 | 2 => 16
  | 3 => 5
  | 4 => 1
  | 14 | 15 | 16 => 8
  | _ => 32

/-- What `RegRead(n)` returns while `BUSY = 1` (R29): `STATUS` exactly, 0 for a number above 18, else a free value of the
register's type (U5; log 5). -/
def State.readRegBusy (s : State) (n : Nat) : Reply :=
  if n = 15 then s.readReg 15
  else if 18 < n then .value 0
  else if n = 5 then .angle (Config.busyAngle s.draws)
  else .value (BitVec.ofNat 32 ((Config.busyWord s.draws).toNat % 2 ^ regWidth n))

/-! ### Trig -/

/-- The denominator of the two squares. -/
def trigDen (t : Trig) : Nat :=
  t.denPred + 1

/-- The pair of two rationals, `s = sn / sd` and `c = cn / cd` with non-zero denominators: how a host writes `trig(s, c)`
(spec/30_encoding.md R71). -/
def trigOfRat (sn sd cn cd : Nat) : Trig :=
  { sSq := (sn * cd) * (sn * cd), cSq := (cn * sd) * (cn * sd), denPred := (sd * cd) * (sd * cd) - 1 }

/-- The pair at `n * π / 6` (R126): four times `sin²` is 0, 1, 3, 4, 3, 1 and again. -/
def sixthsTrig (n : Int) : Trig :=
  match (n % 6).toNat with
  | 0 => ⟨0, 4, 3⟩
  | 1 => ⟨1, 3, 3⟩
  | 2 => ⟨3, 1, 3⟩
  | 3 => ⟨4, 0, 3⟩
  | 4 => ⟨3, 1, 3⟩
  | _ => ⟨1, 3, 3⟩

/-- The pair at `n * π / 4` (R126): twice `sin²` is 0, 1, 2, 1 and again. -/
def quartersTrig (n : Int) : Trig :=
  match (n % 4).toNat with
  | 0 => ⟨0, 2, 1⟩
  | 1 => ⟨1, 1, 1⟩
  | 2 => ⟨2, 0, 1⟩
  | _ => ⟨1, 1, 1⟩

/-- The real number an expression denotes (spec/30_encoding.md R71). -/
noncomputable def realValue : RealExpr → ℝ
  | .nat n => n
  | .pi => Real.pi
  | .sqrt n => Real.sqrt n
  | .neg a => -realValue a
  | .add a b => realValue a + realValue b
  | .mul a b => realValue a * realValue b
  | .over a denPred => realValue a / (denPred + 1)

/-- The real number of radians that an angle is; an angle given by its pair alone is none in particular (R71). -/
noncomputable def radiansOf : Angle → Option ℝ
  | .expr e => some (realValue e)
  | .sixths n => some (n * Real.pi / 6)
  | .quarters n => some (n * Real.pi / 4)
  | .real name => some ((Config.realAngle name).getD 0)
  | .trig _ => none
  | .trigReal _ => none

/-- What `Trig` answers (R7): a pair of square roots of rationals, the exact `(|sin x|, |cos x|)` of the real number `x` that an
angle is, or a pair of real numbers. -/
inductive TrigValue
  | roots (t : Trig)
  | ofAngle (a : Angle) (exact : ExactArithmetic)
  | ofPair (s c : ℝ) (exact : ExactArithmetic)

/-- The number `s` of the pair. -/
noncomputable def TrigValue.s : TrigValue → ℝ
  | .roots t => Real.sqrt (t.sSq / trigDen t)
  | .ofAngle a _ => |Real.sin ((radiansOf a).getD 0)|
  | .ofPair s _ _ => |s|

/-- The number `c` of the pair. -/
noncomputable def TrigValue.c : TrigValue → ℝ
  | .roots t => Real.sqrt (t.cSq / trigDen t)
  | .ofAngle a _ => |Real.cos ((radiansOf a).getD 0)|
  | .ofPair _ c _ => |c|

/-- What `Trig` answers at an angle that is a real number, given what the reference `Trig` answers there. -/
def answerOf (p : TrigParameter) (a : Angle) (byReference : ExactArithmetic → TrigValue) : TrigValue :=
  match p with
  | .reference exact => byReference exact
  | .other pair exact => .ofPair (pair a).1 (pair a).2 exact
  | .roots pair => .roots (pair a)

/-- `Trig(a)` (R7, R126). An angle written as `trig(s, c)` is one whose `Trig` is that pair, whatever `Trig` is (R71). -/
def trigOf (p : TrigParameter) (a : Angle) : TrigValue :=
  match a with
  | .expr _ => answerOf p a (.ofAngle a)
  | .sixths n => answerOf p a fun _ => .roots (sixthsTrig n)
  | .quarters n => answerOf p a fun _ => .roots (quartersTrig n)
  | .real _ => answerOf p a (.ofAngle a)
  | .trig pair => .roots pair
  | .trigReal name =>
    match Config.realPair name with
    | none => .roots ⟨0, 1, 0⟩
    | some (s, c, exact) => .ofPair s c exact

/-- The angle that a plain number written to `ANGLE` is: `v` radians (R71, spec/70_reset_and_hazards.md R181). 0 is held in the
form of the reset value (log 12). -/
def angleOfNumber (v : Nat) : Angle :=
  if v = 0 then .quarters 0 else .expr (.nat v)

/-- `s` of `Trig(a)`. -/
noncomputable def sinOf (p : TrigParameter) (a : Angle) : ℝ :=
  (trigOf p a).s

/-- `c` of `Trig(a)`. -/
noncomputable def cosOf (p : TrigParameter) (a : Angle) : ℝ :=
  (trigOf p a).c

end Sys2Proof.Machine
end

