-- ==== Sys2Proof/Machine/Ops.lean ====
section
/-! DEFINITION. The named operations over memory, registers and status: element access (spec/20_memory.md), register writes
(spec/10_state.md R13), the common start actions (spec/44_control.md R142), `finish()` (R146), error entry (spec/60_exceptions.md
R158) and reset (spec/70_reset_and_hazards.md R170). -/

namespace Sys2Proof.Machine

/-! ### One buffer memory -/

/-- The specified value at an address, if there is one. -/
def lookupCell {w : Nat} : List (Nat × BitVec w) → Nat → Option (BitVec w)
  | [], _ => none
  | (b, v) :: rest, a => if b = a then some v else lookupCell rest a

/-- The list with the value at an address set, addresses kept strictly rising. -/
def insertCell {w : Nat} : List (Nat × BitVec w) → Nat → BitVec w → List (Nat × BitVec w)
  | [], a, v => [(a, v)]
  | (b, u) :: rest, a, v =>
    if a < b then (a, v) :: (b, u) :: rest
    else if a = b then (a, v) :: rest
    else (b, u) :: insertCell rest a v

/-- How often element `a` has become unspecified (log 3). -/
def Memory.draw {w : Nat} (m : Memory w) (a : Nat) : Nat :=
  m.forgotten.countP fun len => decide (len ≤ a)

/-- The free value that element `a` reads as while it is unspecified (U2, U6; log 3). -/
def Memory.unspecified {w : Nat} (m : Memory w) (a : Nat) : BitVec w :=
  Config.unspecified w (m.draw a) a

/-- Element `a`: its specified value, else the free value an unspecified element reads as. -/
def Memory.read {w : Nat} (m : Memory w) (a : Nat) : BitVec w :=
  (lookupCell m.cells a).getD (m.unspecified a)

/-- Element `a` set to `v`. -/
def Memory.write {w : Nat} (m : Memory w) (a : Nat) (v : BitVec w) : Memory w :=
  { m with cells := insertCell m.cells a v }

/-- A length added to a list of lengths in rising order. -/
def insertLen : List Nat → Nat → List Nat
  | [], len => [len]
  | b :: rest, len => if len ≤ b then len :: b :: rest else b :: insertLen rest len

/-- The elements at and beyond `len` become unspecified (spec/10_state.md R37; log 4); those below it read as before (R52). -/
def Memory.keepBelow {w : Nat} (m : Memory w) (len : Nat) : Memory w :=
  { cells := m.cells.filter fun c => c.1 < len, forgotten := insertLen m.forgotten len }

/-- Every element becomes unspecified (R172). -/
def Memory.forget {w : Nat} (m : Memory w) : Memory w :=
  m.keepBelow 0

/-- The addresses of a list of cells rise strictly. -/
def cellsRising {w : Nat} : List (Nat × BitVec w) → Bool
  | [] => true
  | [_] => true
  | (a, _) :: (b, u) :: rest => decide (a < b) && cellsRising ((b, u) :: rest)

/-- The lengths of a list rise. -/
def lensRising : List Nat → Bool
  | [] => true
  | [_] => true
  | a :: b :: rest => decide (a ≤ b) && lensRising (b :: rest)

/-- The canonical form: strictly rising addresses, and the forgotten lengths in order. An unlisted element has no specified
value, so no entry can equal one. -/
def Memory.wf {w : Nat} (m : Memory w) : Bool :=
  cellsRising m.cells && lensRising m.forgotten

/-! ### The buffers of the block: there is no element at or beyond `CAP` (spec/20_memory.md R40), a write there has no effect
(R42, U9; log 17) -/

/-- `PIX[a] <- v`. -/
def State.writePix (s : State) (a : Nat) (v : Pixel) : State :=
  if a < s.cap then { s with pix := s.pix.write a v } else s

/-- `IDX[a] <- v`. -/
def State.writeIdx (s : State) (a : Nat) (v : Nibble) : State :=
  if a < s.cap then { s with idx := s.idx.write a v } else s

/-- `ART[a] <- v`. -/
def State.writeArt (s : State) (a : Nat) (v : Byte) : State :=
  if a < s.cap then { s with art := s.art.write a v } else s

/-- `IDX[a + j] <- v` for `j` in `0 .. count - 1` (spec/42_rle_decoder.md R114). -/
def State.writeIdxRun (s : State) (a : Nat) (v : Nibble) : Nat → State
  | 0 => s
  | count + 1 => (s.writeIdxRun a v count).writeIdx (a + count) v

/-- `BufWrite(b, a, v)` while `BUSY = 0`: stores `v mod 2^e`, `e` the element width (R42). -/
def State.writeBuf (s : State) (b : Buf) (a v : Nat) : State :=
  match b with
  | .pix => s.writePix a (BitVec.ofNat 24 v)
  | .idx => s.writeIdx a (BitVec.ofNat 4 v)
  | .art => s.writeArt a (BitVec.ofNat 8 v)

/-- Element `a` of buffer `b`, zero-extended. -/
def State.element (s : State) (b : Buf) (a : Nat) : Len :=
  match b with
  | .pix => (s.pix.read a).setWidth 32
  | .idx => (s.idx.read a).setWidth 32
  | .art => (s.art.read a).setWidth 32

/-- The free value a host read of element `a` of buffer `b` returns where the spec leaves it open. -/
def State.unspecifiedElement (s : State) (b : Buf) (a : Nat) : Len :=
  match b with
  | .pix => (s.pix.unspecified a).setWidth 32
  | .idx => (s.idx.unspecified a).setWidth 32
  | .art => (s.art.unspecified a).setWidth 32

/-- What `BufRead(b, a)` returns while `BUSY = 0`: the element, below both `CAP` and the buffer's length register; a free value
at or beyond either (R42, U2, U9; log 4). -/
def State.readBuf (s : State) (b : Buf) (a : Nat) : Reply :=
  .value (if a < s.cap ∧ a < s.lenOf b then s.element b a else s.unspecifiedElement b a)

/-- The element width of a buffer (R40). -/
def bufWidth : Buf → Nat
  | .pix => 24
  | .idx => 4
  | .art => 8

/-- What `BufRead` returns while `BUSY = 1`: a free value of the element's type (R29, U5; log 5). -/
def State.readBufBusy (s : State) (b : Buf) : Reply :=
  .value (BitVec.ofNat 32 ((Config.busyWord s.draws).toNat % 2 ^ bufWidth b))

/-! ### Registers -/

/-- `PIXLEN <- v`: elements at and beyond it hold unspecified values (R37; log 4). -/
def State.setPixlen (s : State) (v : Len) : State :=
  { s with pixlen := v, pix := s.pix.keepBelow v.toNat }

/-- `IDXLEN <- v`, likewise. -/
def State.setIdxlen (s : State) (v : Len) : State :=
  { s with idxlen := v, idx := s.idx.keepBelow v.toNat }

/-- `ALEN <- v`, likewise. -/
def State.setAlen (s : State) (v : Len) : State :=
  { s with alen := v, art := s.art.keepBelow v.toNat }

/-- `RegWrite(n, v)` while `BUSY = 0`, for every register but `CMD`: `v mod 2^width`; a read-only register and a number above
18 keep everything as it is (R13). A number `v` written to `ANGLE` is the real expression `v`: `v` radians (R71). -/
def State.writeReg (s : State) (n v : Nat) : State :=
  match n with
  | 0 => { s with w := BitVec.ofNat 16 v }
  | 1 => { s with h := BitVec.ofNat 16 v }
  | 2 => { s with tilew := BitVec.ofNat 16 v }
  | 3 => { s with levels := BitVec.ofNat 5 v }
  | 4 => { s with invert := BitVec.ofNat 1 v }
  | 5 => { s with angle := angleOfNumber v }
  | 6 => s.setPixlen (BitVec.ofNat 32 v)
  | 7 => s.setIdxlen (BitVec.ofNat 32 v)
  | 8 => s.setAlen (BitVec.ofNat 32 v)
  | _ => s

/-! ### Starting and ending a command -/

/-- The commands as R158 names them when one fails. -/
inductive Op
  | quant
  | enc
  | dec
  | count
  | bbox
  | irect
  | reserved
  deriving DecidableEq, Repr

/-- The common start actions (R142). -/
def State.beginCommand (s : State) : State :=
  { s with done := false, err := false, errcode := 0, errExpect := 0, errActual := 0 }

/-- A command byte is issued: ignored while `BUSY = 1` (R145; that the test stands here is log 18), else the common start actions
and then the start rule of the command (R140). -/
def issue (start : State → Result) (s : State) : Result :=
  if s.busy then .next s else start s.beginCommand

/-- `finish()` (R146). The cursors keep their last values: DESIGN CHOICE (log 6), since R31 and U3 leave them open in `IDLE`. -/
def State.finish (s : State) : State :=
  { s with done := true, st := .idle }

/-- "the failing command's results <- 0" (R158). With its length 0, every element of the destination is unspecified (R37, R180;
log 4). -/
def State.clearResults (s : State) : Op → State
  | .quant => s.setIdxlen 0
  | .enc => s.setAlen 0
  | .dec => s.setIdxlen 0
  | .count => { s with rcount := 0 }
  | .bbox => { s with bw := 0, bh := 0 }
  | .irect => { s with iw := 0, ih := 0 }
  | .reserved => s

/-- `ERRCODE`, `ERR`, `DONE` and `ST` at error entry (R158). The cursors keep their last values: DESIGN CHOICE (log 6), since R31
and U3 leave them open in `IDLE`. -/
def State.enterError (s : State) (c : ErrorCause) : State :=
  { s with errcode := c.code, err := true, done := true, st := .idle }

/-- `raise <Kind>(sub)` (R158): the block's whole error entry. Nothing is saved and control goes to no handler; what ends the
error state is the next command's `beginCommand` (R159). Of the cursors `enterError` speaks (log 6). -/
def State.raise (s : State) (op : Op) (c : ErrorCause) : State :=
  (s.clearResults op).enterError c

/-! ### The chunk scan shared by ENC, COUNT and DEC -/

/-- A natural number in a cursor. -/
def toCursor (v : Nat) : Cursor :=
  BitVec.ofNat 17 v

/-- Cursor start (spec/41_rle_encoder.md R95). -/
def State.startScan (s : State) : State :=
  { s with y := 0, x := 0, cend := toCursor (min s.tilew.toNat s.w.toNat), rl := 0, k := 0 }

/-- `advance_chunk()` (R97). -/
def State.advanceChunk (s : State) : State :=
  if s.x.toNat = s.w.toNat then
    { s with y := toCursor (s.y.toNat + 1), x := 0, cend := toCursor (min s.tilew.toNat s.w.toNat) }
  else
    { s with cend := toCursor (min (s.x.toNat + s.tilew.toNat) s.w.toNat) }

/-- `if x = cend then advance_chunk()` (R96, R114). -/
def State.closeChunk (s : State) : State :=
  if s.x = s.cend then s.advanceChunk else s

/-! ### Reset -/

/-- The reset event (R170 to R173): every register and the sequencer at the state of R38, every element of the buffers
unspecified. `CAP` is no state (R39), and the host's side is not the block's (log 13). -/
def State.resetEvent (s : State) : State :=
  { State.reset with
    pix := s.pix.forget, idx := s.idx.forget, art := s.art.forget,
    cap := s.cap, draws := s.draws, script := s.script, reply := s.reply }

end Sys2Proof.Machine
end

