-- ==== Sys2Proof/Machine/Control.lean ====
section
/-! DEFINITION. CLR and the reserved command bytes (spec/44_control.md R143, R144). -/

namespace Sys2Proof.Machine

/-- CLR: the common start actions and nothing more (R143). -/
def clrStart (s : State) : Result :=
  .next s

/-- A reserved command byte: `raise IllegalCommand(1)` (R144). -/
def reservedStart (s : State) : Result :=
  .next (s.raise .reserved .reservedByte)

/-- CLR (R143). -/
def execClr (s : State) : Result :=
  issue clrStart s

/-- Byte hex 07 (R144). -/
def execReserved07 (s : State) : Result :=
  issue reservedStart s

/-- Bytes hex 08 to 0F (R144); the low bits have no meaning. -/
def execReserved08 (_low : BitVec 3) (s : State) : Result :=
  issue reservedStart s

/-- Bytes hex 10 to 1F (R144). -/
def execReserved10 (_low : BitVec 4) (s : State) : Result :=
  issue reservedStart s

/-- Bytes hex 20 to 3F (R144). -/
def execReserved20 (_low : BitVec 5) (s : State) : Result :=
  issue reservedStart s

/-- Bytes hex 40 to 7F (R144). -/
def execReserved40 (_low : BitVec 6) (s : State) : Result :=
  issue reservedStart s

/-- Bytes hex 80 to FF (R144). -/
def execReserved80 (_low : BitVec 7) (s : State) : Result :=
  issue reservedStart s

end Sys2Proof.Machine
end

