-- ==== Sys2Proof/Machine/Encoder.lean ====
section
/-! DEFINITION. The RLE encoder, commands ENC and COUNT (spec/41_rle_encoder.md): the functions of the source (R91 to R93,
R102) and the step rules (R94 to R98, R103). -/

namespace Sys2Proof.Machine

/-! ### The functions -/

/-- How many leading elements of a sequence equal `v`, counting at most `limit`. -/
def leadRun (v : Nibble) : List Nibble → Nat → Nat
  | [], _ => 0
  | _, 0 => 0
  | u :: rest, limit + 1 => if u = v then leadRun v rest limit + 1 else 0

/-- `encode_chunk` (R92), on at most `fuel` runs. -/
def encodeChunkFuel : Nat → List Nibble → List Byte
  | 0, _ => []
  | _, [] => []
  | fuel + 1, v :: rest =>
    let r := leadRun v rest (Config.runMax - 1) + 1
    runByteOf r v :: encodeChunkFuel fuel ((v :: rest).drop r)

/-- `encode_chunk(c)` (R92): a sequence has at most as many runs as elements. -/
def encodeChunk (c : List Nibble) : List Byte :=
  encodeChunkFuel c.length c

/-- `q[a..b)` (spec/00_scope.md R9). -/
def slice {α : Type} (q : List α) (a b : Nat) : List α :=
  (q.drop a).take (b - a)

/-- `ceil(a / b)` (R9). -/
def ceilDiv (a b : Nat) : Nat :=
  (a + b - 1) / b

/-- The bytes of row `y`: its chunks from left to right (R91, R93). -/
def encodeRow (q : List Nibble) (w t y : Nat) : List Byte :=
  (List.range (ceilDiv w t)).flatMap fun j => encodeChunk (slice q (y * w + j * t) (y * w + min ((j + 1) * t) w))

/-- `encode(X, W, H, T)` (R93). -/
def encodeBuffer (q : List Nibble) (w h t : Nat) : List Byte :=
  (List.range h).flatMap fun y => encodeRow q w t y

/-- `count_runs(X, W, H, T)` (R102). -/
def countRuns (q : List Nibble) (w h t : Nat) : Nat :=
  (encodeBuffer q w h t).length

/-- `IDX[0 .. W*H)`. -/
def State.idxList (s : State) : List Nibble :=
  (List.range s.size).map s.idx.read

/-- `ART[0 .. ALEN)`. -/
def State.artList (s : State) : List Byte :=
  (List.range s.alen.toNat).map s.art.read

/-! ### The steps -/

/-- The three checks of ENC and COUNT, in order (R94, R106), then the cursor start (R95). -/
def scanStart (op : Op) (run : Seq) (s : State) : Result :=
  if s.tilew = 0 then .next (s.raise op .tileWidth)
  else if s.cap < s.size then .next (s.raise op .capacity)
  else if s.idxlen.toNat ≠ s.size then .next (s.raise op .length)
  else .next { s.startScan with st := run }

/-- ENC start (R94). -/
def encStart (s : State) : Result :=
  scanStart .enc .encRun { s with alen := 0 }

/-- COUNT start (R103). -/
def countStart (s : State) : Result :=
  scanStart .count .countRun { s with rcount := 0 }

/-- "`W = 0` or `y = H`": the scan is over (R96). -/
def State.scanOver (s : State) : Bool :=
  s.w == 0 || s.y.toNat == s.h.toNat

/-- The open run ends with the sample at the cursors (R96): the chunk ends, or the run reaches 16, or the next value differs.
The look-ahead read happens only when the first two do not hold. -/
def State.runEnds (s : State) : Bool :=
  s.x.toNat + 1 == s.cend.toNat || s.rl.toNat + 1 == Config.runMax
    || s.idx.read (s.position + 1) != s.idx.read s.position

/-- One sample of the scan (R96); COUNT leaves the write to `ART` out (R103). -/
def State.scanSample (store : Bool) (s : State) : State :=
  let r := s.rl.toNat + 1
  let s1 :=
    if s.runEnds then
      let s0 := if store then s.writeArt s.k.toNat (runByteOf r (s.idx.read s.position)) else s
      { s0 with k := s.k + 1, rl := 0 }
    else { s with rl := BitVec.ofNat 5 r }
  { s1 with x := s.x + 1 }.closeChunk

/-- The ENC step (R96, R98). At the end `ALEN` is written, and elements beyond it are unspecified (R37; log 4). -/
def encStep (s : State) : State :=
  if s.scanOver then (s.setAlen s.k).finish else s.scanSample true

/-- The COUNT step (R103). -/
def countStep (s : State) : State :=
  if s.scanOver then { s with rcount := s.k }.finish else s.scanSample false

/-- ENC (R90, R94, R106). -/
def execEnc (s : State) : Result :=
  issue encStart s

/-- COUNT (R101, R103, R106). -/
def execCount (s : State) : Result :=
  issue countStart s

end Sys2Proof.Machine
end

