-- ==== Sys2Proof/Machine/Decoder.lean ====
section
/-! DEFINITION. The RLE decoder, command DEC, and the run byte it consumes (spec/42_rle_decoder.md): the function of the source
(R111, R112) and the step rules (R113, R114). -/

namespace Sys2Proof.Machine

/-! ### The function -/

/-- `b[7:4] + 1` (spec/30_encoding.md R61). -/
def runLengthOf (b : Byte) : Nat :=
  (b.extractLsb' 4 4).toNat + 1

/-- `b[3:0]` (R61). -/
def runValueOf (b : Byte) : Nibble :=
  b.extractLsb' 0 4

/-- The sizes of the chunks in row-major, then chunk order (R111; spec/41_rle_encoder.md R91). -/
def chunkSizes (w h t : Nat) : List Nat :=
  (List.range h).flatMap fun _ => (List.range (ceilDiv w t)).map fun j => min ((j + 1) * t) w - j * t

/-- Expands bytes until `m` samples are placed: the samples and the bytes left, or nothing when the bytes run out or a run
leaves the chunk (R111). -/
def fillChunk : Nat → List Byte → Option (List Nibble × List Byte)
  | 0, bytes => some ([], bytes)
  | _ + 1, [] => none
  | m + 1, b :: rest =>
    if m + 1 < runLengthOf b then none
    else (fillChunk (m + 1 - runLengthOf b) rest).map fun p =>
      (List.replicate (runLengthOf b) (runValueOf b) ++ p.1, p.2)

/-- Fills chunks of the given sizes one after another; accepted only when no byte is left (R111). -/
def fillChunks : List Nat → List Byte → Option (List Nibble)
  | [], [] => some []
  | [], _ :: _ => none
  | m :: sizes, bytes => (fillChunk m bytes).bind fun p => (fillChunks sizes p.2).map fun rest => p.1 ++ rest

/-- `decode(A, W, H, T)` (R112); nothing when `A` is malformed. -/
def decodeBuffer (bytes : List Byte) (w h t : Nat) : Option (List Nibble) :=
  fillChunks (chunkSizes w h t) bytes

/-! ### The steps -/

/-- DEC start (R113). -/
def decStart (s : State) : Result :=
  let s := { s with idxlen := 0 }
  if s.tilew = 0 then .next (s.raise .dec .tileWidth)
  else if s.cap < s.size ∨ s.cap < s.alen.toNat then .next (s.raise .dec .capacity)
  else .next { s.startScan with n := 0, st := .decRun }

/-- `fail_dec(sub)` (R114): the two counts, then `raise`, which leaves every element of `IDX` unspecified (R117, R180; log 14). -/
def State.failDec (s : State) (c : ErrorCause) : State :=
  { s with errExpect := BitVec.ofNat 32 s.size, errActual := s.n }.raise .dec c

/-- The DEC step consumes no byte: `n = N` or `k = ALEN` (R114). -/
def State.decAtEnd (s : State) : Bool :=
  s.n.toNat == s.size || s.k == s.alen

/-- The DEC step that consumes no byte (R114): success, excess or exhausted. At success `IDXLEN` is written, and elements
beyond it are unspecified (R37; log 4). -/
def State.decEnd (s : State) : State :=
  if s.n.toNat = s.size then
    if s.k = s.alen then (s.setIdxlen (BitVec.ofNat 32 s.size)).finish else s.failDec .excess
  else s.failDec .exhausted

/-- One run expanded at the cursors (R114). -/
def State.expandRun (s : State) (run : Nat) (value : Nibble) : State :=
  { s.writeIdxRun s.position value run with
    x := toCursor (s.x.toNat + run), n := BitVec.ofNat 32 (s.n.toNat + run), k := s.k + 1 }.closeChunk

/-- RUNBYTE: the DEC step on a byte of run length `run` and value `value` (R114). Only the DEC step reads run bytes; with the
sequencer elsewhere a run byte is data and nothing happens (spec/30_encoding.md R73; log 9). -/
def execRunByte (run : Nat) (value : Nibble) (s : State) : Result :=
  if s.st ≠ .decRun then .next s
  else if s.decAtEnd then .next s.decEnd
  else if s.cend.toNat < s.x.toNat + run then .next (s.failDec .overrun)
  else .next (s.expandRun run value)

/-- DEC (R110, R113, R122). -/
def execDec (s : State) : Result :=
  issue decStart s

end Sys2Proof.Machine
end

