-- ==== Sys2Proof/Machine/Geometry.lean ====
section
/-! DEFINITION. The rotation-bounding geometry, commands BBOX and IRECT (spec/43_geometry.md). All arithmetic is exact (R136).
The functions are written over the real numbers; for a pair of square roots of rationals every `floor` is an integer square
root, and whole numbers compute it. -/

namespace Sys2Proof.Machine

/-! ### The functions over the real numbers -/

/-- `bbox(W, H, s, c)` (R128). -/
noncomputable def bboxReal (w h : Nat) (s c : ℝ) : Nat × Nat :=
  (⌊w * c + h * s⌋.natAbs, ⌊w * s + h * c⌋.natAbs)

/-- `short <= 2*s*c*long or den = 0`: the thin-rectangle regime (R131, R133). -/
def ThinReal (w h : Nat) (s c : ℝ) : Prop :=
  ((min w h : Nat) : ℝ) ≤ 2 * s * c * (max w h : Nat) ∨ c * c - s * s = 0

open scoped Classical in
/-- `irect(W, H, s, c)` (R131, R132); nothing when the thin branch would divide by zero (R136, U4). -/
noncomputable def irectReal (w h : Nat) (s c : ℝ) : Option (Nat × Nat) :=
  let x : ℝ := ((min w h : Nat) : ℝ) / 2
  if ThinReal w h s c then
    if s = 0 ∨ c = 0 then none
    else if h ≤ w then some (⌊x / s⌋.natAbs, ⌊x / c⌋.natAbs)
    else some (⌊x / c⌋.natAbs, ⌊x / s⌋.natAbs)
  else some (⌊(w * c - h * s) / (c * c - s * s)⌋.natAbs, ⌊(h * c - w * s) / (c * c - s * s)⌋.natAbs)

/-! ### Square roots -/

/-- `isqrt` on at most `fuel` base-4 digits. -/
def isqrtFuel : Nat → Nat → Nat
  | 0, _ => 0
  | fuel + 1, v =>
    if v = 0 then 0
    else
      let r := 2 * isqrtFuel fuel (v / 4)
      if (r + 1) * (r + 1) ≤ v then r + 1 else r

/-- The floor of the square root. -/
def isqrt (v : Nat) : Nat :=
  isqrtFuel v v

/-- The ceiling of the square root. -/
def csqrt (v : Nat) : Nat :=
  if isqrt v * isqrt v = v then isqrt v else isqrt v + 1

/-- `abs(floor((√a - √b) / d))` for `d > 0`. When `√a < √b` the quotient is negative, and the absolute value of its floor is
the ceiling of `(√b - √a) / d`. -/
def absFloorDiff (a b d : Nat) : Nat :=
  if b ≤ a then isqrt ((a + b - csqrt (4 * a * b)) / (d * d))
  else csqrt ((a + b - isqrt (4 * a * b) + d * d - 1) / (d * d))

/-! ### The functions for square roots of rationals -/

/-- `floor(p*c + q*s)` (R128). -/
def floorMix (p q : Nat) (t : Trig) : Nat :=
  isqrt ((p * p * t.cSq + q * q * t.sSq + isqrt (4 * (p * p * t.cSq) * (q * q * t.sSq))) / trigDen t)

/-- `bbox(W, H, s, c)` (R128). -/
def bbox (w h : Nat) (t : Trig) : Nat × Nat :=
  (floorMix w h t, floorMix h w t)

/-- `short <= 2*s*c*long or den = 0`: the thin-rectangle regime (R131, R133). -/
def thinRegime (w h : Nat) (t : Trig) : Bool :=
  decide ((min w h * trigDen t) * (min w h * trigDen t) ≤ 4 * (max w h * max w h) * (t.sSq * t.cSq))
    || t.cSq == t.sSq

/-- `floor((short / 2) / r)` with `r` the square root of `rSq / den` and `rSq` not 0 (R131). -/
def halfOver (short rSq den : Nat) : Nat :=
  isqrt (short * short * den / (4 * rSq))

/-- `abs(floor((p*c - q*s) / (c*c - s*s)))` with `c` and `s` different (R131). -/
def quotientOverDen (p q : Nat) (t : Trig) : Nat :=
  if t.sSq < t.cSq then
    absFloorDiff (p * p * t.cSq * trigDen t) (q * q * t.sSq * trigDen t) (t.cSq - t.sSq)
  else
    absFloorDiff (q * q * t.sSq * trigDen t) (p * p * t.cSq * trigDen t) (t.sSq - t.cSq)

/-- `irect(W, H, s, c)` (R131, R132); nothing when the thin branch would divide by zero (R136, U4). -/
def irect (w h : Nat) (t : Trig) : Option (Nat × Nat) :=
  if thinRegime w h t then
    if t.sSq = 0 ∨ t.cSq = 0 then none
    else if h ≤ w then some (halfOver (min w h) t.sSq (trigDen t), halfOver (min w h) t.cSq (trigDen t))
    else some (halfOver (min w h) t.cSq (trigDen t), halfOver (min w h) t.sSq (trigDen t))
  else some (quotientOverDen w h t, quotientOverDen h w t)

/-! ### The functions for what `Trig` answers -/

/-- `bbox` at what `Trig` answers: `bboxReal` of the pair (R128). -/
def TrigValue.bbox (w h : Nat) (v : TrigValue) : Nat × Nat :=
  match v with
  | .roots t => Machine.bbox w h t
  | .ofAngle _ e | .ofPair _ _ e =>
    (e.nat fun n => n = (bboxReal w h v.s v.c).1, e.nat fun n => n = (bboxReal w h v.s v.c).2)

/-- `irect` at what `Trig` answers: `irectReal` of the pair (R131). -/
def TrigValue.irect (w h : Nat) (v : TrigValue) : Option (Nat × Nat) :=
  match v with
  | .roots t => Machine.irect w h t
  | .ofAngle _ e | .ofPair _ _ e =>
    if e.nat (fun n => n = 0 ↔ irectReal w h v.s v.c = none) = 0 then none
    else some (e.nat fun n => ∃ m, irectReal w h v.s v.c = some (n, m),
      e.nat fun n => ∃ m, irectReal w h v.s v.c = some (m, n))

/-! ### The commands -/

/-- Both results fit their 32-bit registers (R136, U4). -/
def fitsResult (p : Nat × Nat) : Bool :=
  decide (p.1 < 2 ^ 32) && decide (p.2 < 2 ^ 32)

/-- `(BW, BH) <- p` (R129). -/
def State.setBox (s : State) (p : Nat × Nat) : State :=
  { s with bw := BitVec.ofNat 32 p.1, bh := BitVec.ofNat 32 p.2 }

/-- `(IW, IH) <- p` (R135). -/
def State.setRect (s : State) (p : Nat × Nat) : State :=
  { s with iw := BitVec.ofNat 32 p.1, ih := BitVec.ofNat 32 p.2 }

/-- `BW <- 0`, `BH <- 0`, the one check, the result (R129). -/
def bboxStart (s : State) : Result :=
  let s0 := s.setBox (0, 0)
  let p := (trigOf Config.trig s0.angle).bbox s0.w.toNat s0.h.toNat
  if s0.w = 0 ∨ s0.h = 0 then .next (s0.raise .bbox .zeroDimension)
  else if fitsResult p then .next (s0.setBox p).finish
  else .fault .resultTooWide

/-- `IW <- 0`, `IH <- 0`, the one check, the result (R135). -/
def irectStart (s : State) : Result :=
  let s0 := s.setRect (0, 0)
  if s0.w = 0 ∨ s0.h = 0 then .next (s0.raise .irect .zeroDimension)
  else
    match (trigOf Config.trig s0.angle).irect s0.w.toNat s0.h.toNat with
    | none => .fault .divisorZero
    | some p => if fitsResult p then .next (s0.setRect p).finish else .fault .resultTooWide

/-- BBOX (R129). -/
def execBbox (s : State) : Result :=
  issue bboxStart s

/-- IRECT (R135). -/
def execIrect (s : State) : Result :=
  issue irectStart s

end Sys2Proof.Machine
end

