-- ==== Sys2Proof/Machine/Quantizer.lean ====
section
/-! DEFINITION. The palette quantizer, command QUANT (spec/40_quantizer.md). -/

namespace Sys2Proof.Machine

/-- `intensity = (2*s + 3) div 6` with `s = R + G + B` (R77). -/
def intensity (p : Pixel) : Nat :=
  (2 * (pixelR p + pixelG p + pixelB p) + 3) / 6

/-- `level = (2 * intensity * (L - 1) + 255) div 510` (R78). -/
def levelOf (inten L : Nat) : Nat :=
  (2 * inten * (L - 1) + 255) / 510

/-- "If `invert`, `level = (levels - 1) - level`" (R78). -/
def invertLevel (level L : Nat) (inv : Bool) : Nat :=
  if inv then (L - 1) - level else level

/-- `RESCALE[L][l] = (30*l + (L-1)) div (2*(L-1))` (R79, R81). -/
def rescale (L l : Nat) : Nat :=
  (30 * l + (L - 1)) / (2 * (L - 1))

/-- `quant_sample` (R79). -/
def quantSample (p : Pixel) (L : Nat) (inv : Bool) : Nibble :=
  BitVec.ofNat 4 (rescale L (invertLevel (levelOf (intensity p) L) L inv))

/-- QUANT start (R83). -/
def quantStart (s : State) : Result :=
  let s := { s with idxlen := 0 }
  if s.levels.toNat < Config.levelsMin ∨ Config.levelsMax < s.levels.toNat then .next (s.raise .quant .levels)
  else if s.cap < s.size then .next (s.raise .quant .capacity)
  else if s.pixlen.toNat ≠ s.size then .next (s.raise .quant .length)
  else .next { s with i := 0, st := .quantRun }

/-- The QUANT step (R84). At the end `IDXLEN` is written, and elements beyond it are unspecified (R37; log 4). -/
def quantStep (s : State) : State :=
  if s.i.toNat = s.size then (s.setIdxlen (BitVec.ofNat 32 s.size)).finish
  else
    let v := quantSample (s.pix.read s.i.toNat) s.levels.toNat (s.invert == 1)
    { s.writeIdx s.i.toNat v with i := s.i + 1 }

/-- QUANT (R75, R83, R88). -/
def execQuant (s : State) : Result :=
  issue quantStart s

end Sys2Proof.Machine
end

