-- ==== Sys2Proof/Machine/Dispatch.lean ====
section
/-! DEFINITION. One arm per instruction (spec/44_control.md R141). -/

namespace Sys2Proof.Machine

def exec (i : Instr) (s : State) : Host.Outcome State Fault Refusal :=
  match i with
  | .clr => Sys2Proof.Machine.execClr s
  | .quant => Sys2Proof.Machine.execQuant s
  | .enc => Sys2Proof.Machine.execEnc s
  | .dec => Sys2Proof.Machine.execDec s
  | .count => Sys2Proof.Machine.execCount s
  | .bbox => Sys2Proof.Machine.execBbox s
  | .irect => Sys2Proof.Machine.execIrect s
  | .reserved07 => Sys2Proof.Machine.execReserved07 s
  | .reserved08 low => Sys2Proof.Machine.execReserved08 low s
  | .reserved10 low => Sys2Proof.Machine.execReserved10 low s
  | .reserved20 low => Sys2Proof.Machine.execReserved20 low s
  | .reserved40 low => Sys2Proof.Machine.execReserved40 low s
  | .reserved80 low => Sys2Proof.Machine.execReserved80 low s
  | .runByte run value => Sys2Proof.Machine.execRunByte run value s

end Sys2Proof.Machine
end

