-- ==== Sys2Proof/Machine/Schedule.lean ====
section
/-! DEFINITION. The two agents (spec/00_scope.md R11): what the host does in a step, what the sequencer does in a step, and
where each fetches the byte it runs. -/

namespace Sys2Proof.Machine

/-- The byte a `CMD` write carries: `b = v mod 256` (spec/44_control.md R140). -/
def commandByte (v : Nat) : Byte :=
  BitVec.ofNat 8 v

/-- A `CMD` write: the byte is decoded in the same step (R140, spec/20_memory.md R57). -/
def issueByte (v : Nat) (s : State) : Result :=
  exec (decodeCommand (commandByte v)) s

/-- The run byte the DEC step reads: `ART[k]` (spec/42_rle_decoder.md R114). -/
def State.fetchRunByte (s : State) : Byte :=
  s.art.read s.k.toNat

/-- The DEC step (R114): it reads a byte only when there is one to read and room for it. -/
def decStep (s : State) : Result :=
  if s.decAtEnd then .next s.decEnd else exec (decodeRunByte s.fetchRunByte) s

/-- One step of the sequencer; in `IDLE` it rests (spec/60_exceptions.md R165). -/
def sequencerStep (s : State) : Result :=
  match s.st with
  | .idle => .next s
  | .quantRun => .next (quantStep s)
  | .encRun => .next (encStep s)
  | .countRun => .next (countStep s)
  | .decRun => decStep s

/-- A host read returns a value and leaves the block as it is (spec/20_memory.md R52). -/
def State.answer (s : State) (r : Reply) : State :=
  { s with reply := some r }

/-- A host action while `BUSY = 1` (spec/10_state.md R29): writes are ignored; a read of `STATUS` is exact and any other read
draws a free value. -/
def busyHostStep (a : HostAction) (s : State) : Result :=
  match a with
  | .regWrite _ _ => .next s
  | .angleWrite _ => .next s
  | .bufWrite _ _ _ => .next s
  | .regRead n => .next { s.answer (s.readRegBusy n) with draws := s.draws + 1 }
  | .bufRead b _ => .next { s.answer (s.readBufBusy b) with draws := s.draws + 1 }
  | .wait => sequencerStep { s.answer (s.readReg 15) with script := .wait :: s.script }
  | .pass => sequencerStep s
  | .reset => .next s.resetEvent

/-- A host action while `BUSY = 0` (R13, R42, R140, R170). -/
def idleHostStep (a : HostAction) (s : State) : Result :=
  match a with
  | .regWrite n v => if n = 14 then issueByte v s else .next (s.writeReg n v)
  | .angleWrite v => .next { s with angle := v }
  | .bufWrite b i v => .next (s.writeBuf b i v)
  | .regRead n => .next (s.answer (s.readReg n))
  | .bufRead b i => .next (s.answer (s.readBuf b i))
  | .wait => .next (s.answer (s.readReg 15))
  | .pass => .next s
  | .reset => .next s.resetEvent

/-- A host action. -/
def hostStep (a : HostAction) (s : State) : Result :=
  if s.busy then busyHostStep a s else idleHostStep a s

/-- One step of the machine: the host's next action if it has one, else the sequencer's step (log 7). -/
def machineStep (s : State) : Result :=
  match s.script with
  | [] => sequencerStep s
  | a :: rest => hostStep a { s with script := rest }

/-! ### Pseudo-instructions of the host's notation (spec/30_encoding.md R72) -/

/-- `PUT b[j], v` for the values in order, from element `j`. -/
def putAll (b : Buf) : Nat → List Nat → List HostAction
  | _, [] => []
  | j, v :: rest => .bufWrite b j v :: putAll b (j + 1) rest

/-- `LOADPIX`, on pixel words. -/
def loadPix (vs : List Nat) : List HostAction :=
  putAll .pix 0 vs ++ [.regWrite 6 vs.length]

/-- `LOADIDX`. -/
def loadIdx (vs : List Nat) : List HostAction :=
  putAll .idx 0 vs ++ [.regWrite 7 vs.length]

/-- `LOADART`. -/
def loadArt (vs : List Nat) : List HostAction :=
  putAll .art 0 vs ++ [.regWrite 8 vs.length]

/-- `DIM w, h`. -/
def dim (w h : Nat) : List HostAction :=
  [.regWrite 0 w, .regWrite 1 h]

/-- A command mnemonic: `RegWrite(14, byte)` (R71). -/
def command (i : Instr) : HostAction :=
  .regWrite 14 (encodeInstr i).toNat

/-- `RUN <mnemonic>`. -/
def runCommand (i : Instr) : List HostAction :=
  [command i, .wait]

end Sys2Proof.Machine
end

