-- ==== Sys2Proof/Machine/Step.lean ====
section
/-! DEFINITION. The step of the machine, and the state in which the next step runs a given table word. -/

namespace Sys2Proof.Machine

/-- One step of the host or of the sequencer. -/
def step (s : State) : Host.Outcome State Fault Refusal :=
  machineStep s

/-- `s` with the table word `w` about to be written to `CMD` while `BUSY = 0`: the block fetches no instruction, a command
reaches it as a host write (spec/20_memory.md R57; log 8). -/
def State.withFetchWord (s : State) (nbits w : Nat) : State :=
  { s with st := .idle, script := .regWrite 14 (w % 2 ^ nbits) :: s.script }

end Sys2Proof.Machine
end

