-- ==== Sys2Proof/Safety.lean ====
section
/-! DEFINITION. What counts as a safe state and a safe run of the block, in the terms the statements use: the invariant that
every step keeps, and the frames. -/

namespace Sys2Proof.Machine

/-! ### Flags -/

/-- The values `ERRCODE` takes (spec/30_encoding.md R66). -/
def legalErrcodes : List Byte :=
  [0x00, 0x11, 0x21, 0x12, 0x22, 0x32, 0x13, 0x23, 0x33, 0x14]

/-- The codes of MalformedStream (spec/60_exceptions.md R150). -/
def streamErrcodes : List Byte :=
  [0x13, 0x23, 0x33]

/-- The flags and error registers agree with each other (spec/10_state.md R25, R27, R28). -/
abbrev State.flagsOk (s : State) : Prop :=
  (s.err = true → s.done = true)
    ∧ (s.busy = true → s.done = false)
    ∧ (s.errcode = 0 ↔ s.err = false)
    ∧ s.errcode ∈ legalErrcodes
    ∧ (s.errcode ∉ streamErrcodes → s.errExpect = 0 ∧ s.errActual = 0)
    ∧ s.errActual.toNat ≤ s.errExpect.toNat

/-! ### Memories -/

/-- No listed element stands at or beyond the capacity. -/
abbrev Memory.below {w : Nat} (m : Memory w) (cap : Nat) : Prop :=
  ∀ c ∈ m.cells, c.1 < cap

/-- The three memories are in canonical form and hold `CAP` elements (spec/20_memory.md R40, R46). -/
abbrev State.memoriesOk (s : State) : Prop :=
  s.pix.wf = true ∧ s.idx.wf = true ∧ s.art.wf = true
    ∧ s.pix.below s.cap ∧ s.idx.below s.cap ∧ s.art.below s.cap

/-! ### A running operation -/

/-- QUANT runs: its start checks hold and the index is in range (spec/40_quantizer.md R83, R84). -/
abbrev State.quantOk (s : State) : Prop :=
  Config.levelsMin ≤ s.levels.toNat ∧ s.levels.toNat ≤ Config.levelsMax ∧ s.size ≤ s.cap
    ∧ s.pixlen.toNat = s.size ∧ s.idxlen = 0 ∧ s.i.toNat ≤ s.size

/-- The scan cursors: inside the open chunk while a sample is left, whose end is that of a chunk of R91; at column 0 otherwise
(spec/41_rle_encoder.md R96, spec/42_rle_decoder.md R115). -/
abbrev State.cursorsOk (s : State) : Prop :=
  s.y.toNat ≤ s.h.toNat
    ∧ (s.w ≠ 0 → s.y.toNat < s.h.toNat →
        s.x.toNat < s.cend.toNat ∧ s.cend.toNat ≤ s.w.toNat
          ∧ s.cend.toNat = min ((s.x.toNat / s.tilew.toNat + 1) * s.tilew.toNat) s.w.toNat)
    ∧ (s.w = 0 ∨ s.y.toNat = s.h.toNat → s.x = 0)

/-- ENC or COUNT runs: its start checks hold, and the open run is what R96 says it is. -/
abbrev State.scanOk (s : State) : Prop :=
  s.tilew ≠ 0 ∧ s.size ≤ s.cap ∧ s.idxlen.toNat = s.size ∧ s.cursorsOk
    ∧ s.rl.toNat ≤ 15 ∧ s.rl.toNat ≤ s.x.toNat % s.tilew.toNat
    ∧ (∀ j, j < s.rl.toNat → s.idx.read (s.position - 1 - j) = s.idx.read s.position)
    ∧ s.k.toNat + s.rl.toNat ≤ s.position

/-- DEC runs: its start checks hold, and R115. -/
abbrev State.decOk (s : State) : Prop :=
  s.tilew ≠ 0 ∧ s.size ≤ s.cap ∧ s.alen.toNat ≤ s.cap ∧ s.idxlen = 0 ∧ s.cursorsOk
    ∧ s.n.toNat = s.position ∧ s.n.toNat ≤ s.size ∧ s.k.toNat ≤ s.alen.toNat ∧ s.k.toNat ≤ s.n.toNat

/-- The invariant of the block. -/
abbrev State.Inv (s : State) : Prop :=
  1 ≤ s.cap ∧ s.flagsOk ∧ s.memoriesOk
    ∧ (s.st = .quantRun → s.quantOk)
    ∧ (s.st = .encRun → s.scanOk ∧ s.alen = 0)
    ∧ (s.st = .countRun → s.scanOk ∧ s.rcount = 0)
    ∧ (s.st = .decRun → s.decOk)

/-! ### Frames -/

/-- Every element of the three memories reads as before. -/
abbrev sameMemory (s t : State) : Prop :=
  (∀ a, t.pix.read a = s.pix.read a) ∧ (∀ a, t.idx.read a = s.idx.read a) ∧ (∀ a, t.art.read a = s.art.read a)

/-- The registers that the host writes and no command does (spec/10_state.md R13): `W`, `H`, `TILEW`, `LEVELS`, `INVERT`,
`ANGLE` and `PIXLEN`; with them the parameter `CAP` (R39). -/
abbrev sameOperands (s t : State) : Prop :=
  t.w = s.w ∧ t.h = s.h ∧ t.tilew = s.tilew ∧ t.levels = s.levels ∧ t.invert = s.invert ∧ t.angle = s.angle
    ∧ t.pixlen = s.pixlen ∧ t.cap = s.cap

/-- `s` with `DONE`, `ERR` and the error registers 0 (spec/44_control.md R142), every other field as in `s`. -/
abbrev statusCleared (s : State) : State :=
  { s with done := false, err := false, errcode := 0, errExpect := 0, errActual := 0 }

/-- `s` as a command that fails with `code` and reports no counts leaves the status registers (spec/60_exceptions.md R158),
every other field as in `s`. -/
abbrev failedWith (s : State) (code : Byte) : State :=
  { s with done := true, err := true, errcode := code, errExpect := 0, errActual := 0, st := .idle }

/-- `t` is `u` but for the cursors, which the spec leaves open while the block is idle (spec/10_state.md R31, U3; what the model
does with them is log 6). -/
abbrev sameButCursors (t u : State) : Prop :=
  t = { u with y := t.y, x := t.x, cend := t.cend, rl := t.rl, k := t.k, n := t.n, i := t.i }

/-- Where the cursors `y`, `x`, `cend` stand after `r` more columns of the open chunk (spec/41_rle_encoder.md R97): still in
the chunk, at the start of the next chunk of the row, or at the start of the next row. -/
abbrev cursorsMoved (r : Nat) (s t : State) : Prop :=
  (s.x.toNat + r ≠ s.cend.toNat → t.y = s.y ∧ t.x.toNat = s.x.toNat + r ∧ t.cend = s.cend)
    ∧ (s.x.toNat + r = s.cend.toNat → s.x.toNat + r ≠ s.w.toNat →
        t.y = s.y ∧ t.x.toNat = s.x.toNat + r
          ∧ t.cend.toNat = min (s.x.toNat + r + s.tilew.toNat) s.w.toNat)
    ∧ (s.x.toNat + r = s.cend.toNat → s.x.toNat + r = s.w.toNat →
        t.y.toNat = s.y.toNat + 1 ∧ t.x = 0 ∧ t.cend.toNat = min s.tilew.toNat s.w.toNat)

/-- "the run ends" at the sample at the cursors (R96): the chunk ends, the run reaches 16, or the next value differs. -/
abbrev sampleEndsRun (s : State) : Prop :=
  s.x.toNat + 1 = s.cend.toNat ∨ s.rl.toNat + 1 = 16 ∨ s.idx.read (s.position + 1) ≠ s.idx.read s.position

/-! ### Geometry -/

/-- `s*s + c*c = 1` (spec/43_geometry.md R126): what the reference `Trig` satisfies at every real number. -/
def trigUnit (p : TrigParameter) (a : Angle) : Prop :=
  sinOf p a * sinOf p a + cosOf p a * cosOf p a = 1

/-! ### Runs -/

/-- `count` steps of the machine, for runs that stop nowhere. -/
def runSteps : Nat → State → Host.Outcome State Fault Refusal
  | 0, s => .next s
  | count + 1, s =>
    match step s with
    | .next t => runSteps count t
    | .fault r => .fault r
    | .refused r => .refused r

/-- The machine reaches `t` from `s` in `count` steps. -/
def Reaches (count : Nat) (s t : State) : Prop :=
  runSteps count s = .next t

end Sys2Proof.Machine
end

