-- ==== Sys2Proof/Certificates/Slice0/Obligations.lean ====
section
/-! DEFINITION. The statements for the provers, in the order of the layers: encoding, the step, the start of each command, the
sequencer's steps, whole operations, invariants and whole-machine rules, the host's accesses, the quantizer, the geometry. -/

open Sys2Proof Sys2Proof.Machine

/-! ### Encoding -/

/-- Decoding the bytes of a well-formed instruction gives the instruction back and leaves the bytes after it (R62, R67, R68). -/
def Obligations.DecodeOfEncodeIsTheInstruction : Prop :=
  ∀ (i : Instr) (rest : List Byte), i.wellFormed = true → decode i.format (encode i ++ rest) = .ok (i, rest)

/-- Every byte is an instruction in either format, and encoding what it decodes to gives the byte back (R69, R73). -/
def Obligations.EncodeOfDecodeIsTheByte : Prop :=
  ∀ (f : Format) (b : Byte),
    (decodeByte f b).wellFormed = true ∧ (decodeByte f b).format = f ∧ encode (decodeByte f b) = [b]

/-- R62: the run byte, its two examples, and the bijection. -/
def Obligations.RunByteEncodingIsBijective : Prop :=
  (∀ (r : Nat) (v : Nibble), 1 ≤ r → r ≤ 16 → (runByteOf r v).toNat = (r - 1) * 16 + v.toNat)
    ∧ runByteOf 2 0 = 0x10 ∧ runByteOf 2 15 = 0x1F
    ∧ (∀ (r r' : Nat) (v v' : Nibble), 1 ≤ r → r ≤ 16 → 1 ≤ r' → r' ≤ 16 →
        runByteOf r v = runByteOf r' v' → r = r' ∧ v = v')
    ∧ ∀ b : Byte, ∃ (r : Nat) (v : Nibble), 1 ≤ r ∧ r ≤ 16 ∧ runByteOf r v = b

/-- R61: the fields of a run byte. -/
def Obligations.RunByteFieldsOfEveryByte : Prop :=
  ∀ b : Byte, ∃ (r : Nat) (v : Nibble),
    decodeRunByte b = .runByte r v ∧ r = b.toNat / 16 + 1 ∧ v.toNat = b.toNat % 16 ∧ 1 ≤ r ∧ r ≤ 16

/-- A few words written out from R63, R67, R68 and R60. -/
def Obligations.SampleWordsDecodeToTheirRows : Prop :=
  decodeCommand 0b00000_000 = .clr ∧ decodeCommand 0b00000_001 = .quant ∧ decodeCommand 0b00000_010 = .enc
    ∧ decodeCommand 0b00000_011 = .dec ∧ decodeCommand 0b00000_100 = .count ∧ decodeCommand 0b00000_101 = .bbox
    ∧ decodeCommand 0b00000_110 = .irect ∧ decodeCommand 0b00000_111 = .reserved07
    ∧ decodeCommand 0b00001_001 = .reserved08 1 ∧ decodeCommand 0b00101_010 = .reserved20 0b01010
    ∧ decodeCommand 0b11111_111 = .reserved80 0b1111111 ∧ decodeRunByte 0b0001_1111 = .runByte 2 15

/-! ### The step -/

/-- A `CMD` write made while the block is idle runs the instruction its byte decodes to. -/
def Obligations.CmdWriteRunsTheDecodedCommand : Prop :=
  ∀ (s : State) (v : Nat) (rest : List HostAction) (i : Instr),
    s.st = .idle → s.script = .regWrite 14 v :: rest → decode .command [BitVec.ofNat 8 v] = .ok (i, []) →
    step s = exec i { s with script := rest }

/-- While DEC runs and a byte is left to read, the sequencer's step runs the instruction that the byte at `ART[k]` decodes to. -/
def Obligations.DecStepRunsTheFetchedRunByte : Prop :=
  ∀ (s : State) (i : Instr),
    s.st = .decRun → s.script = [] → s.n.toNat ≠ s.size → s.k ≠ s.alen →
    decode .runByte [s.art.read s.k.toNat] = .ok (i, []) → step s = exec i s

/-! ### Starting a command -/

/-- CLR clears the status and error registers, completes in the issuing step and changes nothing else (R143); of the
cursors, open while idle, `CursorsKeepTheirValuesInIdle` speaks. -/
def Obligations.ClrClearsStatusAndNothingElse : Prop :=
  ∀ s : State, s.st = .idle → ∃ t, exec .clr s = .next t ∧ sameButCursors t (statusCleared s) ∧ t.status = 0 ∧ sameMemory s t

/-- Every reserved command byte ends at once with IllegalCommand and changes nothing else (R144). -/
def Obligations.ReservedBytesRaiseIllegalCommand : Prop :=
  ∀ (s : State) (i : Instr), s.st = .idle →
    (i = .reserved07 ∨ (∃ l, i = .reserved08 l) ∨ (∃ l, i = .reserved10 l) ∨ (∃ l, i = .reserved20 l)
      ∨ (∃ l, i = .reserved40 l) ∨ ∃ l, i = .reserved80 l) →
    ∃ t, exec i s = .next t ∧ sameButCursors t (failedWith s 0x14) ∧ t.status = 6 ∧ sameMemory s t

/-- What a command does while the block is idle does not depend on the status and error registers it finds: every command byte,
legal or reserved, first clears them (R142). -/
def Obligations.CommandsDoNotSeeTheOldStatus : Prop :=
  ∀ (i : Instr) (s : State), i.isRunByte = false → s.st = .idle → exec i s = exec i (statusCleared s)

/-- THE MODEL'S CHOICE, log 18 (DEDUCED from R145): the busy test stands in the meaning of each command, so that `exec` of a
command in a busy state changes nothing. No step runs a command there: a `CMD` write made while busy is dropped before it is
decoded, which is what R145 says and `BusyHostAccess` states. -/
def Obligations.CommandsAreIgnoredWhileBusy : Prop :=
  ∀ (i : Instr) (s : State), i.isRunByte = false → s.st ≠ .idle → exec i s = .next s

/-- QUANT starts when its three checks hold (R83). -/
def Obligations.QuantStartsWhenItsChecksHold : Prop :=
  ∀ s : State, s.st = .idle → 2 ≤ s.levels.toNat → s.levels.toNat ≤ 16 → s.size ≤ s.cap → s.pixlen.toNat = s.size →
    ∃ t, exec .quant s = .next t ∧ t = { statusCleared s with idxlen := 0, i := 0, st := .quantRun } ∧ sameMemory s t

/-- ENC and COUNT start when their three checks hold (R94, R95, R103). -/
def Obligations.EncAndCountStartWhenTheirChecksHold : Prop :=
  ∀ s : State, s.st = .idle → s.tilew ≠ 0 → s.size ≤ s.cap → s.idxlen.toNat = s.size →
    (∃ t, exec .enc s = .next t
      ∧ t = { statusCleared s with alen := 0, y := 0, x := 0, cend := t.cend, rl := 0, k := 0, st := .encRun }
      ∧ t.cend.toNat = min s.tilew.toNat s.w.toNat ∧ sameMemory s t)
    ∧ ∃ t, exec .count s = .next t
      ∧ t = { statusCleared s with rcount := 0, y := 0, x := 0, cend := t.cend, rl := 0, k := 0, st := .countRun }
      ∧ t.cend.toNat = min s.tilew.toNat s.w.toNat ∧ sameMemory s t

/-- What QUANT, ENC, COUNT and DEC reject at their start, and in which order they check (R83, R94, R103, R113, R157). The
destination's length register is 0 and its elements are unspecified (R37, R180); that they are fresh free values is how the model
writes unspecified elements (logs 3 and 4). The other buffers are as before. -/
def Obligations.StartRejectionsAndTheirPriority : Prop :=
  ∀ s : State, s.st = .idle → ∀ code : Byte,
    ((s.levels.toNat < 2 ∨ 16 < s.levels.toNat) ∧ code = 0x11
        ∨ (2 ≤ s.levels.toNat ∧ s.levels.toNat ≤ 16) ∧ s.cap < s.size ∧ code = 0x22
        ∨ (2 ≤ s.levels.toNat ∧ s.levels.toNat ≤ 16) ∧ s.size ≤ s.cap ∧ s.pixlen.toNat ≠ s.size ∧ code = 0x12 →
      ∃ t, exec .quant s = .next t ∧ sameButCursors t { failedWith s code with idxlen := 0, idx := t.idx }
        ∧ (∀ a, t.pix.read a = s.pix.read a) ∧ (∀ a, t.art.read a = s.art.read a)
        ∧ ∀ a, t.idx.read a = Config.unspecified 4 (s.idx.draw a + 1) a)
    ∧ (s.tilew = 0 ∧ code = 0x21
        ∨ s.tilew ≠ 0 ∧ s.cap < s.size ∧ code = 0x22
        ∨ s.tilew ≠ 0 ∧ s.size ≤ s.cap ∧ s.idxlen.toNat ≠ s.size ∧ code = 0x12 →
      (∃ t, exec .enc s = .next t ∧ sameButCursors t { failedWith s code with alen := 0, art := t.art }
        ∧ (∀ a, t.pix.read a = s.pix.read a) ∧ (∀ a, t.idx.read a = s.idx.read a)
        ∧ ∀ a, t.art.read a = Config.unspecified 8 (s.art.draw a + 1) a)
      ∧ ∃ t, exec .count s = .next t ∧ sameButCursors t { failedWith s code with rcount := 0 } ∧ sameMemory s t)
    ∧ (s.tilew = 0 ∧ code = 0x21 ∨ s.tilew ≠ 0 ∧ (s.cap < s.size ∨ s.cap < s.alen.toNat) ∧ code = 0x22 →
      ∃ t, exec .dec s = .next t ∧ sameButCursors t { failedWith s code with idxlen := 0, idx := t.idx }
        ∧ (∀ a, t.pix.read a = s.pix.read a) ∧ (∀ a, t.art.read a = s.art.read a)
        ∧ ∀ a, t.idx.read a = Config.unspecified 4 (s.idx.draw a + 1) a)

/-- DEC starts when its two checks hold (R113, R95). -/
def Obligations.DecStartsWhenItsChecksHold : Prop :=
  ∀ s : State, s.st = .idle → s.tilew ≠ 0 → s.size ≤ s.cap → s.alen.toNat ≤ s.cap →
    ∃ t, exec .dec s = .next t
      ∧ t = { statusCleared s with
          idxlen := 0, y := 0, x := 0, cend := t.cend, rl := 0, k := 0, n := 0, st := .decRun }
      ∧ t.cend.toNat = min s.tilew.toNat s.w.toNat ∧ sameMemory s t

/-- BBOX and IRECT complete in the issuing step for every angle whose `Trig` is on the unit circle: no divisor is zero, and the
results fit (R129, R135, R136). `TrigIsTheExactSineAndCosine` says that the reference `Trig` is there at every real number. -/
def Obligations.GeometryCompletesOnUnitTrig : Prop :=
  ∀ s : State, s.st = .idle → s.w ≠ 0 → s.h ≠ 0 → trigUnit Config.trig s.angle →
    (∃ t, exec .bbox s = .next t
      ∧ sameButCursors t { statusCleared s with done := true, bw := t.bw, bh := t.bh }
      ∧ (t.bw.toNat, t.bh.toNat) = (trigOf Config.trig s.angle).bbox s.w.toNat s.h.toNat ∧ sameMemory s t)
    ∧ ∃ t, exec .irect s = .next t
      ∧ sameButCursors t { statusCleared s with done := true, iw := t.iw, ih := t.ih }
      ∧ some (t.iw.toNat, t.ih.toNat) = (trigOf Config.trig s.angle).irect s.w.toNat s.h.toNat ∧ sameMemory s t

/-- BBOX and IRECT reject a zero dimension, whatever the angle (R129, R135, R154). -/
def Obligations.GeometryRejectsZeroDimensions : Prop :=
  ∀ s : State, s.st = .idle → s.w = 0 ∨ s.h = 0 →
    (∃ t, exec .bbox s = .next t ∧ sameButCursors t { failedWith s 0x32 with bw := 0, bh := 0 } ∧ sameMemory s t)
    ∧ ∃ t, exec .irect s = .next t ∧ sameButCursors t { failedWith s 0x32 with iw := 0, ih := 0 } ∧ sameMemory s t

/-- For every pair that `Trig` can answer, on the unit circle or not, BBOX and IRECT stop exactly where U4 puts them outside the
spec, with the one fault named, and complete everywhere else (R129, R135, R136): BBOX stops when a result does not fit 32 bits;
IRECT stops when a taken thin branch divides by zero, or when a result does not fit 32 bits. -/
def Obligations.GeometryFaultsExactlyOnUFour : Prop :=
  ∀ s : State, s.st = .idle → s.w ≠ 0 → s.h ≠ 0 →
    let si := sinOf Config.trig s.angle
    let co := cosOf Config.trig s.angle
    let box := bboxReal s.w.toNat s.h.toNat si co
    ((box.1 < 2 ^ 32 ∧ box.2 < 2 ^ 32 →
        ∃ t, exec .bbox s = .next t
          ∧ sameButCursors t { statusCleared s with done := true, bw := t.bw, bh := t.bh }
          ∧ (t.bw.toNat, t.bh.toNat) = box ∧ sameMemory s t)
      ∧ (2 ^ 32 ≤ box.1 ∨ 2 ^ 32 ≤ box.2 → exec .bbox s = .fault .resultTooWide))
    ∧ (ThinReal s.w.toNat s.h.toNat si co ∧ (si = 0 ∨ co = 0) → exec .irect s = .fault .divisorZero)
    ∧ (¬ (ThinReal s.w.toNat s.h.toNat si co ∧ (si = 0 ∨ co = 0)) →
      ∃ rect, irectReal s.w.toNat s.h.toNat si co = some rect
        ∧ (rect.1 < 2 ^ 32 ∧ rect.2 < 2 ^ 32 →
          ∃ t, exec .irect s = .next t
            ∧ sameButCursors t { statusCleared s with done := true, iw := t.iw, ih := t.ih }
            ∧ (t.iw.toNat, t.ih.toNat) = rect ∧ sameMemory s t)
        ∧ (2 ^ 32 ≤ rect.1 ∨ 2 ^ 32 ≤ rect.2 → exec .irect s = .fault .resultTooWide))

/-! ### The sequencer's steps -/

/-- The QUANT step (R84): one sample, or the end. -/
def Obligations.QuantStepHandlesOneSample : Prop :=
  ∀ s : State, s.Inv → s.st = .quantRun → s.script = [] →
    (s.i.toNat = s.size →
      ∃ t, step s = .next t
        ∧ sameButCursors t { s with idxlen := t.idxlen, idx := t.idx, done := true, st := .idle }
        ∧ t.idxlen.toNat = s.size
        ∧ ∀ a, a < s.size → t.idx.read a = s.idx.read a)
    ∧ (s.i.toNat ≠ s.size →
      ∃ t, step s = .next t
        ∧ t = { s with idx := t.idx, i := t.i } ∧ t.i.toNat = s.i.toNat + 1
        ∧ t.idx.read s.i.toNat = quantSample (s.pix.read s.i.toNat) s.levels.toNat (s.invert == 1)
        ∧ ∀ a, a ≠ s.i.toNat → t.idx.read a = s.idx.read a)

/-- The step of ENC and of COUNT with a sample left (R96, R97, R103): one sample consumed, and at the end of a run one byte
emitted by ENC and one run counted by COUNT, which writes no memory. -/
def Obligations.ScanStepConsumesOneSample : Prop :=
  ∀ s : State, s.Inv → s.script = [] → s.w ≠ 0 → s.y.toNat ≠ s.h.toNat →
    (s.st = .encRun →
      ∃ t, step s = .next t
        ∧ t = { s with art := t.art, k := t.k, rl := t.rl, x := t.x, y := t.y, cend := t.cend }
        ∧ (sampleEndsRun s →
            t.art.read s.k.toNat = runByteOf (s.rl.toNat + 1) (s.idx.read s.position)
              ∧ (∀ a, a ≠ s.k.toNat → t.art.read a = s.art.read a) ∧ t.k.toNat = s.k.toNat + 1 ∧ t.rl = 0)
        ∧ (¬ sampleEndsRun s → t.art = s.art ∧ t.k = s.k ∧ t.rl.toNat = s.rl.toNat + 1)
        ∧ cursorsMoved 1 s t)
    ∧ (s.st = .countRun →
      ∃ t, step s = .next t
        ∧ t = { s with k := t.k, rl := t.rl, x := t.x, y := t.y, cend := t.cend }
        ∧ (sampleEndsRun s → t.k.toNat = s.k.toNat + 1 ∧ t.rl = 0)
        ∧ (¬ sampleEndsRun s → t.k = s.k ∧ t.rl.toNat = s.rl.toNat + 1)
        ∧ cursorsMoved 1 s t)

/-- The last step of ENC and of COUNT (R96, R98, R103). -/
def Obligations.ScanEndReportsTheCount : Prop :=
  ∀ s : State, s.script = [] → s.w = 0 ∨ s.y.toNat = s.h.toNat →
    (s.st = .encRun →
      ∃ t, step s = .next t ∧ sameButCursors t { s with alen := s.k, art := t.art, done := true, st := .idle }
        ∧ ∀ a, a < s.k.toNat → t.art.read a = s.art.read a)
    ∧ (s.st = .countRun →
      ∃ t, step s = .next t ∧ sameButCursors t { s with rcount := s.k, done := true, st := .idle })

/-- RUNBYTE while DEC runs and the run fits the open chunk (R114): its samples are placed, nothing else of `IDX` changes, and
the cursors move as R97 says. -/
def Obligations.RunByteExpandsARunThatFits : Prop :=
  ∀ (s : State) (r : Nat) (v : Nibble), s.Inv → s.st = .decRun → s.n.toNat ≠ s.size → s.k ≠ s.alen →
    1 ≤ r → r ≤ 16 → s.x.toNat + r ≤ s.cend.toNat →
    ∃ t, exec (.runByte r v) s = .next t
      ∧ t = { s with idx := t.idx, x := t.x, y := t.y, cend := t.cend, n := t.n, k := t.k }
      ∧ (∀ a, s.y.toNat * s.w.toNat + s.x.toNat ≤ a → a < s.y.toNat * s.w.toNat + s.x.toNat + r → t.idx.read a = v)
      ∧ (∀ a, a < s.y.toNat * s.w.toNat + s.x.toNat ∨ s.y.toNat * s.w.toNat + s.x.toNat + r ≤ a →
          t.idx.read a = s.idx.read a)
      ∧ t.n.toNat = s.n.toNat + r ∧ t.k.toNat = s.k.toNat + 1 ∧ cursorsMoved r s t

/-- RUNBYTE while DEC runs and the run does not fit the open chunk (R114, R117): overrun, and no sample is placed. The elements
of `IDX` become unspecified (the model's choice of which, log 14). -/
def Obligations.RunByteOverrunFailsTheDecode : Prop :=
  ∀ (s : State) (r : Nat) (v : Nibble), s.st = .decRun → s.n.toNat ≠ s.size → s.k ≠ s.alen →
    s.cend.toNat < s.x.toNat + r →
    ∃ t, exec (.runByte r v) s = .next t
      ∧ sameButCursors t { failedWith s 0x23 with
          errExpect := BitVec.ofNat 32 s.size, errActual := s.n, idxlen := 0, idx := t.idx }
      ∧ t.errExpect.toNat = s.size ∧ ∀ a, t.idx.read a = Config.unspecified 4 (s.idx.draw a + 1) a

/-- The DEC step that reads no byte (R114, R117): success, excess, exhausted. The elements of `IDX` become unspecified in a
failure (the model's choice of which, log 14). -/
def Obligations.DecEndTests : Prop :=
  ∀ s : State, s.st = .decRun → s.script = [] →
    (s.n.toNat = s.size → s.k = s.alen →
      ∃ t, step s = .next t ∧ sameButCursors t { s with idxlen := t.idxlen, idx := t.idx, done := true, st := .idle }
        ∧ t.idxlen.toNat = s.size
        ∧ ∀ a, a < s.size → t.idx.read a = s.idx.read a)
    ∧ (∀ code : Byte,
        s.n.toNat = s.size ∧ s.k ≠ s.alen ∧ code = 0x33 ∨ s.n.toNat ≠ s.size ∧ s.k = s.alen ∧ code = 0x13 →
      ∃ t, step s = .next t
        ∧ sameButCursors t { failedWith s code with
            errExpect := BitVec.ofNat 32 s.size, errActual := s.n, idxlen := 0, idx := t.idx }
        ∧ t.errExpect.toNat = s.size ∧ ∀ a, t.idx.read a = Config.unspecified 4 (s.idx.draw a + 1) a)

/-- A run byte met while DEC does not run is data: nothing happens (the model's choice, log 9). -/
def Obligations.RunByteIsDataOutsideDec : Prop :=
  ∀ (s : State) (r : Nat) (v : Nibble), s.st ≠ .decRun → exec (.runByte r v) s = .next s

/-! ### Whole operations -/

/-- QUANT computes `quant_sample` of every sample, in exactly `W*H + 1` sequencer steps (R75, R84). -/
def Obligations.QuantComputesQuantSample : Prop :=
  ∀ s : State, s.st = .idle → s.script = [] → 2 ≤ s.levels.toNat → s.levels.toNat ≤ 16 → s.size ≤ s.cap →
    s.pixlen.toNat = s.size →
    ∃ t0 t, exec .quant s = .next t0
      ∧ (∀ j, j ≤ s.size → ∃ u, Reaches j t0 u ∧ u.st = .quantRun) ∧ Reaches (s.size + 1) t0 t
      ∧ sameButCursors t { statusCleared s with done := true, idxlen := t.idxlen, idx := t.idx }
      ∧ t.idxlen.toNat = s.size
      ∧ ∀ a, a < s.size → t.idx.read a = quantSample (s.pix.read a) s.levels.toNat (s.invert == 1)

/-- R99: started with the checks passed, ENC ends after exactly `W*H + 1` steps with the artifact `encode` computes. -/
def Obligations.EncStepsComputeEncode : Prop :=
  ∀ s : State, s.st = .idle → s.script = [] → s.tilew ≠ 0 → s.size ≤ s.cap → s.idxlen.toNat = s.size →
    ∃ t0 t, exec .enc s = .next t0
      ∧ (∀ j, j ≤ s.size → ∃ u, Reaches j t0 u ∧ u.st = .encRun) ∧ Reaches (s.size + 1) t0 t
      ∧ sameButCursors t { statusCleared s with done := true, alen := t.alen, art := t.art }
      ∧ t.artList = encodeBuffer s.idxList s.w.toNat s.h.toNat s.tilew.toNat
      ∧ t.alen.toNat = (encodeBuffer s.idxList s.w.toNat s.h.toNat s.tilew.toNat).length

/-- COUNT ends after exactly `W*H + 1` steps with the encoder's run count in `RCOUNT`, and writes no memory (R101 to R103). -/
def Obligations.CountStepsComputeCountRuns : Prop :=
  ∀ s : State, s.st = .idle → s.script = [] → s.tilew ≠ 0 → s.size ≤ s.cap → s.idxlen.toNat = s.size →
    ∃ t0 t, exec .count s = .next t0
      ∧ (∀ j, j ≤ s.size → ∃ u, Reaches j t0 u ∧ u.st = .countRun) ∧ Reaches (s.size + 1) t0 t
      ∧ sameButCursors t { statusCleared s with done := true, rcount := t.rcount }
      ∧ t.rcount.toNat = (encodeBuffer s.idxList s.w.toNat s.h.toNat s.tilew.toNat).length

/-- R104: on the same inputs COUNT and ENC fail with the same `ERRCODE`, or both succeed with `RCOUNT = ALEN`. -/
def Obligations.CountAgreesWithEnc : Prop :=
  ∀ s : State, s.st = .idle → s.script = [] →
    ∃ e0 c0, exec .enc s = .next e0 ∧ exec .count s = .next c0
      ∧ ((e0.err = true ∧ c0.err = true ∧ e0.errcode = c0.errcode ∧ e0.st = .idle ∧ c0.st = .idle)
        ∨ ∃ e c, Reaches (s.size + 1) e0 e ∧ Reaches (s.size + 1) c0 c
          ∧ e.st = .idle ∧ c.st = .idle ∧ e.done = true ∧ c.done = true ∧ e.err = false ∧ c.err = false
          ∧ c.rcount = e.alen)

/-- DEC of an accepted artifact succeeds after exactly `ALEN + 1` steps with the buffer `decode` computes (R110 to R112, R116). -/
def Obligations.DecOfAcceptedArtifactSucceeds : Prop :=
  ∀ (s : State) (q : List Nibble), s.st = .idle → s.script = [] → s.tilew ≠ 0 → s.size ≤ s.cap → s.alen.toNat ≤ s.cap →
    decodeBuffer s.artList s.w.toNat s.h.toNat s.tilew.toNat = some q →
    ∃ t0 t, exec .dec s = .next t0
      ∧ (∀ j, j ≤ s.alen.toNat → ∃ u, Reaches j t0 u ∧ u.st = .decRun) ∧ Reaches (s.alen.toNat + 1) t0 t
      ∧ sameButCursors t { statusCleared s with done := true, idxlen := t.idxlen, idx := t.idx }
      ∧ t.idxlen.toNat = s.size ∧ t.idxList = q

/-- DEC of a malformed artifact fails with MalformedStream after at most `ALEN + 1` steps and reports the two counts
(R111, R116, R117). -/
def Obligations.DecOfMalformedArtifactFails : Prop :=
  ∀ s : State, s.st = .idle → s.script = [] → s.tilew ≠ 0 → s.size ≤ s.cap → s.alen.toNat ≤ s.cap →
    decodeBuffer s.artList s.w.toNat s.h.toNat s.tilew.toNat = none →
    ∃ t0 t count, exec .dec s = .next t0 ∧ 1 ≤ count ∧ count ≤ s.alen.toNat + 1 ∧ Reaches count t0 t
      ∧ sameButCursors t { failedWith s t.errcode with
          errExpect := t.errExpect, errActual := t.errActual, idxlen := 0, idx := t.idx }
      ∧ t.errcode ∈ streamErrcodes ∧ t.errExpect.toNat = s.size
      ∧ (t.errcode = 0x13 → t.errActual.toNat < s.size) ∧ (t.errcode = 0x33 → t.errActual.toNat = s.size)

/-- R118: "`decode(encode(X)) == X` for every valid IndexBuffer `X` and the same `(W, H, tileWidth)` triple"; and in the block,
ENC followed by DEC with the registers unchanged succeeds and leaves `IDX[0 .. W*H)` as it was. -/
def Obligations.EncThenDecIsTheIdentity : Prop :=
  (∀ (q : List Nibble) (w h t : Nat), q.length = w * h → 1 ≤ t → decodeBuffer (encodeBuffer q w h t) w h t = some q)
    ∧ ∀ s : State, s.st = .idle → s.script = [.regWrite 14 2, .wait, .regWrite 14 3, .wait] → s.tilew ≠ 0 →
      s.size ≤ s.cap → s.idxlen.toNat = s.size →
      ∃ (count : Nat) (t : State), Reaches count s t ∧ t.script = [] ∧ t.st = .idle ∧ t.done = true ∧ t.err = false
        ∧ t.idxlen.toNat = s.size ∧ (∀ a, a < s.size → t.idx.read a = s.idx.read a) ∧ sameOperands s t

/-- Re-encoding a decoded artifact gives one that is no longer and decodes to the same buffer (R119). -/
def Obligations.ReencodingIsNoLonger : Prop :=
  ∀ (bytes : List Byte) (q : List Nibble) (w h t : Nat), 1 ≤ t → decodeBuffer bytes w h t = some q →
    (encodeBuffer q w h t).length ≤ bytes.length ∧ decodeBuffer (encodeBuffer q w h t) w h t = some q

/-- R100: every run length of an artifact is 1 to 16 and they sum to `W*H`; a chunk of `m` samples has between `ceil(m / 16)`
and `m` runs, and two neighbouring runs of a chunk have different values unless the left one has length 16; each row has at
least as many runs as chunks, and the artifact is no longer than the buffer. -/
def Obligations.ArtifactLengthBounds : Prop :=
  (∀ c : List Nibble, ceilDiv c.length 16 ≤ (encodeChunk c).length ∧ (encodeChunk c).length ≤ c.length
    ∧ ∀ (j : Nat) (a b : Byte), (encodeChunk c)[j]? = some a → (encodeChunk c)[j + 1]? = some b →
        runValueOf a ≠ runValueOf b ∨ runLengthOf a = 16)
    ∧ ∀ (q : List Nibble) (w h t : Nat), q.length = w * h → 1 ≤ t →
      (∀ b ∈ encodeBuffer q w h t, 1 ≤ runLengthOf b ∧ runLengthOf b ≤ 16)
        ∧ ((encodeBuffer q w h t).map runLengthOf).sum = w * h
        ∧ h * ceilDiv w t ≤ (encodeBuffer q w h t).length ∧ (encodeBuffer q w h t).length ≤ w * h
        ∧ ∀ y, y < h → ceilDiv w t ≤ (encodeRow q w t y).length

/-- A running operation ends after at most `max(W*H, ALEN) + 1` sequencer steps (R147, R185). -/
def Obligations.RunningOperationEnds : Prop :=
  ∀ s : State, s.Inv → s.st ≠ .idle → s.script = [] →
    ∃ (count : Nat) (t : State), count ≤ max s.size s.alen.toNat + 1 ∧ Reaches count s t ∧ t.st = .idle ∧ t.done = true

/-! ### Invariants and whole-machine rules -/

/-- Every step keeps the invariant: the memories' canonical form and capacity, the flags' agreement, and for a running operation
its checks and cursor bounds (R25, R27, R40, R46, R96, R115). -/
def Obligations.EveryStepKeepsTheInvariant : Prop :=
  ∀ s t : State, s.Inv → step s = .next t → t.Inv

/-- The reset state has the invariant. -/
def Obligations.ResetStateHasTheInvariant : Prop :=
  State.reset.Inv

/-- Under the invariant `STATUS` reads 0, 1, 2 or 6, and its bit 0 says whether an operation runs (R25, R65). -/
def Obligations.StatusTakesFourValues : Prop :=
  ∀ s : State, s.Inv →
    (s.status = 0 ∨ s.status = 1 ∨ s.status = 2 ∨ s.status = 6) ∧ (s.status.getLsbD 0 = true ↔ s.st ≠ .idle)

/-- Only the host's own writes and reset change the operand registers (R13): no command and no sequencer step does. -/
def Obligations.OnlyTheHostWritesOperandRegisters : Prop :=
  ∀ s t : State, step s = .next t → ¬ sameOperands s t →
    ∃ (a : HostAction) (rest : List HostAction), s.script = a :: rest
      ∧ (a = .reset ∨ s.st = .idle ∧ ((∃ n v, a = .regWrite n v ∧ n ≤ 6) ∨ ∃ v, a = .angleWrite v))

/-- `IDLE` is left only by a `CMD` write of QUANT, ENC, DEC or COUNT, and a running operation ends only by `finish()` or `raise`,
both of which set `DONE`, or by reset (R141, R147, R165). -/
def Obligations.SequencerStateChangesOnlyByCommandEndOrReset : Prop :=
  ∀ s t : State, step s = .next t →
    (s.st = .idle → t.st ≠ .idle →
      ∃ (v : Nat) (rest : List HostAction), s.script = .regWrite 14 v :: rest
        ∧ (v % 256 = 1 ∨ v % 256 = 2 ∨ v % 256 = 3 ∨ v % 256 = 4))
    ∧ (s.st ≠ .idle → t.st = .idle → t.done = true ∨ ∃ rest, s.script = .reset :: rest)
    ∧ (s.st ≠ .idle → t.st ≠ .idle → t.st = s.st)

/-- A step that ends in `IDLE` and is no reset leaves every cursor as it found it. The spec leaves the cursors open there (R31,
U3): this is the model's choice (log 6). -/
def Obligations.CursorsKeepTheirValuesInIdle : Prop :=
  ∀ s t : State, step s = .next t → t.st = .idle → (∀ rest, s.script ≠ .reset :: rest) →
    t.y = s.y ∧ t.x = s.x ∧ t.cend = s.cend ∧ t.rl = s.rl ∧ t.k = s.k ∧ t.n = s.n ∧ t.i = s.i

/-- With `Trig` on the unit circle no step stops: nothing the host does ends the run. -/
def Obligations.NoStepStopsOnUnitTrig : Prop :=
  ∀ s : State, trigUnit Config.trig s.angle → ∃ t, step s = .next t

/-- Which memory each operation writes (R41): QUANT and DEC only `IDX`, ENC only `ART`, COUNT none, and no command writes `PIX`. -/
def Obligations.SequencerWritesOnlyItsDestination : Prop :=
  ∀ s t : State, s.script = [] → step s = .next t →
    t.pix = s.pix
    ∧ (s.st = .quantRun ∨ s.st = .decRun → t.art = s.art)
    ∧ (s.st = .encRun → t.idx = s.idx)
    ∧ (s.st = .countRun ∨ s.st = .idle → t.idx = s.idx ∧ t.art = s.art)

/-! ### The host's accesses and reset -/

/-- A register write while idle (R13, R19, R71): `RegWrite(n, v)` stores `v mod 2^width` in a writable register and changes no
other register, nor the status, the sequencer, its cursors, `CAP` or what the host last read; a write to a read-only register or
to a number above 18 changes nothing; writing `ANGLE` stores the angle, a plain number `v` being `v` radians (R71, R181). Which
form of `Angle` holds the number 0 is the model's choice (log 12). No buffer element changes, but for those at and beyond the new
length when a length register is written (R37). -/
def Obligations.RegWriteStoresModuloItsWidth : Prop :=
  (∀ (s : State) (n v : Nat) (rest : List HostAction), s.st = .idle → s.script = .regWrite n v :: rest → n ≠ 14 →
    ∃ t, step s = .next t
      ∧ t = { s with
          w := t.w, h := t.h, tilew := t.tilew, levels := t.levels, invert := t.invert, angle := t.angle, pixlen := t.pixlen,
          idxlen := t.idxlen, alen := t.alen, pix := t.pix, idx := t.idx, art := t.art, script := rest }
      ∧ (∀ m, m ≠ n → t.readReg m = s.readReg m)
      ∧ (n ≤ 8 → n ≠ 5 → t.readReg n = .value (BitVec.ofNat 32 (v % 2 ^ regWidth n)))
      ∧ (n = 5 → ∃ a, t = { s with angle := a, script := rest } ∧ radiansOf a = some (v : ℝ) ∧ (v = 0 → a = .quarters 0))
      ∧ (8 < n → t = { s with script := rest })
      ∧ ∀ b a, ¬ ((n = 6 ∧ b = .pix ∨ n = 7 ∧ b = .idx ∨ n = 8 ∧ b = .art) ∧ t.lenOf b ≤ a) →
        t.element b a = s.element b a)
    ∧ ∀ (s : State) (a : Angle) (rest : List HostAction), s.st = .idle → s.script = .angleWrite a :: rest →
      ∃ t, step s = .next t ∧ t = { s with angle := a, script := rest } ∧ t.readReg 5 = .angle a

/-- `RegRead`, and `BufRead` of an element the block has, while idle change nothing in the block, and the same read made next returns the same value (R52). -/
def Obligations.HostReadsChangeNothing : Prop :=
  ∀ (s : State) (a : HostAction) (rest : List HostAction),
    s.st = .idle → ((∃ n, a = .regRead n) ∨ ∃ b i, a = .bufRead b i ∧ i < s.cap) → s.script = a :: a :: rest →
    ∃ r, step s = .next { s with script := a :: rest, reply := some r }
      ∧ step { s with script := a :: rest, reply := some r } = .next { s with script := rest, reply := some r }

/-- `RegRead` while idle returns the register it names, with `CMD` and a number above 18 reading 0 (R13, R26); `BufRead` while
idle returns the element below both `CAP` and the buffer's length register (R42). Neither changes the block. -/
def Obligations.HostReadsReturnRegistersAndElements : Prop :=
  (∀ (s : State) (n : Nat) (rest : List HostAction), s.st = .idle → s.script = .regRead n :: rest →
      ∃ r, step s = .next { s with script := rest, reply := some r }
        ∧ (n = 0 → r = .value (s.w.setWidth 32)) ∧ (n = 1 → r = .value (s.h.setWidth 32))
        ∧ (n = 2 → r = .value (s.tilew.setWidth 32)) ∧ (n = 3 → r = .value (s.levels.setWidth 32))
        ∧ (n = 4 → r = .value (s.invert.setWidth 32)) ∧ (n = 5 → r = .angle s.angle) ∧ (n = 6 → r = .value s.pixlen)
        ∧ (n = 7 → r = .value s.idxlen) ∧ (n = 8 → r = .value s.alen) ∧ (n = 9 → r = .value s.rcount)
        ∧ (n = 10 → r = .value s.bw) ∧ (n = 11 → r = .value s.bh) ∧ (n = 12 → r = .value s.iw) ∧ (n = 13 → r = .value s.ih)
        ∧ (n = 14 → r = .value 0) ∧ (n = 15 → r = .value (s.status.setWidth 32))
        ∧ (n = 16 → r = .value (s.errcode.setWidth 32)) ∧ (n = 17 → r = .value s.errExpect)
        ∧ (n = 18 → r = .value s.errActual) ∧ (18 < n → r = .value 0))
    ∧ ∀ (s : State) (b : Buf) (a : Nat) (rest : List HostAction), s.st = .idle → s.script = .bufRead b a :: rest →
      a < s.cap → a < s.lenOf b →
      step s = .next { s with script := rest, reply := some (.value (s.element b a)) }

/-- `BufWrite(b, a, v)` while idle stores `v mod 2^e` in element `a` and changes nothing else; at or beyond `CAP` it has no
effect (R42). -/
def Obligations.BufWriteStoresOneElement : Prop :=
  ∀ (s : State) (b : Buf) (a v : Nat) (rest : List HostAction), s.st = .idle → s.script = .bufWrite b a v :: rest →
    ∃ t, step s = .next t ∧ t = { s with pix := t.pix, idx := t.idx, art := t.art, script := rest }
      ∧ (a < s.cap → t.element b a = BitVec.ofNat 32 (v % 2 ^ bufWidth b))
      ∧ (s.cap ≤ a → t = { s with script := rest })
      ∧ (∀ a', a' ≠ a → t.element b a' = s.element b a')
      ∧ ∀ b' a', b' ≠ b → t.element b' a' = s.element b' a'

/-- While an operation runs (R29, R145): host writes are ignored, `CMD` writes among them; a read of `STATUS` returns the current
flags and a read of a number above 18 returns 0 (R13); any other read returns some value, and no read changes the block. -/
def Obligations.BusyHostAccess : Prop :=
  ∀ (s : State) (a : HostAction) (rest : List HostAction), s.st ≠ .idle → s.script = a :: rest →
    ((∃ n v, a = .regWrite n v) ∨ (∃ v, a = .angleWrite v) ∨ (∃ b i v, a = .bufWrite b i v) →
      step s = .next { s with script := rest })
    ∧ ((∃ n, a = .regRead n) ∨ (∃ b i, a = .bufRead b i) →
      ∃ t r, step s = .next t ∧ t.reply = some r
        ∧ t = { s with script := rest, reply := some r, draws := t.draws }
        ∧ (a = .regRead 15 → r = .value (s.status.setWidth 32))
        ∧ (∀ n, a = .regRead n → 18 < n → r = .value 0))

/-- THE MODEL'S CHOICE, log 7 (DESIGN CHOICE): how host and sequencer take turns. With the action `pass`, which is the model's own,
the sequencer takes the step it would take by itself; a `WAIT` is one machine step that reads `STATUS` and, while `BUSY` is 1,
lets the sequencer take that step and stays to be done again. The spec says only that `WAIT` repeats `RD STATUS` until `BUSY`
reads 0 (R71) and that the sequencer eventually takes its next step (R184). -/
def Obligations.PassAndWaitGiveTheSequencerItsStep : Prop :=
  ∀ (s : State) (rest : List HostAction),
    (s.script = .pass :: rest →
      ∃ t, step { s with script := [] } = .next t ∧ step s = .next { t with script := rest })
    ∧ (s.script = .wait :: rest → s.st ≠ .idle →
      ∃ t, step { s with script := [] } = .next t
        ∧ step s = .next { t with script := .wait :: rest, reply := some (.value (s.status.setWidth 32)) })
    ∧ (s.script = .wait :: rest → s.st = .idle →
      step s = .next { s with script := rest, reply := some (.value (s.status.setWidth 32)) })

/-- The state after reset (R171), with the identity rescale R171 names. -/
def Obligations.ResetValues : Prop :=
  State.reset.st = .idle ∧ State.reset.status = 0
    ∧ State.reset.w = 0 ∧ State.reset.h = 0 ∧ State.reset.tilew.toNat = 320 ∧ State.reset.levels.toNat = 16
    ∧ State.reset.invert = 0 ∧ radiansOf State.reset.angle = some 0
    ∧ State.reset.pixlen = 0 ∧ State.reset.idxlen = 0 ∧ State.reset.alen = 0
    ∧ State.reset.rcount = 0 ∧ State.reset.bw = 0 ∧ State.reset.bh = 0 ∧ State.reset.iw = 0 ∧ State.reset.ih = 0
    ∧ State.reset.errcode = 0 ∧ State.reset.errExpect = 0 ∧ State.reset.errActual = 0
    ∧ (∀ l, l ≤ 15 → rescale 16 l = l)

/-- The reset event, in any state, running or not: every register reads as after reset, the sequencer is idle, and every element
of the buffers is unspecified (R170, R172, R173). -/
def Obligations.ResetEventFromAnyState : Prop :=
  ∀ (s : State) (rest : List HostAction), s.script = .reset :: rest →
    ∃ t, step s = .next t ∧ t.st = .idle ∧ (∀ n, t.readReg n = State.reset.readReg n) ∧ t.script = rest ∧ t.cap = s.cap
      ∧ (∀ a, t.pix.read a = Config.unspecified 24 (s.pix.draw a + 1) a)
      ∧ (∀ a, t.idx.read a = Config.unspecified 4 (s.idx.draw a + 1) a)
      ∧ ∀ a, t.art.read a = Config.unspecified 8 (s.art.draw a + 1) a

/-! ### The quantizer -/

/-- The ranges of the quantizer and its monotonicity (R80). -/
def Obligations.QuantizerRangesAndMonotonicity : Prop :=
  (∀ p : Pixel, intensity p ≤ 255)
    ∧ (∀ inten l : Nat, inten ≤ 255 → 2 ≤ l → l ≤ 16 → levelOf inten l ≤ l - 1)
    ∧ (∀ level l : Nat, 2 ≤ l → l ≤ 16 → level ≤ l - 1 → rescale l level ≤ 15)
    ∧ ∀ (p p' : Pixel) (l : Nat), 2 ≤ l → l ≤ 16 →
        pixelR p + pixelG p + pixelB p ≤ pixelR p' + pixelG p' + pixelB p' →
        (quantSample p l false).toNat ≤ (quantSample p' l false).toNat
          ∧ (quantSample p' l true).toNat ≤ (quantSample p l true).toNat

/-- The rounding identities of R77 to R79: `intensity` is `s / 3` rounded and equals `(s + 1) div 3`, the level is
`intensity / 255 * (L - 1)` rounded, and the nibble `level / (L - 1) * 15` rounded, each to the nearest integer, ties up. -/
def Obligations.QuantizerStepsRoundToNearest : Prop :=
  (∀ p : Pixel, intensity p = (pixelR p + pixelG p + pixelB p + 1) / 3
      ∧ intensity p = ⌊(((pixelR p + pixelG p + pixelB p : Nat) : ℚ) / 3) + 1 / 2⌋.toNat)
    ∧ (∀ inten l : Nat, inten ≤ 255 → 2 ≤ l → l ≤ 16 →
        levelOf inten l = ⌊((inten : ℚ) / 255 * ((l : ℚ) - 1)) + 1 / 2⌋.toNat)
    ∧ ∀ level l : Nat, 2 ≤ l → l ≤ 16 → level ≤ l - 1 →
        rescale l level = ⌊((level : ℚ) / ((l : ℚ) - 1) * 15) + 1 / 2⌋.toNat

/-- Invert symmetry (R87): it holds for every sample when `LEVELS` is even; when `LEVELS` is odd the two nibbles add up to 16
exactly where the level is a tie level, and to 15 elsewhere. -/
def Obligations.InvertSymmetry : Prop :=
  ∀ (p : Pixel) (l : Nat), 2 ≤ l → l ≤ 16 →
    (quantSample p l true).toNat + (quantSample p l false).toNat =
      if l % 2 = 1 ∧ (30 * levelOf (intensity p) l) % (2 * (l - 1)) = l - 1 then 16 else 15

/-! ### The geometry -/

/-- R126: under the reference `Trig`, at every angle that is a real number `x` of radians, `Trig` is exactly `(|sin x|, |cos x|)`, a
pair in the unit square and on the unit circle; and under any `Trig` BBOX and IRECT see an angle through its pair only, so that any two `Trig`s with the same pair give the same
results. -/
def Obligations.TrigIsTheExactSineAndCosine : Prop :=
  (∀ (e : ExactArithmetic) (a : Angle) (x : ℝ), radiansOf a = some x →
    sinOf (.reference e) a = |Real.sin x| ∧ cosOf (.reference e) a = |Real.cos x|
      ∧ 0 ≤ sinOf (.reference e) a ∧ sinOf (.reference e) a ≤ 1 ∧ 0 ≤ cosOf (.reference e) a ∧ cosOf (.reference e) a ≤ 1
      ∧ trigUnit (.reference e) a)
    ∧ ∀ (p q : TrigParameter) (a b : Angle) (w h : Nat), sinOf p a = sinOf q b → cosOf p a = cosOf q b →
      (trigOf p a).bbox w h = (trigOf q b).bbox w h ∧ (trigOf p a).irect w h = (trigOf q b).irect w h

/-- R128, under any `Trig`: at every angle, BBOX's pair is that of the absolute values of the floors of `W*c + H*s` and `W*s + H*c` over the real
numbers. -/
def Obligations.BboxIsTheExactFloor : Prop :=
  ∀ (p : TrigParameter) (w h : Nat) (a : Angle),
    (trigOf p a).bbox w h =
      (⌊(w : ℝ) * cosOf p a + (h : ℝ) * sinOf p a⌋.natAbs, ⌊(w : ℝ) * sinOf p a + (h : ℝ) * cosOf p a⌋.natAbs)

/-- R131 over the real numbers, under any `Trig` and at every angle, wherever no taken branch divides by zero. Where the thin branch does, there is no
result: DEDUCED from R136 and U4 (log 10). -/
def Obligations.IrectIsTheExactFloor : Prop :=
  ∀ (p : TrigParameter) (w h : Nat) (a : Angle), 1 ≤ w → 1 ≤ h →
    let s : ℝ := sinOf p a
    let c : ℝ := cosOf p a
    let long : ℝ := (max w h : Nat)
    let short : ℝ := (min w h : Nat)
    let den : ℝ := c * c - s * s
    (short ≤ 2 * s * c * long ∨ den = 0 →
      (s = 0 ∨ c = 0 → (trigOf p a).irect w h = none)
        ∧ (s ≠ 0 → c ≠ 0 → h ≤ w → (trigOf p a).irect w h = some (⌊short / 2 / s⌋.natAbs, ⌊short / 2 / c⌋.natAbs))
        ∧ (s ≠ 0 → c ≠ 0 → w < h → (trigOf p a).irect w h = some (⌊short / 2 / c⌋.natAbs, ⌊short / 2 / s⌋.natAbs)))
    ∧ (¬ (short ≤ 2 * s * c * long ∨ den = 0) →
      (trigOf p a).irect w h =
        some (⌊((w : ℝ) * c - (h : ℝ) * s) / den⌋.natAbs, ⌊((h : ℝ) * c - (w : ℝ) * s) / den⌋.natAbs))

/-- R127, under the reference `Trig`: the results are the same at `x`, `-x`, `x + π` and `π - x`; at `π/2 - x` and `π/2 + x` they
are exchanged, and with `W` and `H` exchanged as well they are the same. -/
def Obligations.AngleSymmetries : Prop :=
  ∀ (e : ExactArithmetic) (w h : Nat) (a b : Angle) (x y : ℝ), 1 ≤ w → 1 ≤ h → radiansOf a = some x → radiansOf b = some y →
    let u := trigOf (.reference e) a
    let v := trigOf (.reference e) b
    (y = x ∨ y = -x ∨ y = x + Real.pi ∨ y = Real.pi - x → v.bbox w h = u.bbox w h ∧ v.irect w h = u.irect w h)
    ∧ (y = Real.pi / 2 - x ∨ y = Real.pi / 2 + x →
      v.bbox w h = (u.bbox w h).swap ∧ v.irect w h = (u.irect w h).map Prod.swap
        ∧ v.bbox h w = u.bbox w h ∧ v.irect h w = u.irect w h)

/-- R137, under the reference `Trig`: the results at 0, at `π/2`, and of a 100 by 100 square at `π/4`. -/
def Obligations.GeometryAtZeroQuarterAndHalf : Prop :=
  ∀ (e : ExactArithmetic) (a : Angle),
    let u := trigOf (.reference e) a
    (∀ w h : Nat, 1 ≤ w → 1 ≤ h →
      (radiansOf a = some 0 → u.bbox w h = (w, h) ∧ u.irect w h = some (w, h))
        ∧ (radiansOf a = some (Real.pi / 2) → u.bbox w h = (h, w) ∧ u.irect w h = some (h, w)))
    ∧ (radiansOf a = some (Real.pi / 4) → u.irect 100 100 = some (70, 70) ∧ u.bbox 100 100 = (141, 141))

/-- The bounds of R138 for every angle whose `Trig`, be it the reference one or another, is on the unit circle. -/
def Obligations.GeometryBounds : Prop :=
  ∀ (p : TrigParameter) (w h : Nat) (a : Angle), 1 ≤ w → 1 ≤ h → trigUnit p a →
    let u := trigOf p a
    (u.bbox w h).1 * (u.bbox w h).1 ≤ w * w + h * h ∧ (u.bbox w h).2 * (u.bbox w h).2 ≤ w * w + h * h
      ∧ (u.bbox w h).1 ≤ w + h ∧ (u.bbox w h).2 ≤ w + h
      ∧ ∃ q, u.irect w h = some q ∧ q.1 ≤ max w h ∧ q.2 ≤ max w h ∧ q.1 * q.2 ≤ w * h
        ∧ (¬ ThinReal w h u.s u.c → (u.s < u.c → q.1 ≤ w ∧ q.2 ≤ h) ∧ (u.c < u.s → q.1 ≤ h ∧ q.2 ≤ w))
end

