-- ==== Sys2Proof/Laws/Geometry.lean ====
section
/-! SUPPORT. What the geometry unit's parts do: the integer square root is the floor of the square root; what `Trig` answers;
the results at a pair of real numbers are those of R128 and R131. -/

namespace Sys2Proof.Machine

theorem isqrtFuel_spec (fuel v : Nat) (h : v ≤ fuel) :
    isqrtFuel fuel v * isqrtFuel fuel v ≤ v ∧ v < (isqrtFuel fuel v + 1) * (isqrtFuel fuel v + 1) := by
  induction fuel generalizing v with
  | zero => simp only [isqrtFuel]; omega
  | succ fuel ih =>
    unfold isqrtFuel
    split
    · omega
    · next hv =>
      have ⟨h1, h2⟩ := ih (v / 4) (by omega)
      generalize isqrtFuel fuel (v / 4) = r at h1 h2
      dsimp only
      split
      · next hr => exact ⟨hr, by nlinarith [Nat.div_add_mod v 4, Nat.mod_lt v (show 0 < 4 by omega)]⟩
      · next hr =>
        refine ⟨?_, by omega⟩
        have h4 : 4 * (v / 4) ≤ v := Nat.mul_div_le v 4
        calc 2 * r * (2 * r) = 4 * (r * r) := by ring
          _ ≤ v := by omega

/-- `isqrt v` is the greatest number whose square is at most `v`. -/
theorem isqrt_spec (v : Nat) : isqrt v * isqrt v ≤ v ∧ v < (isqrt v + 1) * (isqrt v + 1) :=
  isqrtFuel_spec v v le_rfl

theorem isqrt_eq_sqrt (v : Nat) : isqrt v = Nat.sqrt v :=
  Nat.eq_sqrt.mpr (isqrt_spec v)

/-- `a <= isqrt v` says `a * a <= v`. -/
theorem le_isqrt_iff {a v : Nat} : a ≤ isqrt v ↔ a * a ≤ v := by
  rw [isqrt_eq_sqrt]; exact Nat.le_sqrt

/-- `csqrt v <= a` says `v <= a * a`. -/
theorem csqrt_le_iff {a v : Nat} : csqrt v ≤ a ↔ v ≤ a * a := by
  have ⟨h1, h2⟩ := isqrt_spec v
  unfold csqrt
  split
  · next h =>
    constructor
    · intro ha; rw [← h]; exact Nat.mul_le_mul ha ha
    · intro ha; rw [← h] at ha; exact Nat.mul_self_le_mul_self_iff.mp ha
  · next h =>
    constructor
    · intro ha; exact h2.le.trans (Nat.mul_le_mul ha ha)
    · intro ha
      have : isqrt v * isqrt v < a * a := lt_of_lt_of_le (lt_of_le_of_ne h1 h) ha
      exact Nat.mul_self_lt_mul_self_iff.mp this

theorem trigDen_pos (t : Trig) : 0 < trigDen t := Nat.succ_pos _

/-! ### What `Trig` answers -/

@[simp] theorem TrigValue.s_roots (t : Trig) : (TrigValue.roots t).s = Real.sqrt (t.sSq / trigDen t) := rfl
@[simp] theorem TrigValue.c_roots (t : Trig) : (TrigValue.roots t).c = Real.sqrt (t.cSq / trigDen t) := rfl
@[simp] theorem TrigValue.s_ofAngle (a : Angle) (e : ExactArithmetic) :
    (TrigValue.ofAngle a e).s = |Real.sin ((radiansOf a).getD 0)| := rfl
@[simp] theorem TrigValue.c_ofAngle (a : Angle) (e : ExactArithmetic) :
    (TrigValue.ofAngle a e).c = |Real.cos ((radiansOf a).getD 0)| := rfl
@[simp] theorem TrigValue.s_ofPair (s c : ℝ) (e : ExactArithmetic) : (TrigValue.ofPair s c e).s = |s| := rfl
@[simp] theorem TrigValue.c_ofPair (s c : ℝ) (e : ExactArithmetic) : (TrigValue.ofPair s c e).c = |c| := rfl

/-- What the reference `Trig` answers at an angle that is a real number: the pair of square roots of a multiple of `π/6` or `π/4`,
or the exact sine and cosine. -/
theorem trigOf_reference {a : Angle} {x : ℝ} (e : ExactArithmetic) (h : radiansOf a = some x) :
    (∃ n, a = .sixths n ∧ trigOf (.reference e) a = .roots (sixthsTrig n))
      ∨ (∃ n, a = .quarters n ∧ trigOf (.reference e) a = .roots (quartersTrig n))
      ∨ trigOf (.reference e) a = .ofAngle a e := by
  cases a with
  | expr _ => exact .inr (.inr rfl)
  | sixths n => exact .inl ⟨n, rfl, rfl⟩
  | quarters n => exact .inr (.inl ⟨n, rfl, rfl⟩)
  | real _ => exact .inr (.inr rfl)
  | trig _ => cases h
  | trigReal _ => cases h

/-- What any other `Trig` answers at an angle that is a real number: the pair it has there. -/
theorem trigOf_other {a : Angle} {x : ℝ} (pair : Angle → ℝ × ℝ) (e : ExactArithmetic) (h : radiansOf a = some x) :
    trigOf (.other pair e) a = .ofPair (pair a).1 (pair a).2 e := by
  cases a <;> first | rfl | cases h

theorem trigOf_roots {a : Angle} {x : ℝ} (pair : Angle → Trig) (h : radiansOf a = some x) :
    trigOf (.roots pair) a = .roots (pair a) := by
  cases a <;> first | rfl | cases h

/-- An angle written as its pair has that pair under every `Trig`. -/
@[simp] theorem trigOf_trig (p : TrigParameter) (pair : Trig) : trigOf p (.trig pair) = .roots pair := rfl

/-! ### What an angle is -/

@[simp] theorem realValue_nat (n : Nat) : realValue (.nat n) = n := rfl
@[simp] theorem realValue_pi : realValue .pi = Real.pi := rfl
@[simp] theorem realValue_sqrt (n : Nat) : realValue (.sqrt n) = Real.sqrt n := rfl
@[simp] theorem realValue_neg (a : RealExpr) : realValue (.neg a) = -realValue a := rfl
@[simp] theorem realValue_add (a b : RealExpr) : realValue (.add a b) = realValue a + realValue b := rfl
@[simp] theorem realValue_mul (a b : RealExpr) : realValue (.mul a b) = realValue a * realValue b := rfl
@[simp] theorem realValue_over (a : RealExpr) (d : Nat) : realValue (.over a d) = realValue a / (d + 1) := rfl
@[simp] theorem radiansOf_expr (e : RealExpr) : radiansOf (.expr e) = some (realValue e) := rfl

/-- A plain number is that many radians. -/
theorem radiansOf_angleOfNumber (v : Nat) : radiansOf (angleOfNumber v) = some (v : ℝ) := by
  unfold angleOfNumber
  split
  · next h => simp [radiansOf, h]
  · rfl

/-- A pair of square roots is on the unit circle when its numerators add up to the denominator. -/
theorem roots_unit {t : Trig} (h : t.sSq + t.cSq = trigDen t) :
    (TrigValue.roots t).s * (TrigValue.roots t).s + (TrigValue.roots t).c * (TrigValue.roots t).c = 1 := by
  have hd : (0 : ℝ) < trigDen t := by exact_mod_cast trigDen_pos t
  rw [TrigValue.s_roots, TrigValue.c_roots, Real.mul_self_sqrt (by positivity), Real.mul_self_sqrt (by positivity),
    ← add_div, ← Nat.cast_add, h, div_self hd.ne']

/-- `trigUnit` of an angle whose pair is one of square roots. -/
theorem trigUnit_of_roots {p : TrigParameter} {a : Angle} {t : Trig} (ha : trigOf p a = .roots t)
    (h : t.sSq + t.cSq = trigDen t) : trigUnit p a := by
  unfold trigUnit sinOf cosOf
  rw [ha]
  exact roots_unit h

/-! ### Exact arithmetic -/

/-- Exact arithmetic finds the number that is said. -/
theorem ExactArithmetic_nat_eq (e : ExactArithmetic) (v : Nat) : e.nat (fun n => n = v) = v :=
  e.nat_spec (fun n => n = v) ⟨v, rfl⟩

/-- Exact arithmetic exists: the reference `Trig` is a possible value of `Config.trig`. -/
theorem exactArithmetic_nonempty : Nonempty ExactArithmetic := by
  classical
  exact ⟨⟨fun q => if h : ∃ n, q n then h.choose else 0, fun q h => by simpa only [dif_pos h] using h.choose_spec⟩⟩

/-- At the exact sine and cosine of a real number, BBOX's results are `bboxReal`. -/
theorem TrigValue.bbox_ofAngle (w h : Nat) (a : Angle) (e : ExactArithmetic) :
    (TrigValue.ofAngle a e).bbox w h
      = bboxReal w h |Real.sin ((radiansOf a).getD 0)| |Real.cos ((radiansOf a).getD 0)| := by
  simp only [TrigValue.bbox, ExactArithmetic_nat_eq, s_ofAngle, c_ofAngle]

theorem TrigValue.bbox_ofPair (w h : Nat) (s c : ℝ) (e : ExactArithmetic) :
    (TrigValue.ofPair s c e).bbox w h = bboxReal w h |s| |c| := by
  simp only [TrigValue.bbox, ExactArithmetic_nat_eq, s_ofPair, c_ofPair]

/-- What exact arithmetic makes of an optional pair. -/
theorem exact_option (e : ExactArithmetic) (r : Option (Nat × Nat)) :
    (if e.nat (fun n => n = 0 ↔ r = none) = 0 then none
      else some (e.nat fun n => ∃ m, r = some (n, m), e.nat fun n => ∃ m, r = some (m, n))) = r := by
  cases r with
  | none =>
    have := e.nat_spec (fun n => n = 0 ↔ (none : Option (Nat × Nat)) = none) ⟨0, by simp⟩
    rw [if_pos (this.mpr rfl)]
  | some p =>
    obtain ⟨a, b⟩ := p
    have h0 := e.nat_spec (fun n => n = 0 ↔ some (a, b) = none) ⟨1, by simp⟩
    have h1 := e.nat_spec (fun n => ∃ m, some (a, b) = some (n, m)) ⟨a, b, rfl⟩
    have h2 := e.nat_spec (fun n => ∃ m, some (a, b) = some (m, n)) ⟨b, a, rfl⟩
    rw [if_neg (fun h => by simpa using h0.mp h)]
    obtain ⟨m1, h1⟩ := h1
    obtain ⟨m2, h2⟩ := h2
    rw [show e.nat (fun n => ∃ m, some (a, b) = some (n, m)) = a from
        (congrArg Prod.fst (Option.some.inj h1)).symm,
      show e.nat (fun n => ∃ m, some (a, b) = some (m, n)) = b from (congrArg Prod.snd (Option.some.inj h2)).symm]

/-- At the exact sine and cosine of a real number, IRECT's results are `irectReal`. -/
theorem TrigValue.irect_ofAngle (w h : Nat) (a : Angle) (e : ExactArithmetic) :
    (TrigValue.ofAngle a e).irect w h
      = irectReal w h |Real.sin ((radiansOf a).getD 0)| |Real.cos ((radiansOf a).getD 0)| :=
  exact_option e _

theorem TrigValue.irect_ofPair (w h : Nat) (s c : ℝ) (e : ExactArithmetic) :
    (TrigValue.ofPair s c e).irect w h = irectReal w h |s| |c| :=
  exact_option e _

end Sys2Proof.Machine
end

