-- ==== Sys2Proof/Laws/Memory.lean ====
section
/-! SUPPORT. What the operations over one buffer memory do: read after write, what stays, and that every operation keeps the
canonical form and the capacity bound. -/

namespace Sys2Proof.Machine

variable {w : Nat}

@[simp] theorem lookupCell_insertCell_same (l : List (Nat × BitVec w)) (a : Nat) (v : BitVec w) :
    lookupCell (insertCell l a v) a = some v := by
  induction l with
  | nil => simp [insertCell, lookupCell]
  | cons c l ih =>
    obtain ⟨b, u⟩ := c
    unfold insertCell
    split
    · simp [lookupCell]
    · split
      · simp [lookupCell]
      · have : ¬ b = a := fun h => by simp_all
        simp [lookupCell, this, ih]

theorem lookupCell_insertCell_of_ne (l : List (Nat × BitVec w)) {a b : Nat} (v : BitVec w) (h : b ≠ a) :
    lookupCell (insertCell l a v) b = lookupCell l b := by
  induction l with
  | nil => simp [insertCell, lookupCell, Ne.symm h]
  | cons c l ih =>
    obtain ⟨d, u⟩ := c
    unfold insertCell
    split
    · simp [lookupCell, Ne.symm h]
    · split
      · next hd => simp [lookupCell, hd ▸ Ne.symm h, Ne.symm h]
      · simp only [lookupCell]; split
        · rfl
        · exact ih

/-- A read after a write to the same element gives the value written. -/
@[simp] theorem Memory.read_write_same (m : Memory w) (a : Nat) (v : BitVec w) : (m.write a v).read a = v := by
  simp [Memory.read, Memory.write]

/-- A write leaves every other element alone. -/
theorem Memory.read_write_of_ne (m : Memory w) {a b : Nat} (v : BitVec w) (h : b ≠ a) :
    (m.write a v).read b = m.read b := by
  simp only [Memory.read, Memory.write, lookupCell_insertCell_of_ne _ _ h]; rfl

@[simp] theorem Memory.write_forgotten (m : Memory w) (a : Nat) (v : BitVec w) :
    (m.write a v).forgotten = m.forgotten := rfl

@[simp] theorem Memory.draw_write (m : Memory w) (a b : Nat) (v : BitVec w) : (m.write a v).draw b = m.draw b := rfl

theorem countP_insertLen (p : Nat → Bool) (l : List Nat) (len : Nat) :
    (insertLen l len).countP p = l.countP p + if p len then 1 else 0 := by
  induction l with
  | nil => simp [insertLen, List.countP_cons]
  | cons b l ih =>
    unfold insertLen
    split
    · simp [List.countP_cons]
    · simp only [List.countP_cons, ih]; omega

/-- Forgetting from `len` on draws anew at `len` and beyond, and nowhere below. -/
theorem Memory.draw_keepBelow (m : Memory w) (len a : Nat) :
    (m.keepBelow len).draw a = m.draw a + if len ≤ a then 1 else 0 := by
  simp [Memory.draw, Memory.keepBelow, countP_insertLen]

theorem lookupCell_filter_below (l : List (Nat × BitVec w)) {a len : Nat} (h : a < len) :
    lookupCell (l.filter fun c => c.1 < len) a = lookupCell l a := by
  induction l with
  | nil => rfl
  | cons c l ih =>
    obtain ⟨b, u⟩ := c
    by_cases hb : b < len
    · simp [List.filter, hb, lookupCell, ih]
    · have : ¬ b = a := by omega
      simp [List.filter, hb, lookupCell, ih, this]

theorem lookupCell_filter_above (l : List (Nat × BitVec w)) {a len : Nat} (h : len ≤ a) :
    lookupCell (l.filter fun c => c.1 < len) a = none := by
  induction l with
  | nil => rfl
  | cons c l ih =>
    obtain ⟨b, u⟩ := c
    by_cases hb : b < len
    · have : ¬ b = a := by omega
      simp [List.filter, hb, lookupCell, ih, this]
    · simp [List.filter, hb, ih]

/-- Below the cut, every element reads as before. -/
theorem Memory.read_keepBelow_of_lt (m : Memory w) {a len : Nat} (h : a < len) :
    (m.keepBelow len).read a = m.read a := by
  have hd : (m.keepBelow len).draw a = m.draw a := by rw [Memory.draw_keepBelow, if_neg (by omega), Nat.add_zero]
  unfold Memory.read Memory.unspecified
  rw [hd]
  simp [Memory.keepBelow, lookupCell_filter_below _ h]

/-- At and beyond the cut, an element reads as a fresh free value. -/
theorem Memory.read_keepBelow_of_le (m : Memory w) {a len : Nat} (h : len ≤ a) :
    (m.keepBelow len).read a = Config.unspecified w (m.draw a + 1) a := by
  have hd : (m.keepBelow len).draw a = m.draw a + 1 := by rw [Memory.draw_keepBelow, if_pos h]
  unfold Memory.read Memory.unspecified
  rw [hd]
  simp [Memory.keepBelow, lookupCell_filter_above _ h]

/-- After `forget` every element reads as a fresh free value. -/
@[simp] theorem Memory.read_forget (m : Memory w) (a : Nat) :
    m.forget.read a = Config.unspecified w (m.draw a + 1) a :=
  m.read_keepBelow_of_le (Nat.zero_le a)

/-! ### The canonical form -/

theorem cellsRising_cons (a : Nat) (u : BitVec w) (l : List (Nat × BitVec w)) :
    cellsRising ((a, u) :: l) = true ↔ (∀ c ∈ l, a < c.1) ∧ cellsRising l = true := by
  induction l generalizing a u with
  | nil => simp [cellsRising]
  | cons c l ih =>
    obtain ⟨b, v⟩ := c
    simp only [cellsRising, Bool.and_eq_true, decide_eq_true_eq, List.mem_cons, forall_eq_or_imp]
    constructor
    · rintro ⟨hab, hl⟩
      exact ⟨⟨hab, fun c hc => lt_trans hab (((ih b v).mp hl).1 c hc)⟩, hl⟩
    · rintro ⟨⟨hab, -⟩, hl⟩
      exact ⟨hab, hl⟩

theorem mem_insertCell {l : List (Nat × BitVec w)} {a : Nat} {v : BitVec w} {c : Nat × BitVec w}
    (h : c ∈ insertCell l a v) : c = (a, v) ∨ c ∈ l := by
  induction l with
  | nil => simpa [insertCell] using h
  | cons d l ih =>
    obtain ⟨b, u⟩ := d
    unfold insertCell at h
    split at h
    · simpa using h
    · split at h
      · rcases List.mem_cons.mp h with h | h
        · exact .inl h
        · exact .inr (List.mem_cons_of_mem _ h)
      · rcases List.mem_cons.mp h with h | h
        · exact .inr (h ▸ List.mem_cons_self)
        · exact (ih h).imp_right (List.mem_cons_of_mem _)

theorem cellsRising_insertCell {l : List (Nat × BitVec w)} (a : Nat) (v : BitVec w) (h : cellsRising l = true) :
    cellsRising (insertCell l a v) = true := by
  induction l with
  | nil => rfl
  | cons d l ih =>
    obtain ⟨b, u⟩ := d
    have ⟨hb, hl⟩ := (cellsRising_cons b u l).mp h
    unfold insertCell
    split
    · next hab =>
      refine (cellsRising_cons _ _ _).mpr ⟨fun c hc => ?_, h⟩
      rcases List.mem_cons.mp hc with rfl | hc
      · exact hab
      · exact lt_trans hab (hb c hc)
    · split
      · next hab => exact (cellsRising_cons _ _ _).mpr ⟨hab ▸ hb, hl⟩
      · refine (cellsRising_cons _ _ _).mpr ⟨fun c hc => ?_, ih hl⟩
        rcases mem_insertCell hc with rfl | hc
        · simp only; omega
        · exact hb c hc

theorem cellsRising_filter {l : List (Nat × BitVec w)} (p : Nat × BitVec w → Bool) (h : cellsRising l = true) :
    cellsRising (l.filter p) = true := by
  induction l with
  | nil => rfl
  | cons d l ih =>
    obtain ⟨b, u⟩ := d
    have ⟨hb, hl⟩ := (cellsRising_cons b u l).mp h
    rw [List.filter_cons]
    split
    · exact (cellsRising_cons _ _ _).mpr ⟨fun c hc => hb c (List.mem_filter.mp hc).1, ih hl⟩
    · exact ih hl

theorem lensRising_cons (a : Nat) (l : List Nat) :
    lensRising (a :: l) = true ↔ (∀ b ∈ l, a ≤ b) ∧ lensRising l = true := by
  induction l generalizing a with
  | nil => simp [lensRising]
  | cons b l ih =>
    simp only [lensRising, Bool.and_eq_true, decide_eq_true_eq, List.mem_cons, forall_eq_or_imp]
    constructor
    · rintro ⟨hab, hl⟩
      exact ⟨⟨hab, fun c hc => le_trans hab (((ih b).mp hl).1 c hc)⟩, hl⟩
    · rintro ⟨⟨hab, -⟩, hl⟩
      exact ⟨hab, hl⟩

theorem mem_insertLen {l : List Nat} {len c : Nat} (h : c ∈ insertLen l len) : c = len ∨ c ∈ l := by
  induction l with
  | nil => simpa [insertLen] using h
  | cons b l ih =>
    unfold insertLen at h
    split at h
    · simpa using h
    · rcases List.mem_cons.mp h with h | h
      · exact .inr (h ▸ List.mem_cons_self)
      · exact (ih h).imp_right (List.mem_cons_of_mem _)

theorem lensRising_insertLen {l : List Nat} (len : Nat) (h : lensRising l = true) :
    lensRising (insertLen l len) = true := by
  induction l with
  | nil => rfl
  | cons b l ih =>
    have ⟨hb, hl⟩ := (lensRising_cons b l).mp h
    unfold insertLen
    split
    · next hlb =>
      refine (lensRising_cons _ _).mpr ⟨fun c hc => ?_, h⟩
      rcases List.mem_cons.mp hc with rfl | hc
      · exact hlb
      · exact le_trans hlb (hb c hc)
    · refine (lensRising_cons _ _).mpr ⟨fun c hc => ?_, ih hl⟩
      rcases mem_insertLen hc with rfl | hc
      · omega
      · exact hb c hc

theorem Memory.wf_iff (m : Memory w) : m.wf = true ↔ cellsRising m.cells = true ∧ lensRising m.forgotten = true := by
  simp [Memory.wf]

/-- Every memory operation keeps the canonical form. -/
theorem Memory.wf_write {m : Memory w} (a : Nat) (v : BitVec w) (h : m.wf = true) : (m.write a v).wf = true :=
  (Memory.wf_iff _).mpr ((m.wf_iff.mp h).imp_left (cellsRising_insertCell a v))

theorem Memory.wf_keepBelow {m : Memory w} (len : Nat) (h : m.wf = true) : (m.keepBelow len).wf = true :=
  (Memory.wf_iff _).mpr ((m.wf_iff.mp h).imp (cellsRising_filter _) (lensRising_insertLen len))

theorem Memory.wf_forget {m : Memory w} (h : m.wf = true) : m.forget.wf = true :=
  Memory.wf_keepBelow 0 h

/-- The memories of the reset state have the canonical form. -/
theorem reset_memories_wf :
    State.reset.pix.wf = true ∧ State.reset.idx.wf = true ∧ State.reset.art.wf = true :=
  ⟨rfl, rfl, rfl⟩

/-! ### The capacity bound -/

theorem Memory.below_write {m : Memory w} {cap a : Nat} (v : BitVec w) (h : m.below cap) (ha : a < cap) :
    (m.write a v).below cap := by
  intro c hc
  rcases mem_insertCell hc with rfl | hc
  · exact ha
  · exact h c hc

theorem Memory.below_keepBelow {m : Memory w} {cap : Nat} (len : Nat) (h : m.below cap) :
    (m.keepBelow len).below cap :=
  fun c hc => h c (List.mem_filter.mp hc).1

@[simp] theorem Memory.below_forget (m : Memory w) (cap : Nat) : m.forget.below cap := by
  intro c hc
  have := (List.mem_filter.mp hc).2
  simp at this

end Sys2Proof.Machine
end

