-- ==== Sys2Proof/Laws/State.lean ====
section
/-! SUPPORT. One lemma per field per update of the state, each true by unfolding the update once: no later proof unfolds a
record update. -/

namespace Sys2Proof.Machine

/-! ### `beginCommand` -/

@[simp] theorem beginCommand_w (s : State) : s.beginCommand.w = s.w := rfl
@[simp] theorem beginCommand_h (s : State) : s.beginCommand.h = s.h := rfl
@[simp] theorem beginCommand_tilew (s : State) : s.beginCommand.tilew = s.tilew := rfl
@[simp] theorem beginCommand_levels (s : State) : s.beginCommand.levels = s.levels := rfl
@[simp] theorem beginCommand_invert (s : State) : s.beginCommand.invert = s.invert := rfl
@[simp] theorem beginCommand_angle (s : State) : s.beginCommand.angle = s.angle := rfl
@[simp] theorem beginCommand_pixlen (s : State) : s.beginCommand.pixlen = s.pixlen := rfl
@[simp] theorem beginCommand_idxlen (s : State) : s.beginCommand.idxlen = s.idxlen := rfl
@[simp] theorem beginCommand_alen (s : State) : s.beginCommand.alen = s.alen := rfl
@[simp] theorem beginCommand_rcount (s : State) : s.beginCommand.rcount = s.rcount := rfl
@[simp] theorem beginCommand_bw (s : State) : s.beginCommand.bw = s.bw := rfl
@[simp] theorem beginCommand_bh (s : State) : s.beginCommand.bh = s.bh := rfl
@[simp] theorem beginCommand_iw (s : State) : s.beginCommand.iw = s.iw := rfl
@[simp] theorem beginCommand_ih (s : State) : s.beginCommand.ih = s.ih := rfl
@[simp] theorem beginCommand_done (s : State) : s.beginCommand.done = false := rfl
@[simp] theorem beginCommand_err (s : State) : s.beginCommand.err = false := rfl
@[simp] theorem beginCommand_errcode (s : State) : s.beginCommand.errcode = 0 := rfl
@[simp] theorem beginCommand_errExpect (s : State) : s.beginCommand.errExpect = 0 := rfl
@[simp] theorem beginCommand_errActual (s : State) : s.beginCommand.errActual = 0 := rfl
@[simp] theorem beginCommand_st (s : State) : s.beginCommand.st = s.st := rfl
@[simp] theorem beginCommand_y (s : State) : s.beginCommand.y = s.y := rfl
@[simp] theorem beginCommand_x (s : State) : s.beginCommand.x = s.x := rfl
@[simp] theorem beginCommand_cend (s : State) : s.beginCommand.cend = s.cend := rfl
@[simp] theorem beginCommand_rl (s : State) : s.beginCommand.rl = s.rl := rfl
@[simp] theorem beginCommand_k (s : State) : s.beginCommand.k = s.k := rfl
@[simp] theorem beginCommand_n (s : State) : s.beginCommand.n = s.n := rfl
@[simp] theorem beginCommand_i (s : State) : s.beginCommand.i = s.i := rfl
@[simp] theorem beginCommand_pix (s : State) : s.beginCommand.pix = s.pix := rfl
@[simp] theorem beginCommand_idx (s : State) : s.beginCommand.idx = s.idx := rfl
@[simp] theorem beginCommand_art (s : State) : s.beginCommand.art = s.art := rfl
@[simp] theorem beginCommand_cap (s : State) : s.beginCommand.cap = s.cap := rfl
@[simp] theorem beginCommand_draws (s : State) : s.beginCommand.draws = s.draws := rfl
@[simp] theorem beginCommand_script (s : State) : s.beginCommand.script = s.script := rfl
@[simp] theorem beginCommand_reply (s : State) : s.beginCommand.reply = s.reply := rfl

/-! ### `finish` -/

@[simp] theorem finish_w (s : State) : s.finish.w = s.w := rfl
@[simp] theorem finish_h (s : State) : s.finish.h = s.h := rfl
@[simp] theorem finish_tilew (s : State) : s.finish.tilew = s.tilew := rfl
@[simp] theorem finish_levels (s : State) : s.finish.levels = s.levels := rfl
@[simp] theorem finish_invert (s : State) : s.finish.invert = s.invert := rfl
@[simp] theorem finish_angle (s : State) : s.finish.angle = s.angle := rfl
@[simp] theorem finish_pixlen (s : State) : s.finish.pixlen = s.pixlen := rfl
@[simp] theorem finish_idxlen (s : State) : s.finish.idxlen = s.idxlen := rfl
@[simp] theorem finish_alen (s : State) : s.finish.alen = s.alen := rfl
@[simp] theorem finish_rcount (s : State) : s.finish.rcount = s.rcount := rfl
@[simp] theorem finish_bw (s : State) : s.finish.bw = s.bw := rfl
@[simp] theorem finish_bh (s : State) : s.finish.bh = s.bh := rfl
@[simp] theorem finish_iw (s : State) : s.finish.iw = s.iw := rfl
@[simp] theorem finish_ih (s : State) : s.finish.ih = s.ih := rfl
@[simp] theorem finish_done (s : State) : s.finish.done = true := rfl
@[simp] theorem finish_err (s : State) : s.finish.err = s.err := rfl
@[simp] theorem finish_errcode (s : State) : s.finish.errcode = s.errcode := rfl
@[simp] theorem finish_errExpect (s : State) : s.finish.errExpect = s.errExpect := rfl
@[simp] theorem finish_errActual (s : State) : s.finish.errActual = s.errActual := rfl
@[simp] theorem finish_st (s : State) : s.finish.st = .idle := rfl
@[simp] theorem finish_y (s : State) : s.finish.y = s.y := rfl
@[simp] theorem finish_x (s : State) : s.finish.x = s.x := rfl
@[simp] theorem finish_cend (s : State) : s.finish.cend = s.cend := rfl
@[simp] theorem finish_rl (s : State) : s.finish.rl = s.rl := rfl
@[simp] theorem finish_k (s : State) : s.finish.k = s.k := rfl
@[simp] theorem finish_n (s : State) : s.finish.n = s.n := rfl
@[simp] theorem finish_i (s : State) : s.finish.i = s.i := rfl
@[simp] theorem finish_pix (s : State) : s.finish.pix = s.pix := rfl
@[simp] theorem finish_idx (s : State) : s.finish.idx = s.idx := rfl
@[simp] theorem finish_art (s : State) : s.finish.art = s.art := rfl
@[simp] theorem finish_cap (s : State) : s.finish.cap = s.cap := rfl
@[simp] theorem finish_draws (s : State) : s.finish.draws = s.draws := rfl
@[simp] theorem finish_script (s : State) : s.finish.script = s.script := rfl
@[simp] theorem finish_reply (s : State) : s.finish.reply = s.reply := rfl

/-! ### `enterError` -/

@[simp] theorem enterError_w (s : State) (c : ErrorCause) : (s.enterError c).w = s.w := rfl
@[simp] theorem enterError_h (s : State) (c : ErrorCause) : (s.enterError c).h = s.h := rfl
@[simp] theorem enterError_tilew (s : State) (c : ErrorCause) : (s.enterError c).tilew = s.tilew := rfl
@[simp] theorem enterError_levels (s : State) (c : ErrorCause) : (s.enterError c).levels = s.levels := rfl
@[simp] theorem enterError_invert (s : State) (c : ErrorCause) : (s.enterError c).invert = s.invert := rfl
@[simp] theorem enterError_angle (s : State) (c : ErrorCause) : (s.enterError c).angle = s.angle := rfl
@[simp] theorem enterError_pixlen (s : State) (c : ErrorCause) : (s.enterError c).pixlen = s.pixlen := rfl
@[simp] theorem enterError_idxlen (s : State) (c : ErrorCause) : (s.enterError c).idxlen = s.idxlen := rfl
@[simp] theorem enterError_alen (s : State) (c : ErrorCause) : (s.enterError c).alen = s.alen := rfl
@[simp] theorem enterError_rcount (s : State) (c : ErrorCause) : (s.enterError c).rcount = s.rcount := rfl
@[simp] theorem enterError_bw (s : State) (c : ErrorCause) : (s.enterError c).bw = s.bw := rfl
@[simp] theorem enterError_bh (s : State) (c : ErrorCause) : (s.enterError c).bh = s.bh := rfl
@[simp] theorem enterError_iw (s : State) (c : ErrorCause) : (s.enterError c).iw = s.iw := rfl
@[simp] theorem enterError_ih (s : State) (c : ErrorCause) : (s.enterError c).ih = s.ih := rfl
@[simp] theorem enterError_done (s : State) (c : ErrorCause) : (s.enterError c).done = true := rfl
@[simp] theorem enterError_err (s : State) (c : ErrorCause) : (s.enterError c).err = true := rfl
@[simp] theorem enterError_errcode (s : State) (c : ErrorCause) : (s.enterError c).errcode = c.code := rfl
@[simp] theorem enterError_errExpect (s : State) (c : ErrorCause) : (s.enterError c).errExpect = s.errExpect := rfl
@[simp] theorem enterError_errActual (s : State) (c : ErrorCause) : (s.enterError c).errActual = s.errActual := rfl
@[simp] theorem enterError_st (s : State) (c : ErrorCause) : (s.enterError c).st = .idle := rfl
@[simp] theorem enterError_y (s : State) (c : ErrorCause) : (s.enterError c).y = s.y := rfl
@[simp] theorem enterError_x (s : State) (c : ErrorCause) : (s.enterError c).x = s.x := rfl
@[simp] theorem enterError_cend (s : State) (c : ErrorCause) : (s.enterError c).cend = s.cend := rfl
@[simp] theorem enterError_rl (s : State) (c : ErrorCause) : (s.enterError c).rl = s.rl := rfl
@[simp] theorem enterError_k (s : State) (c : ErrorCause) : (s.enterError c).k = s.k := rfl
@[simp] theorem enterError_n (s : State) (c : ErrorCause) : (s.enterError c).n = s.n := rfl
@[simp] theorem enterError_i (s : State) (c : ErrorCause) : (s.enterError c).i = s.i := rfl
@[simp] theorem enterError_pix (s : State) (c : ErrorCause) : (s.enterError c).pix = s.pix := rfl
@[simp] theorem enterError_idx (s : State) (c : ErrorCause) : (s.enterError c).idx = s.idx := rfl
@[simp] theorem enterError_art (s : State) (c : ErrorCause) : (s.enterError c).art = s.art := rfl
@[simp] theorem enterError_cap (s : State) (c : ErrorCause) : (s.enterError c).cap = s.cap := rfl
@[simp] theorem enterError_draws (s : State) (c : ErrorCause) : (s.enterError c).draws = s.draws := rfl
@[simp] theorem enterError_script (s : State) (c : ErrorCause) : (s.enterError c).script = s.script := rfl
@[simp] theorem enterError_reply (s : State) (c : ErrorCause) : (s.enterError c).reply = s.reply := rfl

/-! ### `clearResults` -/

@[simp] theorem clearResults_w (s : State) (op : Op) : (s.clearResults op).w = s.w := by cases op <;> rfl
@[simp] theorem clearResults_h (s : State) (op : Op) : (s.clearResults op).h = s.h := by cases op <;> rfl
@[simp] theorem clearResults_tilew (s : State) (op : Op) : (s.clearResults op).tilew = s.tilew := by cases op <;> rfl
@[simp] theorem clearResults_levels (s : State) (op : Op) : (s.clearResults op).levels = s.levels := by cases op <;> rfl
@[simp] theorem clearResults_invert (s : State) (op : Op) : (s.clearResults op).invert = s.invert := by cases op <;> rfl
@[simp] theorem clearResults_angle (s : State) (op : Op) : (s.clearResults op).angle = s.angle := by cases op <;> rfl
@[simp] theorem clearResults_pixlen (s : State) (op : Op) : (s.clearResults op).pixlen = s.pixlen := by cases op <;> rfl
@[simp] theorem clearResults_done (s : State) (op : Op) : (s.clearResults op).done = s.done := by cases op <;> rfl
@[simp] theorem clearResults_err (s : State) (op : Op) : (s.clearResults op).err = s.err := by cases op <;> rfl
@[simp] theorem clearResults_errcode (s : State) (op : Op) : (s.clearResults op).errcode = s.errcode := by cases op <;> rfl
@[simp] theorem clearResults_errExpect (s : State) (op : Op) : (s.clearResults op).errExpect = s.errExpect := by cases op <;> rfl
@[simp] theorem clearResults_errActual (s : State) (op : Op) : (s.clearResults op).errActual = s.errActual := by cases op <;> rfl
@[simp] theorem clearResults_st (s : State) (op : Op) : (s.clearResults op).st = s.st := by cases op <;> rfl
@[simp] theorem clearResults_y (s : State) (op : Op) : (s.clearResults op).y = s.y := by cases op <;> rfl
@[simp] theorem clearResults_x (s : State) (op : Op) : (s.clearResults op).x = s.x := by cases op <;> rfl
@[simp] theorem clearResults_cend (s : State) (op : Op) : (s.clearResults op).cend = s.cend := by cases op <;> rfl
@[simp] theorem clearResults_rl (s : State) (op : Op) : (s.clearResults op).rl = s.rl := by cases op <;> rfl
@[simp] theorem clearResults_k (s : State) (op : Op) : (s.clearResults op).k = s.k := by cases op <;> rfl
@[simp] theorem clearResults_n (s : State) (op : Op) : (s.clearResults op).n = s.n := by cases op <;> rfl
@[simp] theorem clearResults_i (s : State) (op : Op) : (s.clearResults op).i = s.i := by cases op <;> rfl
@[simp] theorem clearResults_pix (s : State) (op : Op) : (s.clearResults op).pix = s.pix := by cases op <;> rfl
@[simp] theorem clearResults_cap (s : State) (op : Op) : (s.clearResults op).cap = s.cap := by cases op <;> rfl
@[simp] theorem clearResults_draws (s : State) (op : Op) : (s.clearResults op).draws = s.draws := by cases op <;> rfl
@[simp] theorem clearResults_script (s : State) (op : Op) : (s.clearResults op).script = s.script := by cases op <;> rfl
@[simp] theorem clearResults_reply (s : State) (op : Op) : (s.clearResults op).reply = s.reply := by cases op <;> rfl

/-! ### `raise` -/

@[simp] theorem raise_w (s : State) (op : Op) (c : ErrorCause) : (s.raise op c).w = s.w := by cases op <;> rfl
@[simp] theorem raise_h (s : State) (op : Op) (c : ErrorCause) : (s.raise op c).h = s.h := by cases op <;> rfl
@[simp] theorem raise_tilew (s : State) (op : Op) (c : ErrorCause) : (s.raise op c).tilew = s.tilew := by cases op <;> rfl
@[simp] theorem raise_levels (s : State) (op : Op) (c : ErrorCause) : (s.raise op c).levels = s.levels := by cases op <;> rfl
@[simp] theorem raise_invert (s : State) (op : Op) (c : ErrorCause) : (s.raise op c).invert = s.invert := by cases op <;> rfl
@[simp] theorem raise_angle (s : State) (op : Op) (c : ErrorCause) : (s.raise op c).angle = s.angle := by cases op <;> rfl
@[simp] theorem raise_pixlen (s : State) (op : Op) (c : ErrorCause) : (s.raise op c).pixlen = s.pixlen := by cases op <;> rfl
@[simp] theorem raise_idxlen (s : State) (op : Op) (c : ErrorCause) : (s.raise op c).idxlen = (s.clearResults op).idxlen := by cases op <;> rfl
@[simp] theorem raise_alen (s : State) (op : Op) (c : ErrorCause) : (s.raise op c).alen = (s.clearResults op).alen := by cases op <;> rfl
@[simp] theorem raise_rcount (s : State) (op : Op) (c : ErrorCause) : (s.raise op c).rcount = (s.clearResults op).rcount := by cases op <;> rfl
@[simp] theorem raise_bw (s : State) (op : Op) (c : ErrorCause) : (s.raise op c).bw = (s.clearResults op).bw := by cases op <;> rfl
@[simp] theorem raise_bh (s : State) (op : Op) (c : ErrorCause) : (s.raise op c).bh = (s.clearResults op).bh := by cases op <;> rfl
@[simp] theorem raise_iw (s : State) (op : Op) (c : ErrorCause) : (s.raise op c).iw = (s.clearResults op).iw := by cases op <;> rfl
@[simp] theorem raise_ih (s : State) (op : Op) (c : ErrorCause) : (s.raise op c).ih = (s.clearResults op).ih := by cases op <;> rfl
@[simp] theorem raise_done (s : State) (op : Op) (c : ErrorCause) : (s.raise op c).done = true := by cases op <;> rfl
@[simp] theorem raise_err (s : State) (op : Op) (c : ErrorCause) : (s.raise op c).err = true := by cases op <;> rfl
@[simp] theorem raise_errcode (s : State) (op : Op) (c : ErrorCause) : (s.raise op c).errcode = c.code := by cases op <;> rfl
@[simp] theorem raise_errExpect (s : State) (op : Op) (c : ErrorCause) : (s.raise op c).errExpect = s.errExpect := by cases op <;> rfl
@[simp] theorem raise_errActual (s : State) (op : Op) (c : ErrorCause) : (s.raise op c).errActual = s.errActual := by cases op <;> rfl
@[simp] theorem raise_st (s : State) (op : Op) (c : ErrorCause) : (s.raise op c).st = .idle := by cases op <;> rfl
@[simp] theorem raise_y (s : State) (op : Op) (c : ErrorCause) : (s.raise op c).y = s.y := by cases op <;> rfl
@[simp] theorem raise_x (s : State) (op : Op) (c : ErrorCause) : (s.raise op c).x = s.x := by cases op <;> rfl
@[simp] theorem raise_cend (s : State) (op : Op) (c : ErrorCause) : (s.raise op c).cend = s.cend := by cases op <;> rfl
@[simp] theorem raise_rl (s : State) (op : Op) (c : ErrorCause) : (s.raise op c).rl = s.rl := by cases op <;> rfl
@[simp] theorem raise_k (s : State) (op : Op) (c : ErrorCause) : (s.raise op c).k = s.k := by cases op <;> rfl
@[simp] theorem raise_n (s : State) (op : Op) (c : ErrorCause) : (s.raise op c).n = s.n := by cases op <;> rfl
@[simp] theorem raise_i (s : State) (op : Op) (c : ErrorCause) : (s.raise op c).i = s.i := by cases op <;> rfl
@[simp] theorem raise_pix (s : State) (op : Op) (c : ErrorCause) : (s.raise op c).pix = s.pix := by cases op <;> rfl
@[simp] theorem raise_idx (s : State) (op : Op) (c : ErrorCause) : (s.raise op c).idx = (s.clearResults op).idx := by cases op <;> rfl
@[simp] theorem raise_art (s : State) (op : Op) (c : ErrorCause) : (s.raise op c).art = (s.clearResults op).art := by cases op <;> rfl
@[simp] theorem raise_cap (s : State) (op : Op) (c : ErrorCause) : (s.raise op c).cap = s.cap := by cases op <;> rfl
@[simp] theorem raise_draws (s : State) (op : Op) (c : ErrorCause) : (s.raise op c).draws = s.draws := by cases op <;> rfl
@[simp] theorem raise_script (s : State) (op : Op) (c : ErrorCause) : (s.raise op c).script = s.script := by cases op <;> rfl
@[simp] theorem raise_reply (s : State) (op : Op) (c : ErrorCause) : (s.raise op c).reply = s.reply := by cases op <;> rfl

/-! ### `startScan` -/

@[simp] theorem startScan_w (s : State) : s.startScan.w = s.w := rfl
@[simp] theorem startScan_h (s : State) : s.startScan.h = s.h := rfl
@[simp] theorem startScan_tilew (s : State) : s.startScan.tilew = s.tilew := rfl
@[simp] theorem startScan_levels (s : State) : s.startScan.levels = s.levels := rfl
@[simp] theorem startScan_invert (s : State) : s.startScan.invert = s.invert := rfl
@[simp] theorem startScan_angle (s : State) : s.startScan.angle = s.angle := rfl
@[simp] theorem startScan_pixlen (s : State) : s.startScan.pixlen = s.pixlen := rfl
@[simp] theorem startScan_idxlen (s : State) : s.startScan.idxlen = s.idxlen := rfl
@[simp] theorem startScan_alen (s : State) : s.startScan.alen = s.alen := rfl
@[simp] theorem startScan_rcount (s : State) : s.startScan.rcount = s.rcount := rfl
@[simp] theorem startScan_bw (s : State) : s.startScan.bw = s.bw := rfl
@[simp] theorem startScan_bh (s : State) : s.startScan.bh = s.bh := rfl
@[simp] theorem startScan_iw (s : State) : s.startScan.iw = s.iw := rfl
@[simp] theorem startScan_ih (s : State) : s.startScan.ih = s.ih := rfl
@[simp] theorem startScan_done (s : State) : s.startScan.done = s.done := rfl
@[simp] theorem startScan_err (s : State) : s.startScan.err = s.err := rfl
@[simp] theorem startScan_errcode (s : State) : s.startScan.errcode = s.errcode := rfl
@[simp] theorem startScan_errExpect (s : State) : s.startScan.errExpect = s.errExpect := rfl
@[simp] theorem startScan_errActual (s : State) : s.startScan.errActual = s.errActual := rfl
@[simp] theorem startScan_st (s : State) : s.startScan.st = s.st := rfl
@[simp] theorem startScan_y (s : State) : s.startScan.y = 0 := rfl
@[simp] theorem startScan_x (s : State) : s.startScan.x = 0 := rfl
@[simp] theorem startScan_cend (s : State) : s.startScan.cend = toCursor (min s.tilew.toNat s.w.toNat) := rfl
@[simp] theorem startScan_rl (s : State) : s.startScan.rl = 0 := rfl
@[simp] theorem startScan_k (s : State) : s.startScan.k = 0 := rfl
@[simp] theorem startScan_n (s : State) : s.startScan.n = s.n := rfl
@[simp] theorem startScan_i (s : State) : s.startScan.i = s.i := rfl
@[simp] theorem startScan_pix (s : State) : s.startScan.pix = s.pix := rfl
@[simp] theorem startScan_idx (s : State) : s.startScan.idx = s.idx := rfl
@[simp] theorem startScan_art (s : State) : s.startScan.art = s.art := rfl
@[simp] theorem startScan_cap (s : State) : s.startScan.cap = s.cap := rfl
@[simp] theorem startScan_draws (s : State) : s.startScan.draws = s.draws := rfl
@[simp] theorem startScan_script (s : State) : s.startScan.script = s.script := rfl
@[simp] theorem startScan_reply (s : State) : s.startScan.reply = s.reply := rfl

/-! ### `setPixlen` -/

@[simp] theorem setPixlen_w (s : State) (v : Len) : (s.setPixlen v).w = s.w := rfl
@[simp] theorem setPixlen_h (s : State) (v : Len) : (s.setPixlen v).h = s.h := rfl
@[simp] theorem setPixlen_tilew (s : State) (v : Len) : (s.setPixlen v).tilew = s.tilew := rfl
@[simp] theorem setPixlen_levels (s : State) (v : Len) : (s.setPixlen v).levels = s.levels := rfl
@[simp] theorem setPixlen_invert (s : State) (v : Len) : (s.setPixlen v).invert = s.invert := rfl
@[simp] theorem setPixlen_angle (s : State) (v : Len) : (s.setPixlen v).angle = s.angle := rfl
@[simp] theorem setPixlen_pixlen (s : State) (v : Len) : (s.setPixlen v).pixlen = v := rfl
@[simp] theorem setPixlen_idxlen (s : State) (v : Len) : (s.setPixlen v).idxlen = s.idxlen := rfl
@[simp] theorem setPixlen_alen (s : State) (v : Len) : (s.setPixlen v).alen = s.alen := rfl
@[simp] theorem setPixlen_rcount (s : State) (v : Len) : (s.setPixlen v).rcount = s.rcount := rfl
@[simp] theorem setPixlen_bw (s : State) (v : Len) : (s.setPixlen v).bw = s.bw := rfl
@[simp] theorem setPixlen_bh (s : State) (v : Len) : (s.setPixlen v).bh = s.bh := rfl
@[simp] theorem setPixlen_iw (s : State) (v : Len) : (s.setPixlen v).iw = s.iw := rfl
@[simp] theorem setPixlen_ih (s : State) (v : Len) : (s.setPixlen v).ih = s.ih := rfl
@[simp] theorem setPixlen_done (s : State) (v : Len) : (s.setPixlen v).done = s.done := rfl
@[simp] theorem setPixlen_err (s : State) (v : Len) : (s.setPixlen v).err = s.err := rfl
@[simp] theorem setPixlen_errcode (s : State) (v : Len) : (s.setPixlen v).errcode = s.errcode := rfl
@[simp] theorem setPixlen_errExpect (s : State) (v : Len) : (s.setPixlen v).errExpect = s.errExpect := rfl
@[simp] theorem setPixlen_errActual (s : State) (v : Len) : (s.setPixlen v).errActual = s.errActual := rfl
@[simp] theorem setPixlen_st (s : State) (v : Len) : (s.setPixlen v).st = s.st := rfl
@[simp] theorem setPixlen_y (s : State) (v : Len) : (s.setPixlen v).y = s.y := rfl
@[simp] theorem setPixlen_x (s : State) (v : Len) : (s.setPixlen v).x = s.x := rfl
@[simp] theorem setPixlen_cend (s : State) (v : Len) : (s.setPixlen v).cend = s.cend := rfl
@[simp] theorem setPixlen_rl (s : State) (v : Len) : (s.setPixlen v).rl = s.rl := rfl
@[simp] theorem setPixlen_k (s : State) (v : Len) : (s.setPixlen v).k = s.k := rfl
@[simp] theorem setPixlen_n (s : State) (v : Len) : (s.setPixlen v).n = s.n := rfl
@[simp] theorem setPixlen_i (s : State) (v : Len) : (s.setPixlen v).i = s.i := rfl
@[simp] theorem setPixlen_pix (s : State) (v : Len) : (s.setPixlen v).pix = s.pix.keepBelow v.toNat := rfl
@[simp] theorem setPixlen_idx (s : State) (v : Len) : (s.setPixlen v).idx = s.idx := rfl
@[simp] theorem setPixlen_art (s : State) (v : Len) : (s.setPixlen v).art = s.art := rfl
@[simp] theorem setPixlen_cap (s : State) (v : Len) : (s.setPixlen v).cap = s.cap := rfl
@[simp] theorem setPixlen_draws (s : State) (v : Len) : (s.setPixlen v).draws = s.draws := rfl
@[simp] theorem setPixlen_script (s : State) (v : Len) : (s.setPixlen v).script = s.script := rfl
@[simp] theorem setPixlen_reply (s : State) (v : Len) : (s.setPixlen v).reply = s.reply := rfl

/-! ### `setIdxlen` -/

@[simp] theorem setIdxlen_w (s : State) (v : Len) : (s.setIdxlen v).w = s.w := rfl
@[simp] theorem setIdxlen_h (s : State) (v : Len) : (s.setIdxlen v).h = s.h := rfl
@[simp] theorem setIdxlen_tilew (s : State) (v : Len) : (s.setIdxlen v).tilew = s.tilew := rfl
@[simp] theorem setIdxlen_levels (s : State) (v : Len) : (s.setIdxlen v).levels = s.levels := rfl
@[simp] theorem setIdxlen_invert (s : State) (v : Len) : (s.setIdxlen v).invert = s.invert := rfl
@[simp] theorem setIdxlen_angle (s : State) (v : Len) : (s.setIdxlen v).angle = s.angle := rfl
@[simp] theorem setIdxlen_pixlen (s : State) (v : Len) : (s.setIdxlen v).pixlen = s.pixlen := rfl
@[simp] theorem setIdxlen_idxlen (s : State) (v : Len) : (s.setIdxlen v).idxlen = v := rfl
@[simp] theorem setIdxlen_alen (s : State) (v : Len) : (s.setIdxlen v).alen = s.alen := rfl
@[simp] theorem setIdxlen_rcount (s : State) (v : Len) : (s.setIdxlen v).rcount = s.rcount := rfl
@[simp] theorem setIdxlen_bw (s : State) (v : Len) : (s.setIdxlen v).bw = s.bw := rfl
@[simp] theorem setIdxlen_bh (s : State) (v : Len) : (s.setIdxlen v).bh = s.bh := rfl
@[simp] theorem setIdxlen_iw (s : State) (v : Len) : (s.setIdxlen v).iw = s.iw := rfl
@[simp] theorem setIdxlen_ih (s : State) (v : Len) : (s.setIdxlen v).ih = s.ih := rfl
@[simp] theorem setIdxlen_done (s : State) (v : Len) : (s.setIdxlen v).done = s.done := rfl
@[simp] theorem setIdxlen_err (s : State) (v : Len) : (s.setIdxlen v).err = s.err := rfl
@[simp] theorem setIdxlen_errcode (s : State) (v : Len) : (s.setIdxlen v).errcode = s.errcode := rfl
@[simp] theorem setIdxlen_errExpect (s : State) (v : Len) : (s.setIdxlen v).errExpect = s.errExpect := rfl
@[simp] theorem setIdxlen_errActual (s : State) (v : Len) : (s.setIdxlen v).errActual = s.errActual := rfl
@[simp] theorem setIdxlen_st (s : State) (v : Len) : (s.setIdxlen v).st = s.st := rfl
@[simp] theorem setIdxlen_y (s : State) (v : Len) : (s.setIdxlen v).y = s.y := rfl
@[simp] theorem setIdxlen_x (s : State) (v : Len) : (s.setIdxlen v).x = s.x := rfl
@[simp] theorem setIdxlen_cend (s : State) (v : Len) : (s.setIdxlen v).cend = s.cend := rfl
@[simp] theorem setIdxlen_rl (s : State) (v : Len) : (s.setIdxlen v).rl = s.rl := rfl
@[simp] theorem setIdxlen_k (s : State) (v : Len) : (s.setIdxlen v).k = s.k := rfl
@[simp] theorem setIdxlen_n (s : State) (v : Len) : (s.setIdxlen v).n = s.n := rfl
@[simp] theorem setIdxlen_i (s : State) (v : Len) : (s.setIdxlen v).i = s.i := rfl
@[simp] theorem setIdxlen_pix (s : State) (v : Len) : (s.setIdxlen v).pix = s.pix := rfl
@[simp] theorem setIdxlen_idx (s : State) (v : Len) : (s.setIdxlen v).idx = s.idx.keepBelow v.toNat := rfl
@[simp] theorem setIdxlen_art (s : State) (v : Len) : (s.setIdxlen v).art = s.art := rfl
@[simp] theorem setIdxlen_cap (s : State) (v : Len) : (s.setIdxlen v).cap = s.cap := rfl
@[simp] theorem setIdxlen_draws (s : State) (v : Len) : (s.setIdxlen v).draws = s.draws := rfl
@[simp] theorem setIdxlen_script (s : State) (v : Len) : (s.setIdxlen v).script = s.script := rfl
@[simp] theorem setIdxlen_reply (s : State) (v : Len) : (s.setIdxlen v).reply = s.reply := rfl

/-! ### `setAlen` -/

@[simp] theorem setAlen_w (s : State) (v : Len) : (s.setAlen v).w = s.w := rfl
@[simp] theorem setAlen_h (s : State) (v : Len) : (s.setAlen v).h = s.h := rfl
@[simp] theorem setAlen_tilew (s : State) (v : Len) : (s.setAlen v).tilew = s.tilew := rfl
@[simp] theorem setAlen_levels (s : State) (v : Len) : (s.setAlen v).levels = s.levels := rfl
@[simp] theorem setAlen_invert (s : State) (v : Len) : (s.setAlen v).invert = s.invert := rfl
@[simp] theorem setAlen_angle (s : State) (v : Len) : (s.setAlen v).angle = s.angle := rfl
@[simp] theorem setAlen_pixlen (s : State) (v : Len) : (s.setAlen v).pixlen = s.pixlen := rfl
@[simp] theorem setAlen_idxlen (s : State) (v : Len) : (s.setAlen v).idxlen = s.idxlen := rfl
@[simp] theorem setAlen_alen (s : State) (v : Len) : (s.setAlen v).alen = v := rfl
@[simp] theorem setAlen_rcount (s : State) (v : Len) : (s.setAlen v).rcount = s.rcount := rfl
@[simp] theorem setAlen_bw (s : State) (v : Len) : (s.setAlen v).bw = s.bw := rfl
@[simp] theorem setAlen_bh (s : State) (v : Len) : (s.setAlen v).bh = s.bh := rfl
@[simp] theorem setAlen_iw (s : State) (v : Len) : (s.setAlen v).iw = s.iw := rfl
@[simp] theorem setAlen_ih (s : State) (v : Len) : (s.setAlen v).ih = s.ih := rfl
@[simp] theorem setAlen_done (s : State) (v : Len) : (s.setAlen v).done = s.done := rfl
@[simp] theorem setAlen_err (s : State) (v : Len) : (s.setAlen v).err = s.err := rfl
@[simp] theorem setAlen_errcode (s : State) (v : Len) : (s.setAlen v).errcode = s.errcode := rfl
@[simp] theorem setAlen_errExpect (s : State) (v : Len) : (s.setAlen v).errExpect = s.errExpect := rfl
@[simp] theorem setAlen_errActual (s : State) (v : Len) : (s.setAlen v).errActual = s.errActual := rfl
@[simp] theorem setAlen_st (s : State) (v : Len) : (s.setAlen v).st = s.st := rfl
@[simp] theorem setAlen_y (s : State) (v : Len) : (s.setAlen v).y = s.y := rfl
@[simp] theorem setAlen_x (s : State) (v : Len) : (s.setAlen v).x = s.x := rfl
@[simp] theorem setAlen_cend (s : State) (v : Len) : (s.setAlen v).cend = s.cend := rfl
@[simp] theorem setAlen_rl (s : State) (v : Len) : (s.setAlen v).rl = s.rl := rfl
@[simp] theorem setAlen_k (s : State) (v : Len) : (s.setAlen v).k = s.k := rfl
@[simp] theorem setAlen_n (s : State) (v : Len) : (s.setAlen v).n = s.n := rfl
@[simp] theorem setAlen_i (s : State) (v : Len) : (s.setAlen v).i = s.i := rfl
@[simp] theorem setAlen_pix (s : State) (v : Len) : (s.setAlen v).pix = s.pix := rfl
@[simp] theorem setAlen_idx (s : State) (v : Len) : (s.setAlen v).idx = s.idx := rfl
@[simp] theorem setAlen_art (s : State) (v : Len) : (s.setAlen v).art = s.art.keepBelow v.toNat := rfl
@[simp] theorem setAlen_cap (s : State) (v : Len) : (s.setAlen v).cap = s.cap := rfl
@[simp] theorem setAlen_draws (s : State) (v : Len) : (s.setAlen v).draws = s.draws := rfl
@[simp] theorem setAlen_script (s : State) (v : Len) : (s.setAlen v).script = s.script := rfl
@[simp] theorem setAlen_reply (s : State) (v : Len) : (s.setAlen v).reply = s.reply := rfl

/-! ### `setBox` -/

@[simp] theorem setBox_w (s : State) (p : Nat × Nat) : (s.setBox p).w = s.w := rfl
@[simp] theorem setBox_h (s : State) (p : Nat × Nat) : (s.setBox p).h = s.h := rfl
@[simp] theorem setBox_tilew (s : State) (p : Nat × Nat) : (s.setBox p).tilew = s.tilew := rfl
@[simp] theorem setBox_levels (s : State) (p : Nat × Nat) : (s.setBox p).levels = s.levels := rfl
@[simp] theorem setBox_invert (s : State) (p : Nat × Nat) : (s.setBox p).invert = s.invert := rfl
@[simp] theorem setBox_angle (s : State) (p : Nat × Nat) : (s.setBox p).angle = s.angle := rfl
@[simp] theorem setBox_pixlen (s : State) (p : Nat × Nat) : (s.setBox p).pixlen = s.pixlen := rfl
@[simp] theorem setBox_idxlen (s : State) (p : Nat × Nat) : (s.setBox p).idxlen = s.idxlen := rfl
@[simp] theorem setBox_alen (s : State) (p : Nat × Nat) : (s.setBox p).alen = s.alen := rfl
@[simp] theorem setBox_rcount (s : State) (p : Nat × Nat) : (s.setBox p).rcount = s.rcount := rfl
@[simp] theorem setBox_bw (s : State) (p : Nat × Nat) : (s.setBox p).bw = BitVec.ofNat 32 p.1 := rfl
@[simp] theorem setBox_bh (s : State) (p : Nat × Nat) : (s.setBox p).bh = BitVec.ofNat 32 p.2 := rfl
@[simp] theorem setBox_iw (s : State) (p : Nat × Nat) : (s.setBox p).iw = s.iw := rfl
@[simp] theorem setBox_ih (s : State) (p : Nat × Nat) : (s.setBox p).ih = s.ih := rfl
@[simp] theorem setBox_done (s : State) (p : Nat × Nat) : (s.setBox p).done = s.done := rfl
@[simp] theorem setBox_err (s : State) (p : Nat × Nat) : (s.setBox p).err = s.err := rfl
@[simp] theorem setBox_errcode (s : State) (p : Nat × Nat) : (s.setBox p).errcode = s.errcode := rfl
@[simp] theorem setBox_errExpect (s : State) (p : Nat × Nat) : (s.setBox p).errExpect = s.errExpect := rfl
@[simp] theorem setBox_errActual (s : State) (p : Nat × Nat) : (s.setBox p).errActual = s.errActual := rfl
@[simp] theorem setBox_st (s : State) (p : Nat × Nat) : (s.setBox p).st = s.st := rfl
@[simp] theorem setBox_y (s : State) (p : Nat × Nat) : (s.setBox p).y = s.y := rfl
@[simp] theorem setBox_x (s : State) (p : Nat × Nat) : (s.setBox p).x = s.x := rfl
@[simp] theorem setBox_cend (s : State) (p : Nat × Nat) : (s.setBox p).cend = s.cend := rfl
@[simp] theorem setBox_rl (s : State) (p : Nat × Nat) : (s.setBox p).rl = s.rl := rfl
@[simp] theorem setBox_k (s : State) (p : Nat × Nat) : (s.setBox p).k = s.k := rfl
@[simp] theorem setBox_n (s : State) (p : Nat × Nat) : (s.setBox p).n = s.n := rfl
@[simp] theorem setBox_i (s : State) (p : Nat × Nat) : (s.setBox p).i = s.i := rfl
@[simp] theorem setBox_pix (s : State) (p : Nat × Nat) : (s.setBox p).pix = s.pix := rfl
@[simp] theorem setBox_idx (s : State) (p : Nat × Nat) : (s.setBox p).idx = s.idx := rfl
@[simp] theorem setBox_art (s : State) (p : Nat × Nat) : (s.setBox p).art = s.art := rfl
@[simp] theorem setBox_cap (s : State) (p : Nat × Nat) : (s.setBox p).cap = s.cap := rfl
@[simp] theorem setBox_draws (s : State) (p : Nat × Nat) : (s.setBox p).draws = s.draws := rfl
@[simp] theorem setBox_script (s : State) (p : Nat × Nat) : (s.setBox p).script = s.script := rfl
@[simp] theorem setBox_reply (s : State) (p : Nat × Nat) : (s.setBox p).reply = s.reply := rfl

/-! ### `setRect` -/

@[simp] theorem setRect_w (s : State) (p : Nat × Nat) : (s.setRect p).w = s.w := rfl
@[simp] theorem setRect_h (s : State) (p : Nat × Nat) : (s.setRect p).h = s.h := rfl
@[simp] theorem setRect_tilew (s : State) (p : Nat × Nat) : (s.setRect p).tilew = s.tilew := rfl
@[simp] theorem setRect_levels (s : State) (p : Nat × Nat) : (s.setRect p).levels = s.levels := rfl
@[simp] theorem setRect_invert (s : State) (p : Nat × Nat) : (s.setRect p).invert = s.invert := rfl
@[simp] theorem setRect_angle (s : State) (p : Nat × Nat) : (s.setRect p).angle = s.angle := rfl
@[simp] theorem setRect_pixlen (s : State) (p : Nat × Nat) : (s.setRect p).pixlen = s.pixlen := rfl
@[simp] theorem setRect_idxlen (s : State) (p : Nat × Nat) : (s.setRect p).idxlen = s.idxlen := rfl
@[simp] theorem setRect_alen (s : State) (p : Nat × Nat) : (s.setRect p).alen = s.alen := rfl
@[simp] theorem setRect_rcount (s : State) (p : Nat × Nat) : (s.setRect p).rcount = s.rcount := rfl
@[simp] theorem setRect_bw (s : State) (p : Nat × Nat) : (s.setRect p).bw = s.bw := rfl
@[simp] theorem setRect_bh (s : State) (p : Nat × Nat) : (s.setRect p).bh = s.bh := rfl
@[simp] theorem setRect_iw (s : State) (p : Nat × Nat) : (s.setRect p).iw = BitVec.ofNat 32 p.1 := rfl
@[simp] theorem setRect_ih (s : State) (p : Nat × Nat) : (s.setRect p).ih = BitVec.ofNat 32 p.2 := rfl
@[simp] theorem setRect_done (s : State) (p : Nat × Nat) : (s.setRect p).done = s.done := rfl
@[simp] theorem setRect_err (s : State) (p : Nat × Nat) : (s.setRect p).err = s.err := rfl
@[simp] theorem setRect_errcode (s : State) (p : Nat × Nat) : (s.setRect p).errcode = s.errcode := rfl
@[simp] theorem setRect_errExpect (s : State) (p : Nat × Nat) : (s.setRect p).errExpect = s.errExpect := rfl
@[simp] theorem setRect_errActual (s : State) (p : Nat × Nat) : (s.setRect p).errActual = s.errActual := rfl
@[simp] theorem setRect_st (s : State) (p : Nat × Nat) : (s.setRect p).st = s.st := rfl
@[simp] theorem setRect_y (s : State) (p : Nat × Nat) : (s.setRect p).y = s.y := rfl
@[simp] theorem setRect_x (s : State) (p : Nat × Nat) : (s.setRect p).x = s.x := rfl
@[simp] theorem setRect_cend (s : State) (p : Nat × Nat) : (s.setRect p).cend = s.cend := rfl
@[simp] theorem setRect_rl (s : State) (p : Nat × Nat) : (s.setRect p).rl = s.rl := rfl
@[simp] theorem setRect_k (s : State) (p : Nat × Nat) : (s.setRect p).k = s.k := rfl
@[simp] theorem setRect_n (s : State) (p : Nat × Nat) : (s.setRect p).n = s.n := rfl
@[simp] theorem setRect_i (s : State) (p : Nat × Nat) : (s.setRect p).i = s.i := rfl
@[simp] theorem setRect_pix (s : State) (p : Nat × Nat) : (s.setRect p).pix = s.pix := rfl
@[simp] theorem setRect_idx (s : State) (p : Nat × Nat) : (s.setRect p).idx = s.idx := rfl
@[simp] theorem setRect_art (s : State) (p : Nat × Nat) : (s.setRect p).art = s.art := rfl
@[simp] theorem setRect_cap (s : State) (p : Nat × Nat) : (s.setRect p).cap = s.cap := rfl
@[simp] theorem setRect_draws (s : State) (p : Nat × Nat) : (s.setRect p).draws = s.draws := rfl
@[simp] theorem setRect_script (s : State) (p : Nat × Nat) : (s.setRect p).script = s.script := rfl
@[simp] theorem setRect_reply (s : State) (p : Nat × Nat) : (s.setRect p).reply = s.reply := rfl

/-! ### `answer` -/

@[simp] theorem answer_w (s : State) (r : Reply) : (s.answer r).w = s.w := rfl
@[simp] theorem answer_h (s : State) (r : Reply) : (s.answer r).h = s.h := rfl
@[simp] theorem answer_tilew (s : State) (r : Reply) : (s.answer r).tilew = s.tilew := rfl
@[simp] theorem answer_levels (s : State) (r : Reply) : (s.answer r).levels = s.levels := rfl
@[simp] theorem answer_invert (s : State) (r : Reply) : (s.answer r).invert = s.invert := rfl
@[simp] theorem answer_angle (s : State) (r : Reply) : (s.answer r).angle = s.angle := rfl
@[simp] theorem answer_pixlen (s : State) (r : Reply) : (s.answer r).pixlen = s.pixlen := rfl
@[simp] theorem answer_idxlen (s : State) (r : Reply) : (s.answer r).idxlen = s.idxlen := rfl
@[simp] theorem answer_alen (s : State) (r : Reply) : (s.answer r).alen = s.alen := rfl
@[simp] theorem answer_rcount (s : State) (r : Reply) : (s.answer r).rcount = s.rcount := rfl
@[simp] theorem answer_bw (s : State) (r : Reply) : (s.answer r).bw = s.bw := rfl
@[simp] theorem answer_bh (s : State) (r : Reply) : (s.answer r).bh = s.bh := rfl
@[simp] theorem answer_iw (s : State) (r : Reply) : (s.answer r).iw = s.iw := rfl
@[simp] theorem answer_ih (s : State) (r : Reply) : (s.answer r).ih = s.ih := rfl
@[simp] theorem answer_done (s : State) (r : Reply) : (s.answer r).done = s.done := rfl
@[simp] theorem answer_err (s : State) (r : Reply) : (s.answer r).err = s.err := rfl
@[simp] theorem answer_errcode (s : State) (r : Reply) : (s.answer r).errcode = s.errcode := rfl
@[simp] theorem answer_errExpect (s : State) (r : Reply) : (s.answer r).errExpect = s.errExpect := rfl
@[simp] theorem answer_errActual (s : State) (r : Reply) : (s.answer r).errActual = s.errActual := rfl
@[simp] theorem answer_st (s : State) (r : Reply) : (s.answer r).st = s.st := rfl
@[simp] theorem answer_y (s : State) (r : Reply) : (s.answer r).y = s.y := rfl
@[simp] theorem answer_x (s : State) (r : Reply) : (s.answer r).x = s.x := rfl
@[simp] theorem answer_cend (s : State) (r : Reply) : (s.answer r).cend = s.cend := rfl
@[simp] theorem answer_rl (s : State) (r : Reply) : (s.answer r).rl = s.rl := rfl
@[simp] theorem answer_k (s : State) (r : Reply) : (s.answer r).k = s.k := rfl
@[simp] theorem answer_n (s : State) (r : Reply) : (s.answer r).n = s.n := rfl
@[simp] theorem answer_i (s : State) (r : Reply) : (s.answer r).i = s.i := rfl
@[simp] theorem answer_pix (s : State) (r : Reply) : (s.answer r).pix = s.pix := rfl
@[simp] theorem answer_idx (s : State) (r : Reply) : (s.answer r).idx = s.idx := rfl
@[simp] theorem answer_art (s : State) (r : Reply) : (s.answer r).art = s.art := rfl
@[simp] theorem answer_cap (s : State) (r : Reply) : (s.answer r).cap = s.cap := rfl
@[simp] theorem answer_draws (s : State) (r : Reply) : (s.answer r).draws = s.draws := rfl
@[simp] theorem answer_script (s : State) (r : Reply) : (s.answer r).script = s.script := rfl
@[simp] theorem answer_reply (s : State) (r : Reply) : (s.answer r).reply = some r := rfl

/-! ### `writePix` -/

@[simp] theorem writePix_w (s : State) (a : Nat) (v : Pixel) : (s.writePix a v).w = s.w := by unfold State.writePix; split <;> rfl
@[simp] theorem writePix_h (s : State) (a : Nat) (v : Pixel) : (s.writePix a v).h = s.h := by unfold State.writePix; split <;> rfl
@[simp] theorem writePix_tilew (s : State) (a : Nat) (v : Pixel) : (s.writePix a v).tilew = s.tilew := by unfold State.writePix; split <;> rfl
@[simp] theorem writePix_levels (s : State) (a : Nat) (v : Pixel) : (s.writePix a v).levels = s.levels := by unfold State.writePix; split <;> rfl
@[simp] theorem writePix_invert (s : State) (a : Nat) (v : Pixel) : (s.writePix a v).invert = s.invert := by unfold State.writePix; split <;> rfl
@[simp] theorem writePix_angle (s : State) (a : Nat) (v : Pixel) : (s.writePix a v).angle = s.angle := by unfold State.writePix; split <;> rfl
@[simp] theorem writePix_pixlen (s : State) (a : Nat) (v : Pixel) : (s.writePix a v).pixlen = s.pixlen := by unfold State.writePix; split <;> rfl
@[simp] theorem writePix_idxlen (s : State) (a : Nat) (v : Pixel) : (s.writePix a v).idxlen = s.idxlen := by unfold State.writePix; split <;> rfl
@[simp] theorem writePix_alen (s : State) (a : Nat) (v : Pixel) : (s.writePix a v).alen = s.alen := by unfold State.writePix; split <;> rfl
@[simp] theorem writePix_rcount (s : State) (a : Nat) (v : Pixel) : (s.writePix a v).rcount = s.rcount := by unfold State.writePix; split <;> rfl
@[simp] theorem writePix_bw (s : State) (a : Nat) (v : Pixel) : (s.writePix a v).bw = s.bw := by unfold State.writePix; split <;> rfl
@[simp] theorem writePix_bh (s : State) (a : Nat) (v : Pixel) : (s.writePix a v).bh = s.bh := by unfold State.writePix; split <;> rfl
@[simp] theorem writePix_iw (s : State) (a : Nat) (v : Pixel) : (s.writePix a v).iw = s.iw := by unfold State.writePix; split <;> rfl
@[simp] theorem writePix_ih (s : State) (a : Nat) (v : Pixel) : (s.writePix a v).ih = s.ih := by unfold State.writePix; split <;> rfl
@[simp] theorem writePix_done (s : State) (a : Nat) (v : Pixel) : (s.writePix a v).done = s.done := by unfold State.writePix; split <;> rfl
@[simp] theorem writePix_err (s : State) (a : Nat) (v : Pixel) : (s.writePix a v).err = s.err := by unfold State.writePix; split <;> rfl
@[simp] theorem writePix_errcode (s : State) (a : Nat) (v : Pixel) : (s.writePix a v).errcode = s.errcode := by unfold State.writePix; split <;> rfl
@[simp] theorem writePix_errExpect (s : State) (a : Nat) (v : Pixel) : (s.writePix a v).errExpect = s.errExpect := by unfold State.writePix; split <;> rfl
@[simp] theorem writePix_errActual (s : State) (a : Nat) (v : Pixel) : (s.writePix a v).errActual = s.errActual := by unfold State.writePix; split <;> rfl
@[simp] theorem writePix_st (s : State) (a : Nat) (v : Pixel) : (s.writePix a v).st = s.st := by unfold State.writePix; split <;> rfl
@[simp] theorem writePix_y (s : State) (a : Nat) (v : Pixel) : (s.writePix a v).y = s.y := by unfold State.writePix; split <;> rfl
@[simp] theorem writePix_x (s : State) (a : Nat) (v : Pixel) : (s.writePix a v).x = s.x := by unfold State.writePix; split <;> rfl
@[simp] theorem writePix_cend (s : State) (a : Nat) (v : Pixel) : (s.writePix a v).cend = s.cend := by unfold State.writePix; split <;> rfl
@[simp] theorem writePix_rl (s : State) (a : Nat) (v : Pixel) : (s.writePix a v).rl = s.rl := by unfold State.writePix; split <;> rfl
@[simp] theorem writePix_k (s : State) (a : Nat) (v : Pixel) : (s.writePix a v).k = s.k := by unfold State.writePix; split <;> rfl
@[simp] theorem writePix_n (s : State) (a : Nat) (v : Pixel) : (s.writePix a v).n = s.n := by unfold State.writePix; split <;> rfl
@[simp] theorem writePix_i (s : State) (a : Nat) (v : Pixel) : (s.writePix a v).i = s.i := by unfold State.writePix; split <;> rfl
@[simp] theorem writePix_idx (s : State) (a : Nat) (v : Pixel) : (s.writePix a v).idx = s.idx := by unfold State.writePix; split <;> rfl
@[simp] theorem writePix_art (s : State) (a : Nat) (v : Pixel) : (s.writePix a v).art = s.art := by unfold State.writePix; split <;> rfl
@[simp] theorem writePix_cap (s : State) (a : Nat) (v : Pixel) : (s.writePix a v).cap = s.cap := by unfold State.writePix; split <;> rfl
@[simp] theorem writePix_draws (s : State) (a : Nat) (v : Pixel) : (s.writePix a v).draws = s.draws := by unfold State.writePix; split <;> rfl
@[simp] theorem writePix_script (s : State) (a : Nat) (v : Pixel) : (s.writePix a v).script = s.script := by unfold State.writePix; split <;> rfl
@[simp] theorem writePix_reply (s : State) (a : Nat) (v : Pixel) : (s.writePix a v).reply = s.reply := by unfold State.writePix; split <;> rfl

/-! ### `writeIdx` -/

@[simp] theorem writeIdx_w (s : State) (a : Nat) (v : Nibble) : (s.writeIdx a v).w = s.w := by unfold State.writeIdx; split <;> rfl
@[simp] theorem writeIdx_h (s : State) (a : Nat) (v : Nibble) : (s.writeIdx a v).h = s.h := by unfold State.writeIdx; split <;> rfl
@[simp] theorem writeIdx_tilew (s : State) (a : Nat) (v : Nibble) : (s.writeIdx a v).tilew = s.tilew := by unfold State.writeIdx; split <;> rfl
@[simp] theorem writeIdx_levels (s : State) (a : Nat) (v : Nibble) : (s.writeIdx a v).levels = s.levels := by unfold State.writeIdx; split <;> rfl
@[simp] theorem writeIdx_invert (s : State) (a : Nat) (v : Nibble) : (s.writeIdx a v).invert = s.invert := by unfold State.writeIdx; split <;> rfl
@[simp] theorem writeIdx_angle (s : State) (a : Nat) (v : Nibble) : (s.writeIdx a v).angle = s.angle := by unfold State.writeIdx; split <;> rfl
@[simp] theorem writeIdx_pixlen (s : State) (a : Nat) (v : Nibble) : (s.writeIdx a v).pixlen = s.pixlen := by unfold State.writeIdx; split <;> rfl
@[simp] theorem writeIdx_idxlen (s : State) (a : Nat) (v : Nibble) : (s.writeIdx a v).idxlen = s.idxlen := by unfold State.writeIdx; split <;> rfl
@[simp] theorem writeIdx_alen (s : State) (a : Nat) (v : Nibble) : (s.writeIdx a v).alen = s.alen := by unfold State.writeIdx; split <;> rfl
@[simp] theorem writeIdx_rcount (s : State) (a : Nat) (v : Nibble) : (s.writeIdx a v).rcount = s.rcount := by unfold State.writeIdx; split <;> rfl
@[simp] theorem writeIdx_bw (s : State) (a : Nat) (v : Nibble) : (s.writeIdx a v).bw = s.bw := by unfold State.writeIdx; split <;> rfl
@[simp] theorem writeIdx_bh (s : State) (a : Nat) (v : Nibble) : (s.writeIdx a v).bh = s.bh := by unfold State.writeIdx; split <;> rfl
@[simp] theorem writeIdx_iw (s : State) (a : Nat) (v : Nibble) : (s.writeIdx a v).iw = s.iw := by unfold State.writeIdx; split <;> rfl
@[simp] theorem writeIdx_ih (s : State) (a : Nat) (v : Nibble) : (s.writeIdx a v).ih = s.ih := by unfold State.writeIdx; split <;> rfl
@[simp] theorem writeIdx_done (s : State) (a : Nat) (v : Nibble) : (s.writeIdx a v).done = s.done := by unfold State.writeIdx; split <;> rfl
@[simp] theorem writeIdx_err (s : State) (a : Nat) (v : Nibble) : (s.writeIdx a v).err = s.err := by unfold State.writeIdx; split <;> rfl
@[simp] theorem writeIdx_errcode (s : State) (a : Nat) (v : Nibble) : (s.writeIdx a v).errcode = s.errcode := by unfold State.writeIdx; split <;> rfl
@[simp] theorem writeIdx_errExpect (s : State) (a : Nat) (v : Nibble) : (s.writeIdx a v).errExpect = s.errExpect := by unfold State.writeIdx; split <;> rfl
@[simp] theorem writeIdx_errActual (s : State) (a : Nat) (v : Nibble) : (s.writeIdx a v).errActual = s.errActual := by unfold State.writeIdx; split <;> rfl
@[simp] theorem writeIdx_st (s : State) (a : Nat) (v : Nibble) : (s.writeIdx a v).st = s.st := by unfold State.writeIdx; split <;> rfl
@[simp] theorem writeIdx_y (s : State) (a : Nat) (v : Nibble) : (s.writeIdx a v).y = s.y := by unfold State.writeIdx; split <;> rfl
@[simp] theorem writeIdx_x (s : State) (a : Nat) (v : Nibble) : (s.writeIdx a v).x = s.x := by unfold State.writeIdx; split <;> rfl
@[simp] theorem writeIdx_cend (s : State) (a : Nat) (v : Nibble) : (s.writeIdx a v).cend = s.cend := by unfold State.writeIdx; split <;> rfl
@[simp] theorem writeIdx_rl (s : State) (a : Nat) (v : Nibble) : (s.writeIdx a v).rl = s.rl := by unfold State.writeIdx; split <;> rfl
@[simp] theorem writeIdx_k (s : State) (a : Nat) (v : Nibble) : (s.writeIdx a v).k = s.k := by unfold State.writeIdx; split <;> rfl
@[simp] theorem writeIdx_n (s : State) (a : Nat) (v : Nibble) : (s.writeIdx a v).n = s.n := by unfold State.writeIdx; split <;> rfl
@[simp] theorem writeIdx_i (s : State) (a : Nat) (v : Nibble) : (s.writeIdx a v).i = s.i := by unfold State.writeIdx; split <;> rfl
@[simp] theorem writeIdx_pix (s : State) (a : Nat) (v : Nibble) : (s.writeIdx a v).pix = s.pix := by unfold State.writeIdx; split <;> rfl
@[simp] theorem writeIdx_art (s : State) (a : Nat) (v : Nibble) : (s.writeIdx a v).art = s.art := by unfold State.writeIdx; split <;> rfl
@[simp] theorem writeIdx_cap (s : State) (a : Nat) (v : Nibble) : (s.writeIdx a v).cap = s.cap := by unfold State.writeIdx; split <;> rfl
@[simp] theorem writeIdx_draws (s : State) (a : Nat) (v : Nibble) : (s.writeIdx a v).draws = s.draws := by unfold State.writeIdx; split <;> rfl
@[simp] theorem writeIdx_script (s : State) (a : Nat) (v : Nibble) : (s.writeIdx a v).script = s.script := by unfold State.writeIdx; split <;> rfl
@[simp] theorem writeIdx_reply (s : State) (a : Nat) (v : Nibble) : (s.writeIdx a v).reply = s.reply := by unfold State.writeIdx; split <;> rfl

/-! ### `writeArt` -/

@[simp] theorem writeArt_w (s : State) (a : Nat) (v : Byte) : (s.writeArt a v).w = s.w := by unfold State.writeArt; split <;> rfl
@[simp] theorem writeArt_h (s : State) (a : Nat) (v : Byte) : (s.writeArt a v).h = s.h := by unfold State.writeArt; split <;> rfl
@[simp] theorem writeArt_tilew (s : State) (a : Nat) (v : Byte) : (s.writeArt a v).tilew = s.tilew := by unfold State.writeArt; split <;> rfl
@[simp] theorem writeArt_levels (s : State) (a : Nat) (v : Byte) : (s.writeArt a v).levels = s.levels := by unfold State.writeArt; split <;> rfl
@[simp] theorem writeArt_invert (s : State) (a : Nat) (v : Byte) : (s.writeArt a v).invert = s.invert := by unfold State.writeArt; split <;> rfl
@[simp] theorem writeArt_angle (s : State) (a : Nat) (v : Byte) : (s.writeArt a v).angle = s.angle := by unfold State.writeArt; split <;> rfl
@[simp] theorem writeArt_pixlen (s : State) (a : Nat) (v : Byte) : (s.writeArt a v).pixlen = s.pixlen := by unfold State.writeArt; split <;> rfl
@[simp] theorem writeArt_idxlen (s : State) (a : Nat) (v : Byte) : (s.writeArt a v).idxlen = s.idxlen := by unfold State.writeArt; split <;> rfl
@[simp] theorem writeArt_alen (s : State) (a : Nat) (v : Byte) : (s.writeArt a v).alen = s.alen := by unfold State.writeArt; split <;> rfl
@[simp] theorem writeArt_rcount (s : State) (a : Nat) (v : Byte) : (s.writeArt a v).rcount = s.rcount := by unfold State.writeArt; split <;> rfl
@[simp] theorem writeArt_bw (s : State) (a : Nat) (v : Byte) : (s.writeArt a v).bw = s.bw := by unfold State.writeArt; split <;> rfl
@[simp] theorem writeArt_bh (s : State) (a : Nat) (v : Byte) : (s.writeArt a v).bh = s.bh := by unfold State.writeArt; split <;> rfl
@[simp] theorem writeArt_iw (s : State) (a : Nat) (v : Byte) : (s.writeArt a v).iw = s.iw := by unfold State.writeArt; split <;> rfl
@[simp] theorem writeArt_ih (s : State) (a : Nat) (v : Byte) : (s.writeArt a v).ih = s.ih := by unfold State.writeArt; split <;> rfl
@[simp] theorem writeArt_done (s : State) (a : Nat) (v : Byte) : (s.writeArt a v).done = s.done := by unfold State.writeArt; split <;> rfl
@[simp] theorem writeArt_err (s : State) (a : Nat) (v : Byte) : (s.writeArt a v).err = s.err := by unfold State.writeArt; split <;> rfl
@[simp] theorem writeArt_errcode (s : State) (a : Nat) (v : Byte) : (s.writeArt a v).errcode = s.errcode := by unfold State.writeArt; split <;> rfl
@[simp] theorem writeArt_errExpect (s : State) (a : Nat) (v : Byte) : (s.writeArt a v).errExpect = s.errExpect := by unfold State.writeArt; split <;> rfl
@[simp] theorem writeArt_errActual (s : State) (a : Nat) (v : Byte) : (s.writeArt a v).errActual = s.errActual := by unfold State.writeArt; split <;> rfl
@[simp] theorem writeArt_st (s : State) (a : Nat) (v : Byte) : (s.writeArt a v).st = s.st := by unfold State.writeArt; split <;> rfl
@[simp] theorem writeArt_y (s : State) (a : Nat) (v : Byte) : (s.writeArt a v).y = s.y := by unfold State.writeArt; split <;> rfl
@[simp] theorem writeArt_x (s : State) (a : Nat) (v : Byte) : (s.writeArt a v).x = s.x := by unfold State.writeArt; split <;> rfl
@[simp] theorem writeArt_cend (s : State) (a : Nat) (v : Byte) : (s.writeArt a v).cend = s.cend := by unfold State.writeArt; split <;> rfl
@[simp] theorem writeArt_rl (s : State) (a : Nat) (v : Byte) : (s.writeArt a v).rl = s.rl := by unfold State.writeArt; split <;> rfl
@[simp] theorem writeArt_k (s : State) (a : Nat) (v : Byte) : (s.writeArt a v).k = s.k := by unfold State.writeArt; split <;> rfl
@[simp] theorem writeArt_n (s : State) (a : Nat) (v : Byte) : (s.writeArt a v).n = s.n := by unfold State.writeArt; split <;> rfl
@[simp] theorem writeArt_i (s : State) (a : Nat) (v : Byte) : (s.writeArt a v).i = s.i := by unfold State.writeArt; split <;> rfl
@[simp] theorem writeArt_pix (s : State) (a : Nat) (v : Byte) : (s.writeArt a v).pix = s.pix := by unfold State.writeArt; split <;> rfl
@[simp] theorem writeArt_idx (s : State) (a : Nat) (v : Byte) : (s.writeArt a v).idx = s.idx := by unfold State.writeArt; split <;> rfl
@[simp] theorem writeArt_cap (s : State) (a : Nat) (v : Byte) : (s.writeArt a v).cap = s.cap := by unfold State.writeArt; split <;> rfl
@[simp] theorem writeArt_draws (s : State) (a : Nat) (v : Byte) : (s.writeArt a v).draws = s.draws := by unfold State.writeArt; split <;> rfl
@[simp] theorem writeArt_script (s : State) (a : Nat) (v : Byte) : (s.writeArt a v).script = s.script := by unfold State.writeArt; split <;> rfl
@[simp] theorem writeArt_reply (s : State) (a : Nat) (v : Byte) : (s.writeArt a v).reply = s.reply := by unfold State.writeArt; split <;> rfl

/-! ### `writeIdxRun` -/

@[simp] theorem writeIdxRun_w (s : State) (a : Nat) (v : Nibble) (c : Nat) : (s.writeIdxRun a v c).w = s.w := by
  induction c with
  | zero => rfl
  | succ c ih => simp [State.writeIdxRun, ih]
@[simp] theorem writeIdxRun_h (s : State) (a : Nat) (v : Nibble) (c : Nat) : (s.writeIdxRun a v c).h = s.h := by
  induction c with
  | zero => rfl
  | succ c ih => simp [State.writeIdxRun, ih]
@[simp] theorem writeIdxRun_tilew (s : State) (a : Nat) (v : Nibble) (c : Nat) : (s.writeIdxRun a v c).tilew = s.tilew := by
  induction c with
  | zero => rfl
  | succ c ih => simp [State.writeIdxRun, ih]
@[simp] theorem writeIdxRun_levels (s : State) (a : Nat) (v : Nibble) (c : Nat) : (s.writeIdxRun a v c).levels = s.levels := by
  induction c with
  | zero => rfl
  | succ c ih => simp [State.writeIdxRun, ih]
@[simp] theorem writeIdxRun_invert (s : State) (a : Nat) (v : Nibble) (c : Nat) : (s.writeIdxRun a v c).invert = s.invert := by
  induction c with
  | zero => rfl
  | succ c ih => simp [State.writeIdxRun, ih]
@[simp] theorem writeIdxRun_angle (s : State) (a : Nat) (v : Nibble) (c : Nat) : (s.writeIdxRun a v c).angle = s.angle := by
  induction c with
  | zero => rfl
  | succ c ih => simp [State.writeIdxRun, ih]
@[simp] theorem writeIdxRun_pixlen (s : State) (a : Nat) (v : Nibble) (c : Nat) : (s.writeIdxRun a v c).pixlen = s.pixlen := by
  induction c with
  | zero => rfl
  | succ c ih => simp [State.writeIdxRun, ih]
@[simp] theorem writeIdxRun_idxlen (s : State) (a : Nat) (v : Nibble) (c : Nat) : (s.writeIdxRun a v c).idxlen = s.idxlen := by
  induction c with
  | zero => rfl
  | succ c ih => simp [State.writeIdxRun, ih]
@[simp] theorem writeIdxRun_alen (s : State) (a : Nat) (v : Nibble) (c : Nat) : (s.writeIdxRun a v c).alen = s.alen := by
  induction c with
  | zero => rfl
  | succ c ih => simp [State.writeIdxRun, ih]
@[simp] theorem writeIdxRun_rcount (s : State) (a : Nat) (v : Nibble) (c : Nat) : (s.writeIdxRun a v c).rcount = s.rcount := by
  induction c with
  | zero => rfl
  | succ c ih => simp [State.writeIdxRun, ih]
@[simp] theorem writeIdxRun_bw (s : State) (a : Nat) (v : Nibble) (c : Nat) : (s.writeIdxRun a v c).bw = s.bw := by
  induction c with
  | zero => rfl
  | succ c ih => simp [State.writeIdxRun, ih]
@[simp] theorem writeIdxRun_bh (s : State) (a : Nat) (v : Nibble) (c : Nat) : (s.writeIdxRun a v c).bh = s.bh := by
  induction c with
  | zero => rfl
  | succ c ih => simp [State.writeIdxRun, ih]
@[simp] theorem writeIdxRun_iw (s : State) (a : Nat) (v : Nibble) (c : Nat) : (s.writeIdxRun a v c).iw = s.iw := by
  induction c with
  | zero => rfl
  | succ c ih => simp [State.writeIdxRun, ih]
@[simp] theorem writeIdxRun_ih (s : State) (a : Nat) (v : Nibble) (c : Nat) : (s.writeIdxRun a v c).ih = s.ih := by
  induction c with
  | zero => rfl
  | succ c ih => simp [State.writeIdxRun, ih]
@[simp] theorem writeIdxRun_done (s : State) (a : Nat) (v : Nibble) (c : Nat) : (s.writeIdxRun a v c).done = s.done := by
  induction c with
  | zero => rfl
  | succ c ih => simp [State.writeIdxRun, ih]
@[simp] theorem writeIdxRun_err (s : State) (a : Nat) (v : Nibble) (c : Nat) : (s.writeIdxRun a v c).err = s.err := by
  induction c with
  | zero => rfl
  | succ c ih => simp [State.writeIdxRun, ih]
@[simp] theorem writeIdxRun_errcode (s : State) (a : Nat) (v : Nibble) (c : Nat) : (s.writeIdxRun a v c).errcode = s.errcode := by
  induction c with
  | zero => rfl
  | succ c ih => simp [State.writeIdxRun, ih]
@[simp] theorem writeIdxRun_errExpect (s : State) (a : Nat) (v : Nibble) (c : Nat) : (s.writeIdxRun a v c).errExpect = s.errExpect := by
  induction c with
  | zero => rfl
  | succ c ih => simp [State.writeIdxRun, ih]
@[simp] theorem writeIdxRun_errActual (s : State) (a : Nat) (v : Nibble) (c : Nat) : (s.writeIdxRun a v c).errActual = s.errActual := by
  induction c with
  | zero => rfl
  | succ c ih => simp [State.writeIdxRun, ih]
@[simp] theorem writeIdxRun_st (s : State) (a : Nat) (v : Nibble) (c : Nat) : (s.writeIdxRun a v c).st = s.st := by
  induction c with
  | zero => rfl
  | succ c ih => simp [State.writeIdxRun, ih]
@[simp] theorem writeIdxRun_y (s : State) (a : Nat) (v : Nibble) (c : Nat) : (s.writeIdxRun a v c).y = s.y := by
  induction c with
  | zero => rfl
  | succ c ih => simp [State.writeIdxRun, ih]
@[simp] theorem writeIdxRun_x (s : State) (a : Nat) (v : Nibble) (c : Nat) : (s.writeIdxRun a v c).x = s.x := by
  induction c with
  | zero => rfl
  | succ c ih => simp [State.writeIdxRun, ih]
@[simp] theorem writeIdxRun_cend (s : State) (a : Nat) (v : Nibble) (c : Nat) : (s.writeIdxRun a v c).cend = s.cend := by
  induction c with
  | zero => rfl
  | succ c ih => simp [State.writeIdxRun, ih]
@[simp] theorem writeIdxRun_rl (s : State) (a : Nat) (v : Nibble) (c : Nat) : (s.writeIdxRun a v c).rl = s.rl := by
  induction c with
  | zero => rfl
  | succ c ih => simp [State.writeIdxRun, ih]
@[simp] theorem writeIdxRun_k (s : State) (a : Nat) (v : Nibble) (c : Nat) : (s.writeIdxRun a v c).k = s.k := by
  induction c with
  | zero => rfl
  | succ c ih => simp [State.writeIdxRun, ih]
@[simp] theorem writeIdxRun_n (s : State) (a : Nat) (v : Nibble) (c : Nat) : (s.writeIdxRun a v c).n = s.n := by
  induction c with
  | zero => rfl
  | succ c ih => simp [State.writeIdxRun, ih]
@[simp] theorem writeIdxRun_i (s : State) (a : Nat) (v : Nibble) (c : Nat) : (s.writeIdxRun a v c).i = s.i := by
  induction c with
  | zero => rfl
  | succ c ih => simp [State.writeIdxRun, ih]
@[simp] theorem writeIdxRun_pix (s : State) (a : Nat) (v : Nibble) (c : Nat) : (s.writeIdxRun a v c).pix = s.pix := by
  induction c with
  | zero => rfl
  | succ c ih => simp [State.writeIdxRun, ih]
@[simp] theorem writeIdxRun_art (s : State) (a : Nat) (v : Nibble) (c : Nat) : (s.writeIdxRun a v c).art = s.art := by
  induction c with
  | zero => rfl
  | succ c ih => simp [State.writeIdxRun, ih]
@[simp] theorem writeIdxRun_cap (s : State) (a : Nat) (v : Nibble) (c : Nat) : (s.writeIdxRun a v c).cap = s.cap := by
  induction c with
  | zero => rfl
  | succ c ih => simp [State.writeIdxRun, ih]
@[simp] theorem writeIdxRun_draws (s : State) (a : Nat) (v : Nibble) (c : Nat) : (s.writeIdxRun a v c).draws = s.draws := by
  induction c with
  | zero => rfl
  | succ c ih => simp [State.writeIdxRun, ih]
@[simp] theorem writeIdxRun_script (s : State) (a : Nat) (v : Nibble) (c : Nat) : (s.writeIdxRun a v c).script = s.script := by
  induction c with
  | zero => rfl
  | succ c ih => simp [State.writeIdxRun, ih]
@[simp] theorem writeIdxRun_reply (s : State) (a : Nat) (v : Nibble) (c : Nat) : (s.writeIdxRun a v c).reply = s.reply := by
  induction c with
  | zero => rfl
  | succ c ih => simp [State.writeIdxRun, ih]

/-! ### `closeChunk` -/

@[simp] theorem closeChunk_w (s : State) : s.closeChunk.w = s.w := by
  unfold State.closeChunk State.advanceChunk; (repeat' split) <;> rfl
@[simp] theorem closeChunk_h (s : State) : s.closeChunk.h = s.h := by
  unfold State.closeChunk State.advanceChunk; (repeat' split) <;> rfl
@[simp] theorem closeChunk_tilew (s : State) : s.closeChunk.tilew = s.tilew := by
  unfold State.closeChunk State.advanceChunk; (repeat' split) <;> rfl
@[simp] theorem closeChunk_levels (s : State) : s.closeChunk.levels = s.levels := by
  unfold State.closeChunk State.advanceChunk; (repeat' split) <;> rfl
@[simp] theorem closeChunk_invert (s : State) : s.closeChunk.invert = s.invert := by
  unfold State.closeChunk State.advanceChunk; (repeat' split) <;> rfl
@[simp] theorem closeChunk_angle (s : State) : s.closeChunk.angle = s.angle := by
  unfold State.closeChunk State.advanceChunk; (repeat' split) <;> rfl
@[simp] theorem closeChunk_pixlen (s : State) : s.closeChunk.pixlen = s.pixlen := by
  unfold State.closeChunk State.advanceChunk; (repeat' split) <;> rfl
@[simp] theorem closeChunk_idxlen (s : State) : s.closeChunk.idxlen = s.idxlen := by
  unfold State.closeChunk State.advanceChunk; (repeat' split) <;> rfl
@[simp] theorem closeChunk_alen (s : State) : s.closeChunk.alen = s.alen := by
  unfold State.closeChunk State.advanceChunk; (repeat' split) <;> rfl
@[simp] theorem closeChunk_rcount (s : State) : s.closeChunk.rcount = s.rcount := by
  unfold State.closeChunk State.advanceChunk; (repeat' split) <;> rfl
@[simp] theorem closeChunk_bw (s : State) : s.closeChunk.bw = s.bw := by
  unfold State.closeChunk State.advanceChunk; (repeat' split) <;> rfl
@[simp] theorem closeChunk_bh (s : State) : s.closeChunk.bh = s.bh := by
  unfold State.closeChunk State.advanceChunk; (repeat' split) <;> rfl
@[simp] theorem closeChunk_iw (s : State) : s.closeChunk.iw = s.iw := by
  unfold State.closeChunk State.advanceChunk; (repeat' split) <;> rfl
@[simp] theorem closeChunk_ih (s : State) : s.closeChunk.ih = s.ih := by
  unfold State.closeChunk State.advanceChunk; (repeat' split) <;> rfl
@[simp] theorem closeChunk_done (s : State) : s.closeChunk.done = s.done := by
  unfold State.closeChunk State.advanceChunk; (repeat' split) <;> rfl
@[simp] theorem closeChunk_err (s : State) : s.closeChunk.err = s.err := by
  unfold State.closeChunk State.advanceChunk; (repeat' split) <;> rfl
@[simp] theorem closeChunk_errcode (s : State) : s.closeChunk.errcode = s.errcode := by
  unfold State.closeChunk State.advanceChunk; (repeat' split) <;> rfl
@[simp] theorem closeChunk_errExpect (s : State) : s.closeChunk.errExpect = s.errExpect := by
  unfold State.closeChunk State.advanceChunk; (repeat' split) <;> rfl
@[simp] theorem closeChunk_errActual (s : State) : s.closeChunk.errActual = s.errActual := by
  unfold State.closeChunk State.advanceChunk; (repeat' split) <;> rfl
@[simp] theorem closeChunk_st (s : State) : s.closeChunk.st = s.st := by
  unfold State.closeChunk State.advanceChunk; (repeat' split) <;> rfl
@[simp] theorem closeChunk_rl (s : State) : s.closeChunk.rl = s.rl := by
  unfold State.closeChunk State.advanceChunk; (repeat' split) <;> rfl
@[simp] theorem closeChunk_k (s : State) : s.closeChunk.k = s.k := by
  unfold State.closeChunk State.advanceChunk; (repeat' split) <;> rfl
@[simp] theorem closeChunk_n (s : State) : s.closeChunk.n = s.n := by
  unfold State.closeChunk State.advanceChunk; (repeat' split) <;> rfl
@[simp] theorem closeChunk_i (s : State) : s.closeChunk.i = s.i := by
  unfold State.closeChunk State.advanceChunk; (repeat' split) <;> rfl
@[simp] theorem closeChunk_pix (s : State) : s.closeChunk.pix = s.pix := by
  unfold State.closeChunk State.advanceChunk; (repeat' split) <;> rfl
@[simp] theorem closeChunk_idx (s : State) : s.closeChunk.idx = s.idx := by
  unfold State.closeChunk State.advanceChunk; (repeat' split) <;> rfl
@[simp] theorem closeChunk_art (s : State) : s.closeChunk.art = s.art := by
  unfold State.closeChunk State.advanceChunk; (repeat' split) <;> rfl
@[simp] theorem closeChunk_cap (s : State) : s.closeChunk.cap = s.cap := by
  unfold State.closeChunk State.advanceChunk; (repeat' split) <;> rfl
@[simp] theorem closeChunk_draws (s : State) : s.closeChunk.draws = s.draws := by
  unfold State.closeChunk State.advanceChunk; (repeat' split) <;> rfl
@[simp] theorem closeChunk_script (s : State) : s.closeChunk.script = s.script := by
  unfold State.closeChunk State.advanceChunk; (repeat' split) <;> rfl
@[simp] theorem closeChunk_reply (s : State) : s.closeChunk.reply = s.reply := by
  unfold State.closeChunk State.advanceChunk; (repeat' split) <;> rfl

/-! ### `failDec` -/

@[simp] theorem failDec_w (s : State) (c : ErrorCause) : (s.failDec c).w = s.w := rfl
@[simp] theorem failDec_h (s : State) (c : ErrorCause) : (s.failDec c).h = s.h := rfl
@[simp] theorem failDec_tilew (s : State) (c : ErrorCause) : (s.failDec c).tilew = s.tilew := rfl
@[simp] theorem failDec_levels (s : State) (c : ErrorCause) : (s.failDec c).levels = s.levels := rfl
@[simp] theorem failDec_invert (s : State) (c : ErrorCause) : (s.failDec c).invert = s.invert := rfl
@[simp] theorem failDec_angle (s : State) (c : ErrorCause) : (s.failDec c).angle = s.angle := rfl
@[simp] theorem failDec_pixlen (s : State) (c : ErrorCause) : (s.failDec c).pixlen = s.pixlen := rfl
@[simp] theorem failDec_idxlen (s : State) (c : ErrorCause) : (s.failDec c).idxlen = 0 := rfl
@[simp] theorem failDec_alen (s : State) (c : ErrorCause) : (s.failDec c).alen = s.alen := rfl
@[simp] theorem failDec_rcount (s : State) (c : ErrorCause) : (s.failDec c).rcount = s.rcount := rfl
@[simp] theorem failDec_bw (s : State) (c : ErrorCause) : (s.failDec c).bw = s.bw := rfl
@[simp] theorem failDec_bh (s : State) (c : ErrorCause) : (s.failDec c).bh = s.bh := rfl
@[simp] theorem failDec_iw (s : State) (c : ErrorCause) : (s.failDec c).iw = s.iw := rfl
@[simp] theorem failDec_ih (s : State) (c : ErrorCause) : (s.failDec c).ih = s.ih := rfl
@[simp] theorem failDec_done (s : State) (c : ErrorCause) : (s.failDec c).done = true := rfl
@[simp] theorem failDec_err (s : State) (c : ErrorCause) : (s.failDec c).err = true := rfl
@[simp] theorem failDec_errcode (s : State) (c : ErrorCause) : (s.failDec c).errcode = c.code := rfl
@[simp] theorem failDec_errExpect (s : State) (c : ErrorCause) : (s.failDec c).errExpect = BitVec.ofNat 32 s.size := rfl
@[simp] theorem failDec_errActual (s : State) (c : ErrorCause) : (s.failDec c).errActual = s.n := rfl
@[simp] theorem failDec_st (s : State) (c : ErrorCause) : (s.failDec c).st = .idle := rfl
@[simp] theorem failDec_y (s : State) (c : ErrorCause) : (s.failDec c).y = s.y := rfl
@[simp] theorem failDec_x (s : State) (c : ErrorCause) : (s.failDec c).x = s.x := rfl
@[simp] theorem failDec_cend (s : State) (c : ErrorCause) : (s.failDec c).cend = s.cend := rfl
@[simp] theorem failDec_rl (s : State) (c : ErrorCause) : (s.failDec c).rl = s.rl := rfl
@[simp] theorem failDec_k (s : State) (c : ErrorCause) : (s.failDec c).k = s.k := rfl
@[simp] theorem failDec_n (s : State) (c : ErrorCause) : (s.failDec c).n = s.n := rfl
@[simp] theorem failDec_i (s : State) (c : ErrorCause) : (s.failDec c).i = s.i := rfl
@[simp] theorem failDec_pix (s : State) (c : ErrorCause) : (s.failDec c).pix = s.pix := rfl
@[simp] theorem failDec_idx (s : State) (c : ErrorCause) : (s.failDec c).idx = s.idx.forget := rfl
@[simp] theorem failDec_art (s : State) (c : ErrorCause) : (s.failDec c).art = s.art := rfl
@[simp] theorem failDec_cap (s : State) (c : ErrorCause) : (s.failDec c).cap = s.cap := rfl
@[simp] theorem failDec_draws (s : State) (c : ErrorCause) : (s.failDec c).draws = s.draws := rfl
@[simp] theorem failDec_script (s : State) (c : ErrorCause) : (s.failDec c).script = s.script := rfl
@[simp] theorem failDec_reply (s : State) (c : ErrorCause) : (s.failDec c).reply = s.reply := rfl

/-! ### `resetEvent` -/

@[simp] theorem resetEvent_w (s : State) : s.resetEvent.w = State.reset.w := rfl
@[simp] theorem resetEvent_h (s : State) : s.resetEvent.h = State.reset.h := rfl
@[simp] theorem resetEvent_tilew (s : State) : s.resetEvent.tilew = State.reset.tilew := rfl
@[simp] theorem resetEvent_levels (s : State) : s.resetEvent.levels = State.reset.levels := rfl
@[simp] theorem resetEvent_invert (s : State) : s.resetEvent.invert = State.reset.invert := rfl
@[simp] theorem resetEvent_angle (s : State) : s.resetEvent.angle = State.reset.angle := rfl
@[simp] theorem resetEvent_pixlen (s : State) : s.resetEvent.pixlen = State.reset.pixlen := rfl
@[simp] theorem resetEvent_idxlen (s : State) : s.resetEvent.idxlen = State.reset.idxlen := rfl
@[simp] theorem resetEvent_alen (s : State) : s.resetEvent.alen = State.reset.alen := rfl
@[simp] theorem resetEvent_rcount (s : State) : s.resetEvent.rcount = State.reset.rcount := rfl
@[simp] theorem resetEvent_bw (s : State) : s.resetEvent.bw = State.reset.bw := rfl
@[simp] theorem resetEvent_bh (s : State) : s.resetEvent.bh = State.reset.bh := rfl
@[simp] theorem resetEvent_iw (s : State) : s.resetEvent.iw = State.reset.iw := rfl
@[simp] theorem resetEvent_ih (s : State) : s.resetEvent.ih = State.reset.ih := rfl
@[simp] theorem resetEvent_done (s : State) : s.resetEvent.done = State.reset.done := rfl
@[simp] theorem resetEvent_err (s : State) : s.resetEvent.err = State.reset.err := rfl
@[simp] theorem resetEvent_errcode (s : State) : s.resetEvent.errcode = State.reset.errcode := rfl
@[simp] theorem resetEvent_errExpect (s : State) : s.resetEvent.errExpect = State.reset.errExpect := rfl
@[simp] theorem resetEvent_errActual (s : State) : s.resetEvent.errActual = State.reset.errActual := rfl
@[simp] theorem resetEvent_st (s : State) : s.resetEvent.st = State.reset.st := rfl
@[simp] theorem resetEvent_y (s : State) : s.resetEvent.y = State.reset.y := rfl
@[simp] theorem resetEvent_x (s : State) : s.resetEvent.x = State.reset.x := rfl
@[simp] theorem resetEvent_cend (s : State) : s.resetEvent.cend = State.reset.cend := rfl
@[simp] theorem resetEvent_rl (s : State) : s.resetEvent.rl = State.reset.rl := rfl
@[simp] theorem resetEvent_k (s : State) : s.resetEvent.k = State.reset.k := rfl
@[simp] theorem resetEvent_n (s : State) : s.resetEvent.n = State.reset.n := rfl
@[simp] theorem resetEvent_i (s : State) : s.resetEvent.i = State.reset.i := rfl
@[simp] theorem resetEvent_pix (s : State) : s.resetEvent.pix = s.pix.forget := rfl
@[simp] theorem resetEvent_idx (s : State) : s.resetEvent.idx = s.idx.forget := rfl
@[simp] theorem resetEvent_art (s : State) : s.resetEvent.art = s.art.forget := rfl
@[simp] theorem resetEvent_cap (s : State) : s.resetEvent.cap = s.cap := rfl
@[simp] theorem resetEvent_draws (s : State) : s.resetEvent.draws = s.draws := rfl
@[simp] theorem resetEvent_script (s : State) : s.resetEvent.script = s.script := rfl
@[simp] theorem resetEvent_reply (s : State) : s.resetEvent.reply = s.reply := rfl

/-! ### Views -/

@[simp] theorem beginCommand_size (s : State) : s.beginCommand.size = s.size := by simp [State.size]
@[simp] theorem finish_size (s : State) : s.finish.size = s.size := by simp [State.size]
@[simp] theorem enterError_size (s : State) (c : ErrorCause) : (s.enterError c).size = s.size := by simp [State.size]
@[simp] theorem clearResults_size (s : State) (op : Op) : (s.clearResults op).size = s.size := by simp [State.size]
@[simp] theorem raise_size (s : State) (op : Op) (c : ErrorCause) : (s.raise op c).size = s.size := by simp [State.size]
@[simp] theorem startScan_size (s : State) : s.startScan.size = s.size := by simp [State.size]
@[simp] theorem setPixlen_size (s : State) (v : Len) : (s.setPixlen v).size = s.size := by simp [State.size]
@[simp] theorem setIdxlen_size (s : State) (v : Len) : (s.setIdxlen v).size = s.size := by simp [State.size]
@[simp] theorem setAlen_size (s : State) (v : Len) : (s.setAlen v).size = s.size := by simp [State.size]
@[simp] theorem setBox_size (s : State) (p : Nat × Nat) : (s.setBox p).size = s.size := by simp [State.size]
@[simp] theorem setRect_size (s : State) (p : Nat × Nat) : (s.setRect p).size = s.size := by simp [State.size]
@[simp] theorem answer_size (s : State) (r : Reply) : (s.answer r).size = s.size := by simp [State.size]
@[simp] theorem writePix_size (s : State) (a : Nat) (v : Pixel) : (s.writePix a v).size = s.size := by simp [State.size]
@[simp] theorem writeIdx_size (s : State) (a : Nat) (v : Nibble) : (s.writeIdx a v).size = s.size := by simp [State.size]
@[simp] theorem writeArt_size (s : State) (a : Nat) (v : Byte) : (s.writeArt a v).size = s.size := by simp [State.size]
@[simp] theorem writeIdxRun_size (s : State) (a : Nat) (v : Nibble) (c : Nat) : (s.writeIdxRun a v c).size = s.size := by simp [State.size]
@[simp] theorem closeChunk_size (s : State) : s.closeChunk.size = s.size := by simp [State.size]
@[simp] theorem failDec_size (s : State) (c : ErrorCause) : (s.failDec c).size = s.size := by simp [State.size]

theorem size_lt (s : State) : s.size < 2 ^ 32 := by
  have hw := s.w.isLt
  have hh := s.h.isLt
  unfold State.size
  calc s.w.toNat * s.h.toNat ≤ (2 ^ 16 - 1) * (2 ^ 16 - 1) := Nat.mul_le_mul (by omega) (by omega)
    _ < 2 ^ 32 := by norm_num

@[simp] theorem size_ofNat_toNat (s : State) : (BitVec.ofNat 32 s.size).toNat = s.size := by
  simpa using size_lt s

theorem busy_iff (s : State) : s.busy = true ↔ s.st ≠ .idle := by simp [State.busy]

theorem busy_eq_false_iff (s : State) : s.busy = false ↔ s.st = .idle := by simp [State.busy]

end Sys2Proof.Machine
end

