-- ==== Sys2Proof/Laws/Ops.lean ====
section
/-! SUPPORT. What each shared operation can do, said once: issuing a command, the guarded writes, a run of writes, closing a
chunk, error entry. -/

namespace Sys2Proof.Machine

/-! ### Issuing -/

/-- A command byte written while the block is busy is ignored (R145). -/
theorem issue_of_busy {start : State → Result} {s : State} (h : s.busy = true) : issue start s = .next s := by
  simp [issue, h]

/-- Otherwise the start rule runs after the common start actions (R140). -/
theorem issue_of_idle {start : State → Result} {s : State} (h : s.busy = false) :
    issue start s = start s.beginCommand := by
  simp [issue, h]

/-- The common start actions make the old status irrelevant. -/
@[simp] theorem beginCommand_beginCommand (s : State) : s.beginCommand.beginCommand = s.beginCommand := rfl

/-! ### Writes -/

theorem read_writeIdx (s : State) (a b : Nat) (v : Nibble) :
    (s.writeIdx a v).idx.read b = if b = a ∧ a < s.cap then v else s.idx.read b := by
  unfold State.writeIdx
  by_cases ha : a < s.cap
  · by_cases hb : b = a
    · simp [ha, hb]
    · simp [ha, hb, Memory.read_write_of_ne _ v hb]
  · simp [ha]

theorem read_writeArt (s : State) (a b : Nat) (v : Byte) :
    (s.writeArt a v).art.read b = if b = a ∧ a < s.cap then v else s.art.read b := by
  unfold State.writeArt
  by_cases ha : a < s.cap
  · by_cases hb : b = a
    · simp [ha, hb]
    · simp [ha, hb, Memory.read_write_of_ne _ v hb]
  · simp [ha]

theorem read_writePix (s : State) (a b : Nat) (v : Pixel) :
    (s.writePix a v).pix.read b = if b = a ∧ a < s.cap then v else s.pix.read b := by
  unfold State.writePix
  by_cases ha : a < s.cap
  · by_cases hb : b = a
    · simp [ha, hb]
    · simp [ha, hb, Memory.read_write_of_ne _ v hb]
  · simp [ha]

/-- A run of writes sets exactly its elements, where they exist. -/
theorem read_writeIdxRun (s : State) (a b : Nat) (v : Nibble) (c : Nat) :
    (s.writeIdxRun a v c).idx.read b = if a ≤ b ∧ b < a + c ∧ b < s.cap then v else s.idx.read b := by
  induction c with
  | zero => simp only [State.writeIdxRun]; rw [if_neg (by omega)]
  | succ c ih =>
    simp only [State.writeIdxRun, read_writeIdx, writeIdxRun_cap, ih]
    by_cases h1 : b = a + c ∧ a + c < s.cap
    · rw [if_pos h1, if_pos (by omega)]
    · rw [if_neg h1]
      by_cases h2 : a ≤ b ∧ b < a + c ∧ b < s.cap
      · rw [if_pos h2, if_pos (by omega)]
      · rw [if_neg h2, if_neg (by omega)]

/-! ### The memories stay in order -/

theorem memoriesOk_writeIdx {s : State} (a : Nat) (v : Nibble) (h : s.memoriesOk) : (s.writeIdx a v).memoriesOk := by
  obtain ⟨h1, h2, h3, h4, h5, h6⟩ := h
  unfold State.writeIdx
  split
  · next ha => exact ⟨h1, Memory.wf_write a v h2, h3, h4, Memory.below_write v h5 ha, h6⟩
  · exact ⟨h1, h2, h3, h4, h5, h6⟩

theorem memoriesOk_writeArt {s : State} (a : Nat) (v : Byte) (h : s.memoriesOk) : (s.writeArt a v).memoriesOk := by
  obtain ⟨h1, h2, h3, h4, h5, h6⟩ := h
  unfold State.writeArt
  split
  · next ha => exact ⟨h1, h2, Memory.wf_write a v h3, h4, h5, Memory.below_write v h6 ha⟩
  · exact ⟨h1, h2, h3, h4, h5, h6⟩

theorem memoriesOk_writePix {s : State} (a : Nat) (v : Pixel) (h : s.memoriesOk) : (s.writePix a v).memoriesOk := by
  obtain ⟨h1, h2, h3, h4, h5, h6⟩ := h
  unfold State.writePix
  split
  · next ha => exact ⟨Memory.wf_write a v h1, h2, h3, Memory.below_write v h4 ha, h5, h6⟩
  · exact ⟨h1, h2, h3, h4, h5, h6⟩

theorem memoriesOk_writeBuf {s : State} (b : Buf) (a v : Nat) (h : s.memoriesOk) : (s.writeBuf b a v).memoriesOk := by
  cases b
  · exact memoriesOk_writePix _ _ h
  · exact memoriesOk_writeIdx _ _ h
  · exact memoriesOk_writeArt _ _ h

theorem memoriesOk_writeIdxRun {s : State} (a : Nat) (v : Nibble) (c : Nat) (h : s.memoriesOk) :
    (s.writeIdxRun a v c).memoriesOk := by
  induction c with
  | zero => exact h
  | succ c ih => exact memoriesOk_writeIdx _ _ ih

/-! ### Cursors -/

theorem toCursor_toNat {v : Nat} (h : v < 2 ^ 17) : (toCursor v).toNat = v := by
  simp only [toCursor, BitVec.toNat_ofNat]; exact Nat.mod_eq_of_lt h

theorem min_tilew_lt (s : State) : min s.tilew.toNat s.w.toNat < 2 ^ 17 := by
  have := s.w.isLt; omega

/-- Closing a chunk (R97): nothing while the chunk is open; the next row at the row's end; else the next chunk of the row. -/
theorem closeChunk_cases (s : State) :
    (s.x ≠ s.cend ∧ s.closeChunk = s)
    ∨ (s.x = s.cend ∧ s.x.toNat = s.w.toNat ∧
        s.closeChunk = { s with y := toCursor (s.y.toNat + 1), x := 0, cend := toCursor (min s.tilew.toNat s.w.toNat) })
    ∨ (s.x = s.cend ∧ s.x.toNat ≠ s.w.toNat ∧
        s.closeChunk = { s with cend := toCursor (min (s.x.toNat + s.tilew.toNat) s.w.toNat) }) := by
  unfold State.closeChunk State.advanceChunk
  by_cases h1 : s.x = s.cend
  · by_cases h2 : s.x.toNat = s.w.toNat
    · exact .inr (.inl ⟨h1, h2, by rw [if_pos h1, if_pos h2]⟩)
    · exact .inr (.inr ⟨h1, h2, by rw [if_pos h1, if_neg h2]⟩)
  · exact .inl ⟨h1, by rw [if_neg h1]⟩

/-! ### Status -/

/-- Error entry reads as `STATUS = 6` (R158). -/
theorem status_raise (s : State) (op : Op) (c : ErrorCause) : (s.raise op c).status = 6 := by
  simp [State.status, State.busy]

/-- `finish()` without an error reads as `STATUS = 2` (R146). -/
theorem status_finish {s : State} (h : s.err = false) : s.finish.status = 2 := by
  simp [State.status, State.busy, h]

end Sys2Proof.Machine
end

