-- ==== Sys2Proof/Laws/PerInstr.lean ====
section
/-! SUPPORT. Statements made per instruction: the byte an instruction is encoded in selects the instruction's own row of the
command table, and no other (spec/30_encoding.md R73). -/

namespace Sys2Proof.Laws.EncodingSelectsRow

/-- A command's byte selects exactly the row of its mnemonic; a run byte is in no row of the command table. -/
def Statement (i : Instr) : Prop :=
  if i.isRunByte then i.mnemonic = "RUNBYTE"
  else (commandTable.filter fun r => r.selects (encodeInstr i)).map CommandRow.mnemonic = [i.mnemonic]

theorem clr : Statement .clr := by unfold Statement; decide
theorem quant : Statement .quant := by unfold Statement; decide
theorem enc : Statement .enc := by unfold Statement; decide
theorem dec : Statement .dec := by unfold Statement; decide
theorem count : Statement .count := by unfold Statement; decide
theorem bbox : Statement .bbox := by unfold Statement; decide
theorem irect : Statement .irect := by unfold Statement; decide
theorem reserved07 : Statement .reserved07 := by unfold Statement; decide
theorem reserved08 (low : BitVec 3) : Statement (.reserved08 low) := by
  revert low; unfold Statement; decide
theorem reserved10 (low : BitVec 4) : Statement (.reserved10 low) := by
  revert low; unfold Statement; decide
theorem reserved20 (low : BitVec 5) : Statement (.reserved20 low) := by
  revert low; unfold Statement; decide
theorem reserved40 (low : BitVec 6) : Statement (.reserved40 low) := by
  revert low; unfold Statement; decide +kernel
theorem reserved80 (low : BitVec 7) : Statement (.reserved80 low) := by
  revert low; unfold Statement; decide +kernel
theorem runByte (run : Nat) (value : Nibble) : Statement (.runByte run value) := rfl

end Sys2Proof.Laws.EncodingSelectsRow
end

