-- ==== Sys2Proof/Laws/Step.lean ====
section
/-! SUPPORT. What one step can do, said once: whose turn it is, and what the sequencer does in each of its states. -/

namespace Sys2Proof.Machine

/-- A step is the sequencer's when the host has nothing to do, else the host's next action. -/
theorem step_of_script_nil {s : State} (h : s.script = []) : step s = sequencerStep s := by
  simp [step, machineStep, h]

theorem step_of_script_cons {s : State} {a : HostAction} {rest : List HostAction} (h : s.script = a :: rest) :
    step s = hostStep a { s with script := rest } := by
  simp [step, machineStep, h]

theorem hostStep_of_idle {a : HostAction} {s : State} (h : s.st = .idle) : hostStep a s = idleHostStep a s := by
  simp [hostStep, State.busy, h]

theorem hostStep_of_busy {a : HostAction} {s : State} (h : s.st ≠ .idle) : hostStep a s = busyHostStep a s := by
  simp [hostStep, State.busy, h]

theorem sequencerStep_idle {s : State} (h : s.st = .idle) : sequencerStep s = .next s := by
  simp [sequencerStep, h]

theorem sequencerStep_quant {s : State} (h : s.st = .quantRun) : sequencerStep s = .next (quantStep s) := by
  simp [sequencerStep, h]

theorem sequencerStep_enc {s : State} (h : s.st = .encRun) : sequencerStep s = .next (encStep s) := by
  simp [sequencerStep, h]

theorem sequencerStep_count {s : State} (h : s.st = .countRun) : sequencerStep s = .next (countStep s) := by
  simp [sequencerStep, h]

/-- The DEC step: the end tests, or the run byte at `k` executed. -/
theorem sequencerStep_dec {s : State} (h : s.st = .decRun) :
    sequencerStep s =
      if s.decAtEnd then .next s.decEnd else execRunByte (runLengthOf s.fetchRunByte) (runValueOf s.fetchRunByte) s := by
  simp only [sequencerStep, h, decStep, decodeRunByte, exec, runLengthOf, runValueOf]

/-- Running one step more. -/
theorem reaches_succ {count : Nat} {s t u : State} (h : step s = .next t) (hr : Reaches count t u) :
    Reaches (count + 1) s u := by
  simpa [Reaches, runSteps, h] using hr

/-- Runs compose. -/
theorem reaches_add {a b : Nat} {s t u : State} (h1 : Reaches a s t) (h2 : Reaches b t u) : Reaches (a + b) s u := by
  induction a generalizing s with
  | zero =>
    have : s = t := by simpa [Reaches, runSteps] using h1
    simpa [this] using h2
  | succ a ih =>
    rw [Nat.succ_add]
    unfold Reaches runSteps at h1 ⊢
    cases hs : step s with
    | next v =>
      rw [hs] at h1
      exact ih h1
    | fault r => rw [hs] at h1; cases h1
    | refused r => rw [hs] at h1; cases h1

end Sys2Proof.Machine
end

