-- ==== Sys2Proof/Tests/Slice0.lean ====
section
/-! SUPPORT. The model's own tests: the well-formedness smoke test, every constructor's decoding from a word written out from
the spec, the tables of spec/40_quantizer.md, small one-step tests per instruction with values of spec/95_test_vectors.md, and
one witness for every statement that has hypotheses. -/

namespace Sys2Proof.Machine.Tests

/-! ### Helpers: small states of a block of 16 elements -/

/-- The reset state of a block with 16 elements in each buffer. -/
def fresh : State := { State.reset with cap := 16 }

/-- `fresh` with dimensions and a tile width. -/
def sized (w h t : Dim) : State := { fresh with w := w, h := h, tilew := t }

/-- The elements of a list at addresses from `a`. -/
def cellsFrom {n : Nat} : Nat → List (BitVec n) → List (Nat × BitVec n)
  | _, [] => []
  | a, v :: rest => (a, v) :: cellsFrom (a + 1) rest

/-- `s` with `PIX` loaded (`LOADPIX`). -/
def withPix (s : State) (vs : List Pixel) : State :=
  { s with pix := ⟨cellsFrom 0 vs, []⟩, pixlen := BitVec.ofNat 32 vs.length }

/-- `s` with `IDX` loaded (`LOADIDX`). -/
def withIdx (s : State) (vs : List Nibble) : State :=
  { s with idx := ⟨cellsFrom 0 vs, []⟩, idxlen := BitVec.ofNat 32 vs.length }

/-- `s` with `ART` loaded (`LOADART`). -/
def withArt (s : State) (vs : List Byte) : State :=
  { s with art := ⟨cellsFrom 0 vs, []⟩, alen := BitVec.ofNat 32 vs.length }

/-- A test of the next state of an outcome. -/
def next? (r : Result) (p : State → Bool) : Bool :=
  match r with
  | .next t => p t
  | .fault _ => false
  | .refused _ => false

/-- A test of the fault of an outcome. -/
def faults? (r : Result) (f : Fault) : Bool :=
  match r with
  | .next _ => false
  | .fault g => g == f
  | .refused _ => false

/-- QUANT, about to start on one sample `(100, 150, 200)`. -/
def quantIdle : State := withPix (sized 1 1 320) [pixelOf 100 150 200]

/-- QUANT at its one sample. -/
def quantMid : State := { quantIdle with st := .quantRun }

/-- QUANT at its end. -/
def quantEnd : State := { quantMid with i := 1, idx := ⟨[(0, 9)], []⟩ }

/-- ENC and COUNT, about to start on four samples in two chunks. -/
def encIdle : State := withIdx (sized 4 1 3) [7, 7, 7, 7]

/-- ENC inside its first chunk. -/
def encMid : State := { encIdle with st := .encRun, cend := 3 }

/-- ENC at the last column of its first chunk. -/
def encChunkEnd : State := { encMid with x := 2, rl := 2 }

/-- ENC at the last column of the row. -/
def encRowEnd : State := { encMid with x := 3, cend := 4, k := 1, art := ⟨[(0, 0x27)], []⟩ }

/-- ENC at its end. -/
def encEnd : State := { encMid with y := 1, k := 2, art := ⟨[(0, 0x27), (1, 0x07)], []⟩ }

/-- DEC, about to start on an accepted artifact. -/
def decIdle : State := withArt (sized 4 1 320) [0x10, 0x1F]

/-- DEC at its first byte. -/
def decMid : State := { decIdle with st := .decRun, cend := 4 }

/-- DEC at its second byte. -/
def decSecond : State := { decMid with x := 2, n := 2, k := 1, idx := ⟨[(0, 0), (1, 0)], []⟩ }

/-- DEC at its successful end. -/
def decDone : State := { decMid with y := 1, n := 4, k := 2, idx := ⟨[(0, 0), (1, 0), (2, 15), (3, 15)], []⟩ }

/-- `s` with the angle whose `Trig` is `(3/5, 4/5)`. -/
def tilted (s : State) : State := { s with angle := .trig (trigOfRat 3 5 4 5) }

/-! ### Well-formedness and decoding -/

theorem test_wellFormed_refuses_run_0 : (Instr.runByte 0 5).wellFormed = false := by decide
theorem test_wellFormed_refuses_run_17 : (Instr.runByte 17 5).wellFormed = false := by decide
theorem test_wellFormed_takes_runs_1_and_16 :
    (Instr.runByte 1 0).wellFormed = true ∧ (Instr.runByte 16 15).wellFormed = true := by decide

theorem test_decode_refuses_no_byte : decode .command [] = .error .noByte := rfl

/-- The words of R67 and R68, bits 7 to 3 `rsv` and bits 2 to 0 `op`. -/
theorem test_decode_commands :
    decodeCommand 0b00000_000 = .clr ∧ decodeCommand 0b00000_001 = .quant ∧ decodeCommand 0b00000_010 = .enc
      ∧ decodeCommand 0b00000_011 = .dec ∧ decodeCommand 0b00000_100 = .count ∧ decodeCommand 0b00000_101 = .bbox
      ∧ decodeCommand 0b00000_110 = .irect := by decide
theorem test_decode_reserved :
    decodeCommand 0b0000_0111 = .reserved07 ∧ decodeCommand 0b0000_1101 = .reserved08 0b101
      ∧ decodeCommand 0b0001_1011 = .reserved10 0b1011 ∧ decodeCommand 0b0011_0110 = .reserved20 0b10110
      ∧ decodeCommand 0b0101_0101 = .reserved40 0b010101 ∧ decodeCommand 0b1000_0110 = .reserved80 0b0000110 := by decide

/-- The bytes of S11 and R62: `10` is a run of 2 zeros, `1F` of 2 fifteens, `F9` of 16 nines, `00` of 1 zero. -/
theorem test_decode_run_bytes :
    decodeRunByte 0x10 = .runByte 2 0 ∧ decodeRunByte 0x1F = .runByte 2 15 ∧ decodeRunByte 0xF9 = .runByte 16 9
      ∧ decodeRunByte 0x00 = .runByte 1 0 := by decide
theorem test_encode_run_bytes :
    encode (.runByte 2 0) = [0x10] ∧ encode (.runByte 2 15) = [0x1F] ∧ encode (.runByte 16 9) = [0xF9] := by decide

theorem test_table_words : decodeTableWord 8 0x06 = some .irect ∧ decodeTableWord 8 0x2A = some (.reserved20 0x0A) := by
  decide

/-- The first step after reset runs the table word: BBOX of a zero dimension, ERRCODE hex 32 (R154). -/
theorem test_withFetchWord_runs_the_word :
    next? (step (State.reset.withFetchWord 8 5)) (fun t => t.errcode == 0x32) = true := by decide

/-! ### The quantizer's tables -/

/-- The table of R81. -/
theorem test_rescale_table :
    (List.range 15).map (fun j => (List.range (j + 2)).map fun l => rescale (j + 2) l) =
      [[0, 15], [0, 8, 15], [0, 5, 10, 15], [0, 4, 8, 11, 15], [0, 3, 6, 9, 12, 15], [0, 3, 5, 8, 10, 13, 15],
       [0, 2, 4, 6, 9, 11, 13, 15], [0, 2, 4, 6, 8, 9, 11, 13, 15], [0, 2, 3, 5, 7, 8, 10, 12, 13, 15],
       [0, 2, 3, 5, 6, 8, 9, 11, 12, 14, 15], [0, 1, 3, 4, 5, 7, 8, 10, 11, 12, 14, 15],
       [0, 1, 3, 4, 5, 6, 8, 9, 10, 11, 13, 14, 15], [0, 1, 2, 3, 5, 6, 7, 8, 9, 10, 12, 13, 14, 15],
       [0, 1, 2, 3, 4, 5, 6, 8, 9, 10, 11, 12, 13, 14, 15],
       [0, 1, 2, 3, 4, 5, 6, 7, 8, 9, 10, 11, 12, 13, 14, 15]] := by decide

/-- Three rows of the threshold table of R82, for `L` = 2, 7 and 16: each level starts at its threshold and not before. -/
theorem test_level_thresholds :
    [0, 128].map (levelOf · 2) = [0, 1] ∧ [127].map (levelOf · 2) = [0]
      ∧ [0, 22, 64, 107, 149, 192, 234].map (levelOf · 7) = [0, 1, 2, 3, 4, 5, 6]
      ∧ [21, 63, 106, 148, 191, 233].map (levelOf · 7) = [0, 1, 2, 3, 4, 5]
      ∧ [9, 26, 43, 60, 77, 94, 111, 128, 145, 162, 179, 196, 213, 230, 247].map (levelOf · 16) =
          [1, 2, 3, 4, 5, 6, 7, 8, 9, 10, 11, 12, 13, 14, 15]
      ∧ [8, 25, 42, 59, 76, 93, 110, 127, 144, 161, 178, 195, 212, 229, 246].map (levelOf · 16) =
          [0, 1, 2, 3, 4, 5, 6, 7, 8, 9, 10, 11, 12, 13, 14] := by decide

/-! ### One step per instruction -/

/-- R143: `STATUS` 6 and `ERRCODE` hex 13 become 0. -/
theorem test_clr_clears_the_error :
    next? (exec .clr { fresh with done := true, err := true, errcode := 0x13, errExpect := 4, errActual := 2 })
      (fun t => t.status == 0 && t.errcode == 0 && t.errExpect == 0 && t.errActual == 0) = true := by decide

/-- R89: sample (100, 150, 200) gives 9, inverted 6. -/
theorem test_quant_step_value :
    next? (step quantMid) (fun t => lookupCell t.idx.cells 0 == some 9 && t.i == 1) = true
      ∧ next? (step { quantMid with invert := 1 }) (fun t => lookupCell t.idx.cells 0 == some 6) = true := by decide
/-- R182: 32 written to `LEVELS` stores 0, and QUANT rejects it. -/
theorem test_quant_rejects_levels :
    next? (exec .quant (quantIdle.writeReg 3 32)) (fun t => t.status == 6 && t.errcode == 0x11) = true := by decide

/-- S3: six equal samples in tiles of four encode as `33 13`; here the first chunk's byte of a tile of three. -/
theorem test_enc_closes_the_run_at_the_chunk_end :
    next? (step encChunkEnd) (fun t => lookupCell t.art.cells 0 == some 0x27 && t.rl == 0 && t.x == 3 && t.cend == 4) = true := by
  decide
theorem test_enc_row_end_moves_to_the_next_row :
    next? (step encRowEnd) (fun t => lookupCell t.art.cells 1 == some 0x07 && t.y == 1 && t.x == 0 && t.cend == 3) = true := by
  decide

/-- COUNT counts the run that ENC would emit, and stores nothing. -/
theorem test_count_counts_without_storing :
    next? (step { encChunkEnd with st := .countRun }) (fun t => t.k == 1 && t.art.cells == []) = true := by decide
theorem test_count_rejects_a_zero_tile :
    next? (exec .count { encIdle with tilew := 0 }) (fun t => t.errcode == 0x21 && t.rcount == 0) = true := by decide

theorem test_dec_start_opens_the_first_chunk :
    next? (exec .dec decIdle) (fun t => t.st == .decRun && t.cend == 4 && t.status == 1) = true := by decide
/-- P3: `40` in a row of four leaves the tile: hex 23, expected 4, actual 0. -/
theorem test_runbyte_overrun :
    next? (step (withArt decMid [0x40])) (fun t => t.errcode == 0x23 && t.errExpect == 4 && t.errActual == 0) = true := by
  decide
theorem test_runbyte_expands :
    next? (step decSecond) (fun t => t.idx.cells == [(0, 0), (1, 0), (2, 15), (3, 15)] && t.n == 4 && t.y == 1) = true := by
  decide

/-- R129: 320 by 240 at (3/5, 4/5) gives 400 by 384. -/
theorem test_bbox_value :
    next? (exec .bbox (tilted (sized 320 240 1))) (fun t => t.bw == 400 && t.bh == 384 && t.status == 2) = true := by
  decide +kernel
/-- R135: the thin branch gives 200 by 150, the second branch 153 by 128. -/
theorem test_irect_values :
    next? (exec .irect (tilted (sized 320 240 1))) (fun t => t.iw == 200 && t.ih == 150) = true
      ∧ next? (exec .irect (tilted (sized 200 195 1))) (fun t => t.iw == 153 && t.ih == 128) = true := by decide +kernel
/-- The rows at `pi/6` and `pi/4` of the geometry table: 240 exactly. -/
theorem test_geometry_at_multiples_of_pi (e : ExactArithmetic) :
    (trigOf (.reference e) (.sixths 1)).irect 320 240 = some (240, 138)
      ∧ (trigOf (.reference e) (.sixths (-1))).bbox 320 240 = (397, 367)
      ∧ (trigOf (.reference e) (.quarters 1)).irect 320 240 = some (169, 169) :=
  show irect 320 240 (sixthsTrig 1) = some (240, 138) ∧ bbox 320 240 (sixthsTrig (-1)) = (397, 367)
    ∧ irect 320 240 (quartersTrig 1) = some (169, 169) by decide +kernel
/-- U4: the pair (0, 0) divides by zero, and a huge pair and the quotients of a tiny one do not fit. -/
theorem test_geometry_faults :
    faults? (exec .irect { sized 1 1 1 with angle := .trig ⟨0, 0, 0⟩ }) .divisorZero = true
      ∧ faults? (exec .bbox { sized 1 1 1 with angle := .trig ⟨0, 2 ^ 64, 0⟩ }) .resultTooWide = true
      ∧ faults? (exec .irect { sized 1 1 1 with angle := .trig ⟨1, 1, 2 ^ 80 - 1⟩ }) .resultTooWide = true := by
  decide +kernel

/-- R144: STATUS 6, ERRCODE hex 14. -/
theorem test_reserved_rows :
    next? (exec .reserved07 fresh) (fun t => t.status == 6 && t.errcode == 0x14) = true
      ∧ next? (exec (.reserved08 0) fresh) (fun t => t.errcode == 0x14) = true
      ∧ next? (exec (.reserved10 0) fresh) (fun t => t.errcode == 0x14) = true
      ∧ next? (exec (.reserved20 0) fresh) (fun t => t.errcode == 0x14) = true
      ∧ next? (exec (.reserved40 0) fresh) (fun t => t.errcode == 0x14) = true
      ∧ next? (exec (.reserved80 0) fresh) (fun t => t.errcode == 0x14) = true := by decide

/-! ### Witnesses: states and operands that meet the hypotheses of each statement -/

theorem quantMid_inv : quantMid.Inv :=
  ⟨by decide, by decide, by decide, by decide, by decide, by decide, by decide⟩
theorem quantEnd_inv : quantEnd.Inv :=
  ⟨by decide, by decide, by decide, by decide, by decide, by decide, by decide⟩
theorem encMid_inv : encMid.Inv :=
  ⟨by decide, by decide, by decide, by decide, by decide, by decide, by decide⟩
theorem encChunkEnd_inv : encChunkEnd.Inv :=
  ⟨by decide, by decide, by decide, by decide, by decide, by decide, by decide⟩
theorem encRowEnd_inv : encRowEnd.Inv :=
  ⟨by decide, by decide, by decide, by decide, by decide, by decide, by decide⟩
theorem decMid_inv : decMid.Inv :=
  ⟨by decide, by decide, by decide, by decide, by decide, by decide, by decide⟩
theorem decSecond_inv : decSecond.Inv :=
  ⟨by decide, by decide, by decide, by decide, by decide, by decide, by decide⟩

/-- `COUNT` at the same places as ENC. -/
theorem countMid_inv : State.Inv { encMid with st := .countRun, rcount := 0 } :=
  ⟨by decide, by decide, by decide, by decide, by decide, by decide, by decide⟩
theorem countChunkEnd_inv : State.Inv { encChunkEnd with st := .countRun, rcount := 0 } :=
  ⟨by decide, by decide, by decide, by decide, by decide, by decide, by decide⟩
theorem countRowEnd_inv : State.Inv { encRowEnd with st := .countRun, rcount := 0 } :=
  ⟨by decide, by decide, by decide, by decide, by decide, by decide, by decide⟩

theorem witness_DecodeOfEncodeIsTheInstruction :
    (Instr.runByte 1 0).wellFormed = true ∧ (Instr.runByte 16 15).wellFormed = true
      ∧ (Instr.reserved80 127).wellFormed = true := by decide
theorem witness_RunByteEncodingIsBijective :
    (1 ≤ 1 ∧ 1 ≤ 16) ∧ (1 ≤ 16 ∧ 16 ≤ 16) ∧ runByteOf 16 15 = runByteOf 16 15 := by decide
theorem witness_CmdWriteRunsTheDecodedCommand :
    let s := { quantIdle with script := [.regWrite 14 257] }
    s.st = .idle ∧ s.script = .regWrite 14 257 :: [] ∧ decode .command [BitVec.ofNat 8 257] = .ok (.quant, []) :=
  ⟨rfl, rfl, rfl⟩
theorem witness_DecStepRunsTheFetchedRunByte :
    decMid.st = .decRun ∧ decMid.script = [] ∧ decMid.n.toNat ≠ decMid.size ∧ decMid.k ≠ decMid.alen
      ∧ decode .runByte [decMid.art.read decMid.k.toNat] = .ok (.runByte 2 0, []) :=
  ⟨rfl, rfl, by decide, by decide, rfl⟩
theorem witness_ClrClearsStatusAndNothingElse : fresh.st = .idle := rfl
theorem witness_ReservedBytesRaiseIllegalCommand :
    fresh.st = .idle ∧ (∃ l, Instr.reserved08 0 = .reserved08 l) ∧ (∃ l, Instr.reserved10 0 = .reserved10 l)
      ∧ (∃ l, Instr.reserved20 0 = .reserved20 l) ∧ (∃ l, Instr.reserved40 0 = .reserved40 l)
      ∧ (∃ l, Instr.reserved80 0 = .reserved80 l) :=
  ⟨rfl, ⟨_, rfl⟩, ⟨_, rfl⟩, ⟨_, rfl⟩, ⟨_, rfl⟩, ⟨_, rfl⟩⟩
theorem witness_CommandsDoNotSeeTheOldStatus : Instr.isRunByte .enc = false ∧ fresh.st = .idle := ⟨rfl, rfl⟩
theorem witness_CommandsAreIgnoredWhileBusy : Instr.isRunByte .enc = false ∧ quantMid.st ≠ .idle := by decide
theorem witness_QuantStartsWhenItsChecksHold :
    let s := { quantIdle with w := 16, pixlen := 16, levels := 2 }
    s.st = .idle ∧ 2 ≤ s.levels.toNat ∧ s.levels.toNat ≤ 16 ∧ s.size ≤ s.cap ∧ s.pixlen.toNat = s.size := by decide
theorem witness_EncAndCountStartWhenTheirChecksHold :
    let s := { encIdle with w := 16, idxlen := 16, tilew := 1 }
    s.st = .idle ∧ s.tilew ≠ 0 ∧ s.size ≤ s.cap ∧ s.idxlen.toNat = s.size := by decide

/-- Each rejection of QUANT at its boundary: levels 1 and 17, 17 elements, a length one off. -/
theorem witness_StartRejections_quant :
    ({ quantIdle with levels := 1 } : State).levels.toNat < 2 ∧ 16 < ({ quantIdle with levels := 17 } : State).levels.toNat
      ∧ ({ quantIdle with w := 17 } : State).cap < ({ quantIdle with w := 17 } : State).size
      ∧ ({ quantIdle with pixlen := 2 } : State).size ≤ 16
      ∧ ({ quantIdle with pixlen := 2 } : State).pixlen.toNat ≠ ({ quantIdle with pixlen := 2 } : State).size
      ∧ quantIdle.st = .idle ∧ 2 ≤ quantIdle.levels.toNat ∧ quantIdle.levels.toNat ≤ 16 := by decide
/-- Each rejection of ENC, COUNT and DEC at its boundary: tile 0, 17 elements, a length one off, an artifact of 17 bytes. -/
theorem witness_StartRejections_scan :
    encIdle.st = .idle ∧ encIdle.tilew ≠ 0 ∧ ({ encIdle with tilew := 0 } : State).tilew = 0
      ∧ ({ encIdle with w := 17 } : State).cap < ({ encIdle with w := 17 } : State).size
      ∧ encIdle.size ≤ encIdle.cap ∧ ({ encIdle with idxlen := 3 } : State).idxlen.toNat ≠ encIdle.size
      ∧ ({ decIdle with alen := 17 } : State).cap < ({ decIdle with alen := 17 } : State).alen.toNat := by decide
theorem witness_DecStartsWhenItsChecksHold :
    let s := { decIdle with w := 16, alen := 16 }
    s.st = .idle ∧ s.tilew ≠ 0 ∧ s.size ≤ s.cap ∧ s.alen.toNat ≤ s.cap := by decide
theorem tilted_unit (s : State) (p : TrigParameter) : trigUnit p (tilted s).angle := trigUnit_of_roots rfl (by decide)
theorem witness_GeometryCompletesOnUnitTrig :
    let s := tilted (sized 1 65535 1)
    s.st = .idle ∧ s.w ≠ 0 ∧ s.h ≠ 0 ∧ trigUnit Config.trig s.angle := ⟨rfl, by decide, by decide, tilted_unit _ _⟩
theorem witness_GeometryRejectsZeroDimensions :
    (sized 0 1 1).st = .idle ∧ (sized 0 1 1).w = 0 ∧ (sized 1 0 1).h = 0 := by decide
/-- The faults and the completions themselves are in `test_geometry_faults`, `test_bbox_value` and `test_irect_values`; here a
zero divisor, and results that fit and that do not. -/
theorem witness_GeometryFaultsExactlyOnUFour :
    (sized 1 1 1).st = .idle ∧ (sized 1 1 1).w ≠ 0 ∧ (sized 1 1 1).h ≠ 0 ∧ ∀ p : TrigParameter,
      (ThinReal 1 1 (sinOf p (.trig ⟨0, 0, 0⟩)) (cosOf p (.trig ⟨0, 0, 0⟩)) ∧ sinOf p (.trig ⟨0, 0, 0⟩) = 0)
      ∧ ¬ (ThinReal 1 1 (sinOf p (.trig ⟨0, 1, 0⟩)) (cosOf p (.trig ⟨0, 1, 0⟩))
          ∧ (sinOf p (.trig ⟨0, 1, 0⟩) = 0 ∨ cosOf p (.trig ⟨0, 1, 0⟩) = 0)) := by
  refine ⟨rfl, by decide, by decide, fun p => ?_⟩
  have h0 : sinOf p (.trig ⟨0, 0, 0⟩) = 0 := by simp [sinOf]
  have h1 : cosOf p (.trig ⟨0, 0, 0⟩) = 0 := by simp [cosOf]
  have h2 : sinOf p (.trig ⟨0, 1, 0⟩) = 0 := by simp [sinOf]
  have h3 : cosOf p (.trig ⟨0, 1, 0⟩) = 1 := by simp [cosOf, trigDen]
  refine ⟨⟨?_, h0⟩, ?_⟩
  · rw [h0, h1]; exact .inr (by norm_num)
  · rw [h2, h3]; unfold ThinReal; norm_num

theorem witness_QuantStepHandlesOneSample :
    quantMid.Inv ∧ quantMid.st = .quantRun ∧ quantMid.script = [] ∧ quantMid.i.toNat ≠ quantMid.size
      ∧ quantEnd.Inv ∧ quantEnd.st = .quantRun ∧ quantEnd.script = [] ∧ quantEnd.i.toNat = quantEnd.size :=
  ⟨quantMid_inv, rfl, rfl, by decide, quantEnd_inv, rfl, rfl, by decide⟩
/-- A run that goes on, a run that ends with its chunk, and a run that ends with its row. -/
theorem witness_ScanStepConsumesOneSample_enc :
    (encMid.Inv ∧ encMid.st = .encRun ∧ encMid.script = [] ∧ encMid.w ≠ 0 ∧ encMid.y.toNat ≠ encMid.h.toNat
        ∧ ¬ sampleEndsRun encMid)
      ∧ (encChunkEnd.Inv ∧ encChunkEnd.st = .encRun ∧ sampleEndsRun encChunkEnd
        ∧ encChunkEnd.y.toNat ≠ encChunkEnd.h.toNat)
      ∧ encRowEnd.Inv ∧ encRowEnd.st = .encRun ∧ sampleEndsRun encRowEnd ∧ encRowEnd.y.toNat ≠ encRowEnd.h.toNat :=
  ⟨⟨encMid_inv, rfl, rfl, by decide, by decide, by decide⟩, ⟨encChunkEnd_inv, rfl, by decide, by decide⟩,
    encRowEnd_inv, rfl, by decide, by decide⟩
theorem witness_ScanStepConsumesOneSample_count :
    State.Inv { encMid with st := .countRun, rcount := 0 } ∧ ¬ sampleEndsRun { encMid with st := .countRun, rcount := 0 }
      ∧ State.Inv { encChunkEnd with st := .countRun, rcount := 0 }
      ∧ sampleEndsRun { encChunkEnd with st := .countRun, rcount := 0 }
      ∧ State.Inv { encRowEnd with st := .countRun, rcount := 0 } :=
  ⟨countMid_inv, by decide, countChunkEnd_inv, by decide, countRowEnd_inv⟩
theorem witness_ScanEndReportsTheCount :
    encEnd.script = [] ∧ encEnd.y.toNat = encEnd.h.toNat ∧ encEnd.st = .encRun
      ∧ ({ encEnd with st := .countRun, w := 0 } : State).w = 0 := by decide
/-- A run that stays inside its chunk, and one that fills the row. -/
theorem witness_RunByteExpandsARunThatFits :
    (decMid.Inv ∧ decMid.st = .decRun ∧ decMid.n.toNat ≠ decMid.size ∧ decMid.k ≠ decMid.alen
        ∧ decMid.x.toNat + 1 ≤ decMid.cend.toNat)
      ∧ decSecond.Inv ∧ decSecond.n.toNat ≠ decSecond.size ∧ decSecond.k ≠ decSecond.alen
        ∧ decSecond.x.toNat + 2 = decSecond.cend.toNat :=
  ⟨⟨decMid_inv, rfl, by decide, by decide, by decide⟩, decSecond_inv, by decide, by decide, by decide⟩
theorem witness_RunByteOverrunFailsTheDecode :
    decMid.st = .decRun ∧ decMid.n.toNat ≠ decMid.size ∧ decMid.k ≠ decMid.alen
      ∧ decMid.cend.toNat < decMid.x.toNat + 5 := by decide
theorem witness_DecEndTests :
    (decDone.st = .decRun ∧ decDone.script = [] ∧ decDone.n.toNat = decDone.size ∧ decDone.k = decDone.alen)
      ∧ ({ decDone with alen := 3 } : State).k ≠ ({ decDone with alen := 3 } : State).alen
      ∧ ({ decSecond with alen := 1 } : State).n.toNat ≠ decSecond.size
      ∧ ({ decSecond with alen := 1 } : State).k = ({ decSecond with alen := 1 } : State).alen := by decide
theorem witness_RunByteIsDataOutsideDec : fresh.st ≠ .decRun := by decide

theorem witness_QuantComputesQuantSample :
    quantIdle.st = .idle ∧ quantIdle.script = [] ∧ 2 ≤ quantIdle.levels.toNat ∧ quantIdle.levels.toNat ≤ 16
      ∧ quantIdle.size ≤ quantIdle.cap ∧ quantIdle.pixlen.toNat = quantIdle.size := by decide
theorem witness_EncStepsComputeEncode :
    encIdle.st = .idle ∧ encIdle.script = [] ∧ encIdle.tilew ≠ 0 ∧ encIdle.size ≤ encIdle.cap
      ∧ encIdle.idxlen.toNat = encIdle.size := by decide
theorem witness_CountStepsComputeCountRuns :
    encIdle.st = .idle ∧ encIdle.script = [] ∧ encIdle.tilew ≠ 0 ∧ encIdle.size ≤ encIdle.cap
      ∧ encIdle.idxlen.toNat = encIdle.size := by decide
theorem witness_CountAgreesWithEnc : encIdle.st = .idle ∧ encIdle.script = [] := ⟨rfl, rfl⟩
theorem witness_DecOfAcceptedArtifactSucceeds :
    decIdle.st = .idle ∧ decIdle.script = [] ∧ decIdle.tilew ≠ 0 ∧ decIdle.size ≤ decIdle.cap
      ∧ decIdle.alen.toNat ≤ decIdle.cap
      ∧ decodeBuffer decIdle.artList decIdle.w.toNat decIdle.h.toNat decIdle.tilew.toNat = some [0, 0, 15, 15] := by
  decide +kernel
theorem witness_DecOfMalformedArtifactFails :
    let s := withArt (sized 4 1 320) [0x10]
    s.st = .idle ∧ s.script = [] ∧ s.tilew ≠ 0 ∧ s.size ≤ s.cap ∧ s.alen.toNat ≤ s.cap
      ∧ decodeBuffer s.artList s.w.toNat s.h.toNat s.tilew.toNat = none := by decide +kernel
theorem witness_EncThenDecIsTheIdentity :
    let s := { encIdle with script := [.regWrite 14 2, .wait, .regWrite 14 3, .wait] }
    ([7, 7, 7, 7] : List Nibble).length = 4 * 1 ∧ s.st = .idle ∧ s.tilew ≠ 0 ∧ s.size ≤ s.cap
      ∧ s.idxlen.toNat = s.size := by decide
/-- R119: `15 15` decodes to `[5,5,5,5]`, whose encoding is `35`. -/
theorem witness_ReencodingIsNoLonger :
    decodeBuffer [0x15, 0x15] 4 1 320 = some [5, 5, 5, 5] ∧ encodeBuffer [5, 5, 5, 5] 4 1 320 = [0x35] := by
  decide +kernel
/-- Seventeen equal samples are `F9 09` (S2), two neighbouring runs the left one of which has length 16. -/
theorem witness_ArtifactLengthBounds :
    (List.replicate 17 (9 : Nibble)).length = 17 * 1 ∧ encodeChunk (List.replicate 17 9) = [0xF9, 0x09] := by
  decide +kernel
theorem witness_RunningOperationEnds : encMid.Inv ∧ encMid.st ≠ .idle ∧ encMid.script = [] :=
  ⟨encMid_inv, by decide, rfl⟩
theorem witness_EveryStepKeepsTheInvariant : quantMid.Inv ∧ next? (step quantMid) (fun _ => true) = true :=
  ⟨quantMid_inv, by decide⟩
theorem witness_StatusTakesFourValues : encMid.Inv := encMid_inv
theorem witness_OnlyTheHostWritesOperandRegisters :
    next? (step { fresh with script := [.regWrite 0 5] }) (fun t => t.w == 5) = true ∧ fresh.w ≠ 5 := by decide
/-- `IDLE` left, returned to, and a running state kept. -/
theorem witness_SequencerStateChangesOnlyByCommandEndOrReset :
    next? (step { encIdle with script := [.regWrite 14 2] }) (fun t => t.st == .encRun) = true ∧ encIdle.st = .idle
      ∧ next? (step encEnd) (fun t => t.st == .idle) = true ∧ encEnd.st = .encRun
      ∧ next? (step encMid) (fun t => t.st == .encRun) = true ∧ encMid.st = .encRun := by decide
/-- A command that ends in `IDLE`, and an operation that does. -/
theorem witness_CursorsKeepTheirValuesInIdle :
    next? (step { fresh with script := [.regWrite 14 0] }) (fun t => t.st == .idle) = true
      ∧ next? (step encEnd) (fun t => t.st == .idle) = true
      ∧ (∀ rest, encEnd.script ≠ .reset :: rest) := ⟨by decide, by decide, fun _ h => by cases h⟩
theorem witness_NoStepStopsOnUnitTrig :
    trigUnit Config.trig (tilted fresh).angle := tilted_unit _ _
theorem witness_SequencerWritesOnlyItsDestination :
    quantMid.script = [] ∧ next? (step quantMid) (fun _ => true) = true ∧ quantMid.st = .quantRun
      ∧ next? (step decMid) (fun _ => true) = true ∧ decMid.st = .decRun
      ∧ next? (step encMid) (fun _ => true) = true ∧ next? (step fresh) (fun _ => true) = true
      ∧ next? (step { encMid with st := .countRun }) (fun _ => true) = true := by decide
/-- The boundary numbers of the clauses: 0, 8, 9 and 19. -/
theorem witness_RegWriteStoresModuloItsWidth :
    let s := { fresh with script := [.regWrite 8 7, .regWrite 0 65536, .regWrite 9 1, .regWrite 19 1] }
    s.st = .idle ∧ s.script = .regWrite 8 7 :: s.script.tail ∧ (8 ≠ 14 ∧ 8 ≤ 8 ∧ 8 ≠ 5) ∧ (0 ≠ 14 ∧ 0 ≤ 8)
      ∧ (9 ≠ 14 ∧ 8 < 9) ∧ (19 ≠ 14 ∧ 8 < 19) ∧ (5 ≠ 14 ∧ 5 = 5)
      ∧ ({ fresh with script := [.angleWrite (.sixths 1)] } : State).script = .angleWrite (.sixths 1) :: [] := by decide
theorem witness_HostReadsChangeNothing :
    let s := { fresh with script := [.regRead 2, .regRead 2] }
    let s' := { fresh with script := [.bufRead .pix 15, .bufRead .pix 15] }
    s.st = .idle ∧ (∃ n, HostAction.regRead 2 = .regRead n) ∧ s.script = .regRead 2 :: .regRead 2 :: []
      ∧ s'.st = .idle ∧ (∃ b i, HostAction.bufRead .pix 15 = .bufRead b i ∧ i < s'.cap)
      ∧ s'.script = .bufRead .pix 15 :: .bufRead .pix 15 :: [] :=
  ⟨rfl, ⟨_, rfl⟩, rfl, rfl, ⟨_, _, rfl, by decide⟩, rfl⟩
/-- Register numbers 0, 18 and 19, and the last element below a length. -/
theorem witness_HostReadsReturnRegistersAndElements :
    ({ fresh with script := [.regRead 0] } : State).script = .regRead 0 :: []
      ∧ ({ fresh with script := [.regRead 18] } : State).script = .regRead 18 :: [] ∧ 18 < 19 ∧ fresh.st = .idle
      ∧ ({ decIdle with script := [.bufRead .art 1] } : State).script = .bufRead .art 1 :: []
      ∧ 1 < decIdle.cap ∧ 1 < decIdle.lenOf .art := by decide
/-- The last element and the first address that is none. -/
theorem witness_BufWriteStoresOneElement :
    ({ fresh with script := [.bufWrite .idx 15 9] } : State).script = .bufWrite .idx 15 9 :: [] ∧ 15 < fresh.cap
      ∧ ({ fresh with script := [.bufWrite .idx 16 9] } : State).script = .bufWrite .idx 16 9 :: [] ∧ fresh.cap ≤ 16
      ∧ fresh.st = .idle ∧ Buf.pix ≠ Buf.idx := by decide
theorem witness_BusyHostAccess :
    let s := { encMid with script := [.regWrite 14 0, .regRead 15, .regRead 19, .bufRead .idx 0] }
    s.st ≠ .idle ∧ s.script = .regWrite 14 0 :: s.script.tail ∧ s.script.tail = .regRead 15 :: s.script.tail.tail
      ∧ s.script.tail.tail = .regRead 19 :: [.bufRead .idx 0] ∧ 18 < 19 := by decide
/-- `pass` and `WAIT`, running and idle. -/
theorem witness_PassAndWaitGiveTheSequencerItsStep :
    ({ encMid with script := [.pass] } : State).script = .pass :: [] ∧ encMid.st ≠ .idle
      ∧ ({ encMid with script := [.wait] } : State).script = .wait :: [] ∧ fresh.st = .idle := by decide
theorem witness_ResetEventFromAnyState :
    ({ encMid with script := [.reset] } : State).script = .reset :: [] := rfl
/-- `LEVELS` 2 and 16, the extreme levels, and two samples in order. -/
theorem witness_QuantizerRangesAndMonotonicity :
    (2 ≤ 2 ∧ 2 ≤ 16) ∧ (2 ≤ 16 ∧ 16 ≤ 16) ∧ 255 ≤ 255 ∧ 15 ≤ 16 - 1
      ∧ pixelR (pixelOf 0 0 0) + pixelG (pixelOf 0 0 0) + pixelB (pixelOf 0 0 0)
          ≤ pixelR (pixelOf 255 255 255) + pixelG (pixelOf 255 255 255) + pixelB (pixelOf 255 255 255) := by decide
theorem witness_QuantizerStepsRoundToNearest : 255 ≤ 255 ∧ 2 ≤ 2 ∧ 16 ≤ 16 ∧ 15 ≤ 16 - 1 := by decide
/-- Both sums of R87: 15 at an even `LEVELS`, 16 at the tie level of `LEVELS = 3`. -/
theorem witness_InvertSymmetry :
    (quantSample (pixelOf 100 150 200) 16 true).toNat + (quantSample (pixelOf 100 150 200) 16 false).toNat = 15
      ∧ (quantSample (pixelOf 128 128 128) 3 true).toNat + (quantSample (pixelOf 128 128 128) 3 false).toNat = 16 := by
  decide
theorem witness_TrigIsTheExactSineAndCosine :
    Nonempty ExactArithmetic ∧ radiansOf (.sixths 5) = some (5 * Real.pi / 6) ∧ (∃ x, radiansOf (.real 7) = some x)
      ∧ ∀ e : ExactArithmetic, sinOf (.reference e) (.sixths 1) = sinOf (.reference e) (.sixths 5)
        ∧ cosOf (.reference e) (.sixths 1) = cosOf (.reference e) (.sixths 5) :=
  ⟨exactArithmetic_nonempty, by simp [radiansOf], ⟨_, rfl⟩, fun _ => ⟨rfl, rfl⟩⟩
/-- R71: 1, `pi/8` and `1 + pi/4` radians, and the plain numbers 0 and 1. -/
theorem test_real_expressions :
    radiansOf (.expr (.nat 1)) = some 1 ∧ radiansOf (.expr (.over .pi 7)) = some (Real.pi / 8)
      ∧ radiansOf (.expr (.add (.nat 1) (.over .pi 3))) = some (1 + Real.pi / 4)
      ∧ (fresh.writeReg 5 0).angle = .quarters 0 ∧ (fresh.writeReg 5 1).angle = .expr (.nat 1) := by
  refine ⟨?_, ?_, ?_, rfl, rfl⟩ <;> simp <;> norm_num
/-- A pair for each clause: thin with a zero divisor, thin either way round, and the second branch. -/
theorem witness_IrectIsTheExactFloor :
    irect 1 1 ⟨0, 0, 0⟩ = none
      ∧ thinRegime 320 240 (trigOfRat 3 5 4 5) = true ∧ thinRegime 240 320 (trigOfRat 3 5 4 5) = true
      ∧ thinRegime 200 195 (trigOfRat 3 5 4 5) = false := by decide +kernel
/-- `π/4`, `-π/4`, `5π/4`, `3π/4`, and `π/3` beside `π/6`. -/
theorem witness_AngleSymmetries :
    Nonempty ExactArithmetic ∧ radiansOf (.quarters 1) = some (Real.pi / 4) ∧ radiansOf (.quarters (-1)) = some (-(Real.pi / 4))
      ∧ radiansOf (.quarters 5) = some (Real.pi / 4 + Real.pi) ∧ radiansOf (.quarters 3) = some (Real.pi - Real.pi / 4)
      ∧ radiansOf (.sixths 1) = some (Real.pi / 6) ∧ radiansOf (.sixths 2) = some (Real.pi / 2 - Real.pi / 6)
      ∧ radiansOf (.sixths 4) = some (Real.pi / 2 + Real.pi / 6) := by
  refine ⟨exactArithmetic_nonempty, ?_, ?_, ?_, ?_, ?_, ?_, ?_⟩ <;> simp only [radiansOf, Option.some.injEq] <;> push_cast <;> ring
theorem witness_GeometryAtZeroQuarterAndHalf :
    1 ≤ 65535 ∧ Nonempty ExactArithmetic ∧ radiansOf (.quarters 0) = some 0 ∧ radiansOf (.quarters 2) = some (Real.pi / 2)
      ∧ radiansOf (.sixths 3) = some (Real.pi / 2) ∧ radiansOf (.quarters 1) = some (Real.pi / 4) := by
  refine ⟨by decide, exactArithmetic_nonempty, ?_, ?_, ?_, ?_⟩ <;> simp only [radiansOf, Option.some.injEq] <;> push_cast <;> ring
/-- R138: 1 by 1 at (3/5, 4/5) has results 0. -/
theorem witness_GeometryBounds :
    (∀ p, trigUnit p (.trig (trigOfRat 3 5 4 5))) ∧ irect 1 1 (trigOfRat 3 5 4 5) = some (0, 0) :=
  ⟨fun _ => trigUnit_of_roots rfl (by decide), by decide +kernel⟩

end Sys2Proof.Machine.Tests
end

