-- ==== Sys2Proof/Proofs/BusyHostAccess.lean ====
section
/-! PROOFS. What the host's accesses do while an operation runs (spec/10_state.md R29, spec/44_control.md R145). -/

namespace Sys2Proof.Machine

/-! ### The value a busy register read answers -/

theorem readRegBusy_status (s : State) : s.readRegBusy 15 = .value (s.status.setWidth 32) := rfl

theorem readRegBusy_of_gt (s : State) {n : Nat} (h : 18 < n) : s.readRegBusy n = .value 0 := by
  have hne : n ≠ 15 := by omega
  simp [State.readRegBusy, hne, h]

/-- A busy read looks at `STATUS` and at the count of free values, never at what the host will do next. -/
theorem readRegBusy_withScript (s : State) (rest : List HostAction) (n : Nat) :
    State.readRegBusy { s with script := rest } n = s.readRegBusy n := rfl

/-! ### One step with a host access while an operation runs -/

section
variable {s : State} {rest : List HostAction}

theorem step_of_busy {a : HostAction} (hbusy : s.st ≠ .idle) (hs : s.script = a :: rest) :
    step s = busyHostStep a { s with script := rest } := by
  rw [step_of_script_cons hs]
  exact hostStep_of_busy hbusy

/-- The step of a busy register read: it answers, draws a free value, and leaves the block as it is. -/
theorem step_busy_regRead {n : Nat} (hbusy : s.st ≠ .idle) (hs : s.script = .regRead n :: rest) :
    step s = .next { s with script := rest, reply := some (s.readRegBusy n), draws := s.draws + 1 } := by
  rw [step_of_busy hbusy hs, ← readRegBusy_withScript s rest n]
  rfl

/-- The step of a busy buffer read, likewise. -/
theorem step_busy_bufRead {b : Buf} {i : Nat} (hbusy : s.st ≠ .idle) (hs : s.script = .bufRead b i :: rest) :
    step s = .next { s with script := rest, reply := some (s.readBufBusy b), draws := s.draws + 1 } := by
  rw [step_of_busy hbusy hs]
  rfl

end

/-- Settles O48: each kind of access takes the one arm of the busy host step that is its own. -/
theorem busyHostAccess : Obligations.BusyHostAccess := by
  intro s a rest hbusy hs
  constructor
  · intro hwrite
    rw [step_of_busy hbusy hs]
    obtain ⟨n, v, rfl⟩ | ⟨v, rfl⟩ | ⟨b, i, v, rfl⟩ := hwrite <;> rfl
  · rintro (⟨n, rfl⟩ | ⟨b, i, rfl⟩)
    · refine ⟨_, s.readRegBusy n, step_busy_regRead hbusy hs, rfl, rfl, ?status, ?unmapped⟩
      case status =>
        intro h
        obtain rfl : n = 15 := HostAction.regRead.inj h
        exact readRegBusy_status s
      case unmapped =>
        intro m h hm
        obtain rfl : n = m := HostAction.regRead.inj h
        exact readRegBusy_of_gt s hm
    · exact ⟨_, s.readBufBusy b, step_busy_bufRead hbusy hs, rfl, rfl, nofun, nofun⟩

end Sys2Proof.Machine
end

section
/-! PROOFS. The run byte as a pair of nibbles: `runByteOf` and the two fields are inverse to each other
(spec/30_encoding.md R61, R62). -/

namespace Sys2Proof.Machine

/-! ### The fields of a byte -/

theorem decodeRunByte_eq (b : Byte) : decodeRunByte b = .runByte (runLengthOf b) (runValueOf b) := rfl

theorem runLengthOf_eq (b : Byte) : runLengthOf b = b.toNat / 16 + 1 := by
  have hb : b.toNat < 256 := b.isLt
  simp only [runLengthOf, BitVec.extractLsb'_toNat, Nat.shiftRight_eq_div_pow]
  omega

theorem toNat_runValueOf (b : Byte) : (runValueOf b).toNat = b.toNat % 16 := by
  simp [runValueOf, BitVec.extractLsb'_toNat]

theorem one_le_runLengthOf (b : Byte) : 1 ≤ runLengthOf b := Nat.le_add_left 1 _

theorem runLengthOf_le (b : Byte) : runLengthOf b ≤ 16 := by
  have hb : b.toNat < 256 := b.isLt
  rw [runLengthOf_eq]
  omega

/-! ### The byte of a run -/

/-- The bound on the run length is what keeps the sum below 256, so that the byte loses nothing. -/
theorem toNat_runByteOf {r : Nat} (hr : r ≤ 16) (v : Nibble) :
    (runByteOf r v).toNat = (r - 1) * 16 + v.toNat := by
  have hv : v.toNat < 16 := v.isLt
  simp only [runByteOf, BitVec.toNat_ofNat]
  omega

theorem runLengthOf_runByteOf {r : Nat} (hpos : 1 ≤ r) (hr : r ≤ 16) (v : Nibble) :
    runLengthOf (runByteOf r v) = r := by
  have hv : v.toNat < 16 := v.isLt
  rw [runLengthOf_eq, toNat_runByteOf hr]
  omega

theorem runValueOf_runByteOf {r : Nat} (hr : r ≤ 16) (v : Nibble) : runValueOf (runByteOf r v) = v := by
  have hv : v.toNat < 16 := v.isLt
  apply BitVec.eq_of_toNat_eq
  rw [toNat_runValueOf, toNat_runByteOf hr]
  omega

theorem runByteOf_fields (b : Byte) : runByteOf (runLengthOf b) (runValueOf b) = b := by
  apply BitVec.eq_of_toNat_eq
  rw [toNat_runByteOf (runLengthOf_le b), toNat_runValueOf, runLengthOf_eq]
  omega

/-! ### The obligations -/

/-- Settles O4: the run length and the value are the quotient and the remainder of the byte by 16. -/
theorem runByteFieldsOfEveryByte : Obligations.RunByteFieldsOfEveryByte := fun b =>
  ⟨runLengthOf b, runValueOf b, decodeRunByte_eq b, runLengthOf_eq b, toNat_runValueOf b,
    one_le_runLengthOf b, runLengthOf_le b⟩

/-- Settles O3: reading the fields inverts `runByteOf` on the left (injective) and on the right (onto the 256 bytes). -/
theorem runByteEncodingIsBijective : Obligations.RunByteEncodingIsBijective := by
  refine ⟨fun r v _ hr => toNat_runByteOf hr v, rfl, rfl, ?injective, ?surjective⟩
  case injective =>
    intro r r' v v' hpos hr hpos' hr' heq
    constructor
    · calc r = runLengthOf (runByteOf r v) := (runLengthOf_runByteOf hpos hr v).symm
        _ = runLengthOf (runByteOf r' v') := by rw [heq]
        _ = r' := runLengthOf_runByteOf hpos' hr' v'
    · calc v = runValueOf (runByteOf r v) := (runValueOf_runByteOf hr v).symm
        _ = runValueOf (runByteOf r' v') := by rw [heq]
        _ = v' := runValueOf_runByteOf hr' v'
  case surjective =>
    intro b
    exact ⟨runLengthOf b, runValueOf b, one_le_runLengthOf b, runLengthOf_le b, runByteOf_fields b⟩

end Sys2Proof.Machine
end

section
/-! PROOFS. The QUANT step: its two cases as equations, and what each writes (spec/40_quantizer.md R84). -/

namespace Sys2Proof.Machine

/-! ### The two cases of the step -/

theorem quantStep_of_end {s : State} (hend : s.i.toNat = s.size) :
    quantStep s = (s.setIdxlen (BitVec.ofNat 32 s.size)).finish := by
  simp [quantStep, hend]

/-- With a sample left, the step is `quantSample` of `PIX[i]` stored in `IDX[i]`, and `i` moved on. -/
theorem quantStep_of_sample {s : State} (hleft : s.i.toNat ≠ s.size) :
    quantStep s =
      { s with
        idx := (s.writeIdx s.i.toNat (quantSample (s.pix.read s.i.toNat) s.levels.toNat (s.invert == 1))).idx
        i := s.i + 1 } := by
  simp [quantStep, hleft]

/-- The machine's step while QUANT runs is the QUANT step, whatever it finds: QUANT cannot fail (R84). -/
theorem step_of_quantRun {s : State} (hst : s.st = .quantRun) (hs : s.script = []) :
    step s = .next (quantStep s) := by
  rw [step_of_script_nil hs, sequencerStep_quant hst]

/-! ### The index of a sample that is left -/

/-- The invariant keeps `i` within the samples, so a sample that is left stands inside the buffer. -/
theorem quant_index_lt {s : State} (hinv : s.Inv) (hst : s.st = .quantRun) (hleft : s.i.toNat ≠ s.size) :
    s.i.toNat < s.size ∧ s.i.toNat < s.cap := by
  obtain ⟨-, -, -, hquant, -⟩ := hinv
  obtain ⟨-, -, hcap, -, -, hi⟩ := hquant hst
  omega

/-- A sample count fits 32 bits, so the index does not wrap. -/
theorem toNat_index_succ {s : State} (hi : s.i.toNat < s.size) : (s.i + 1).toNat = s.i.toNat + 1 := by
  have hfits : s.i.toNat + (1 : Len).toNat < 2 ^ 32 := lt_of_le_of_lt hi (size_lt s)
  exact BitVec.toNat_add_of_lt hfits

/-! ### The obligation -/

/-- Settles O19, by the two cases of the QUANT step. The invariant is what makes the store take effect: it puts `i` below `CAP`. -/
theorem quantStepHandlesOneSample : Obligations.QuantStepHandlesOneSample := by
  intro s hinv hst hs
  constructor
  case left =>
    intro hend
    refine ⟨quantStep s, step_of_quantRun hst hs, ?_⟩
    rw [quantStep_of_end hend]
    refine ⟨rfl, size_ofNat_toNat s, fun a ha => ?_⟩
    have hkept : a < (BitVec.ofNat 32 s.size).toNat := by rwa [size_ofNat_toNat]
    exact Memory.read_keepBelow_of_lt s.idx hkept
  case right =>
    intro hleft
    obtain ⟨hi, hcap⟩ := quant_index_lt hinv hst hleft
    refine ⟨quantStep s, step_of_quantRun hst hs, ?_⟩
    rw [quantStep_of_sample hleft]
    refine ⟨rfl, toNat_index_succ hi, ?stored, fun a ha => ?others⟩
    case stored => rw [read_writeIdx, if_pos ⟨rfl, hcap⟩]
    case others => rw [read_writeIdx, if_neg (fun h => ha h.1)]

end Sys2Proof.Machine
end

section
/-! PROOFS. The runs of one chunk (spec/41_rle_encoder.md R92, R100): a chunk is cut into maximal runs of at most 16 equal
samples, one byte each. -/

namespace Sys2Proof.Machine

/-! ### The length of the leading run -/

/-- What stands after a leading run that was cut at `limit` samples: another value, or the run is full. -/
abbrev endsRun (v : Nibble) (count limit : Nat) (rest : List Nibble) : Prop :=
  rest.head? ≠ some v ∨ count = limit

theorem leadRun_replicate_append {v : Nibble} {r limit : Nat} {rest : List Nibble} (hr : r ≤ limit)
    (hend : endsRun v r limit rest) : leadRun v (List.replicate r v ++ rest) limit = r := by
  induction r generalizing limit with
  | zero =>
    match rest, limit with
    | [], _ => rfl
    | _ :: _, 0 => rfl
    | u :: _, limit + 1 =>
      have hne : u ≠ v := by simpa [endsRun] using hend
      simp [leadRun, hne]
  | succ r ih =>
    obtain ⟨limit, rfl⟩ : ∃ l, limit = l + 1 := ⟨limit - 1, by omega⟩
    simpa [List.replicate_succ, leadRun] using ih (by omega) (by simpa [endsRun] using hend)

/-- Every sequence is its leading run followed by what ends it. -/
theorem exists_leadRun (v : Nibble) (limit : Nat) (c : List Nibble) :
    ∃ r rest, r ≤ limit ∧ c = List.replicate r v ++ rest ∧ endsRun v r limit rest := by
  induction c generalizing limit with
  | nil => exact ⟨0, [], by simp [endsRun]⟩
  | cons u c ih =>
    match limit with
    | 0 => exact ⟨0, u :: c, by simp [endsRun]⟩
    | limit + 1 =>
      by_cases huv : u = v
      · obtain ⟨r, rest, hr, rfl, hend⟩ := ih limit
        exact ⟨r + 1, rest, by omega, by simp [huv, List.replicate_succ], hend.imp_right (congrArg (· + 1))⟩
      · exact ⟨0, u :: c, by simp [endsRun, huv]⟩

/-! ### `encode_chunk` run by run -/

/-- A sequence has no more runs than elements, so fuel beyond its length changes nothing. -/
theorem encodeChunkFuel_congr {f g : Nat} {c : List Nibble} (hf : c.length ≤ f) (hg : c.length ≤ g) :
    encodeChunkFuel f c = encodeChunkFuel g c := by
  induction f generalizing g c with
  | zero =>
    obtain rfl := List.length_eq_zero_iff.mp (Nat.le_zero.mp hf)
    cases g <;> rfl
  | succ f ih =>
    match c, g with
    | [], 0 => rfl
    | [], _ + 1 => rfl
    | v :: rest, g + 1 =>
      simp only [List.length_cons] at hf hg
      simp only [encodeChunkFuel, List.drop_succ_cons]
      exact congrArg _ (ih (by rw [List.length_drop]; omega) (by rw [List.length_drop]; omega))

theorem encodeChunkFuel_eq {fuel : Nat} {c : List Nibble} (h : c.length ≤ fuel) :
    encodeChunkFuel fuel c = encodeChunk c :=
  encodeChunkFuel_congr h le_rfl

@[simp] theorem encodeChunk_nil : encodeChunk [] = [] := rfl

/-- A maximal run becomes one byte, and the bytes of the rest follow (R92). -/
theorem encodeChunk_run {v : Nibble} {r : Nat} {rest : List Nibble} (hpos : 1 ≤ r) (hr : r ≤ 16)
    (hend : endsRun v r 16 rest) :
    encodeChunk (List.replicate r v ++ rest) = runByteOf r v :: encodeChunk rest := by
  obtain ⟨r, rfl⟩ : ∃ p, r = p + 1 := ⟨r - 1, by omega⟩
  have hlead : leadRun v (List.replicate r v ++ rest) (Config.runMax - 1) = r :=
    leadRun_replicate_append (Nat.le_of_succ_le_succ hr) (hend.imp_right Nat.succ.inj)
  have hfuel : encodeChunk (List.replicate (r + 1) v ++ rest)
      = encodeChunkFuel (r + rest.length + 1) (v :: (List.replicate r v ++ rest)) := by
    rw [encodeChunkFuel_eq (by simp)]; rfl
  rw [hfuel, encodeChunkFuel]
  simp only [hlead, List.drop_succ_cons, List.drop_left' List.length_replicate]
  rw [encodeChunkFuel_eq (Nat.le_add_left _ _)]

/-- What holds of the empty chunk and is kept by putting one more maximal run in front holds of every chunk. -/
theorem chunk_induction {motive : List Nibble → Prop} (nil : motive [])
    (run : ∀ (v : Nibble) (r : Nat) (rest : List Nibble), 1 ≤ r → r ≤ 16 → endsRun v r 16 rest → motive rest →
      motive (List.replicate r v ++ rest)) :
    ∀ c, motive c := by
  intro c
  induction hn : c.length using Nat.strong_induction_on generalizing c with
  | _ n ih =>
    match c with
    | [] => exact nil
    | v :: tail =>
      obtain ⟨r, rest, hr, rfl, hend⟩ := exists_leadRun v 15 tail
      have hlt : rest.length < n := by simp at hn; omega
      exact run v (r + 1) rest (by omega) (by omega) (hend.imp_right (congrArg (· + 1))) (ih _ hlt rest rfl)

/-! ### R100 for one chunk -/

theorem encodeChunk_length_le (c : List Nibble) : (encodeChunk c).length ≤ c.length := by
  induction c using chunk_induction with
  | nil => rfl
  | run v r rest hpos hr hend ih =>
    rw [encodeChunk_run hpos hr hend]
    simp only [List.length_cons, List.length_append, List.length_replicate]
    omega

/-- A run takes at most 16 samples off the chunk. -/
theorem ceilDiv_le_encodeChunk_length (c : List Nibble) : ceilDiv c.length 16 ≤ (encodeChunk c).length := by
  induction c using chunk_induction with
  | nil => decide
  | run v r rest hpos hr hend ih =>
    rw [encodeChunk_run hpos hr hend]
    simp only [ceilDiv, List.length_cons, List.length_append, List.length_replicate] at ih ⊢
    omega

theorem encodeChunk_runLengths_sum (c : List Nibble) : ((encodeChunk c).map runLengthOf).sum = c.length := by
  induction c using chunk_induction with
  | nil => rfl
  | run v r rest hpos hr hend ih =>
    rw [encodeChunk_run hpos hr hend]
    simp [runLengthOf_runByteOf hpos hr, ih]

/-- The first run has the value of the first sample. -/
theorem encodeChunk_head_value (c : List Nibble) : (encodeChunk c).head?.map runValueOf = c.head? := by
  induction c using chunk_induction with
  | nil => rfl
  | run v r rest hpos hr hend ih =>
    rw [encodeChunk_run hpos hr hend, List.head?_append]
    simp [runValueOf_runByteOf hr, List.head?_replicate, Nat.ne_of_gt hpos]

/-- Runs are maximal: two neighbours differ in value unless the left one is full (R100 (e)). -/
theorem encodeChunk_neighbours (c : List Nibble) (j : Nat) (a b : Byte) (ha : (encodeChunk c)[j]? = some a)
    (hb : (encodeChunk c)[j + 1]? = some b) : runValueOf a ≠ runValueOf b ∨ runLengthOf a = 16 := by
  induction c using chunk_induction generalizing j with
  | nil => cases ha
  | run v r rest hpos hr hend ih =>
    rw [encodeChunk_run hpos hr hend] at ha hb
    rw [List.getElem?_cons_succ] at hb
    match j with
    | 0 =>
      obtain rfl : runByteOf r v = a := by simpa using ha
      have hfirst : rest.head? = some (runValueOf b) := by
        rw [← encodeChunk_head_value, List.head?_eq_getElem?, hb]; rfl
      rw [runValueOf_runByteOf hr, runLengthOf_runByteOf hpos hr]
      exact hend.imp_left fun hne heq => hne (hfirst.trans (congrArg some heq.symm))
    | j + 1 => exact ih j ha hb

end Sys2Proof.Machine
end

section
/-! PROOFS. The artifact chunk by chunk (spec/41_rle_encoder.md R91, R93, R100): `encodeBuffer` is `encodeChunk` of one chunk
after another, the chunks having the sizes `chunkSizes` lists. -/

namespace Sys2Proof.Machine

/-! ### The sizes of the chunks -/

/-- The sizes of the chunks of one row, from left to right (R91). -/
def rowSizes (w t : Nat) : List Nat :=
  (List.range (ceilDiv w t)).map fun j => min ((j + 1) * t) w - j * t

theorem chunkSizes_zero (w t : Nat) : chunkSizes w 0 t = [] := rfl

/-- All rows are cut at the same columns. -/
theorem chunkSizes_succ (w h t : Nat) : chunkSizes w (h + 1) t = rowSizes w t ++ chunkSizes w h t := by
  simp [chunkSizes, List.range_succ_eq_map, rowSizes, List.flatMap_map]

theorem ceilDiv_zero {t : Nat} (ht : 1 ≤ t) : ceilDiv 0 t = 0 :=
  Nat.div_eq_of_lt (by omega)

theorem ceilDiv_eq_succ {w t : Nat} (ht : 1 ≤ t) (hw : 1 ≤ w) : ceilDiv w t = ceilDiv (w - t) t + 1 := by
  unfold ceilDiv
  rcases le_total t w with htw | hwt
  · rw [← Nat.add_div_right _ ht]
    congr 1
    omega
  · rw [Nat.sub_eq_zero_of_le hwt, Nat.div_eq_of_lt (show 0 + t - 1 < t by omega)]
    exact Nat.div_eq_of_lt_le (by omega) (by omega)

theorem rowSizes_zero {t : Nat} (ht : 1 ≤ t) : rowSizes 0 t = [] := by
  simp [rowSizes, ceilDiv_zero ht]

/-- A row is its first chunk and then a row narrower by `t` columns. -/
theorem rowSizes_cons {w t : Nat} (ht : 1 ≤ t) (hw : 1 ≤ w) : rowSizes w t = min t w :: rowSizes (w - t) t := by
  have hshift : ∀ j, min ((j + 1 + 1) * t) w - (j + 1) * t = min ((j + 1) * t) (w - t) - j * t := by
    intro j
    simp only [Nat.add_mul]
    omega
  simp [rowSizes, ceilDiv_eq_succ ht hw, List.range_succ_eq_map, hshift, Function.comp_def]

theorem length_rowSizes (w t : Nat) : (rowSizes w t).length = ceilDiv w t := by simp [rowSizes]

theorem length_chunkSizes (w h t : Nat) : (chunkSizes w h t).length = h * ceilDiv w t := by
  induction h with
  | zero => simp [chunkSizes_zero]
  | succ h ih => rw [chunkSizes_succ, List.length_append, ih, length_rowSizes, Nat.succ_mul, Nat.add_comm]

/-- The chunks of a row cover its columns, and none is empty. -/
theorem rowSizes_sum_and_pos {t : Nat} (ht : 1 ≤ t) (w : Nat) :
    (rowSizes w t).sum = w ∧ ∀ m ∈ rowSizes w t, 1 ≤ m := by
  induction w using Nat.strong_induction_on with
  | _ w ih =>
    rcases Nat.eq_zero_or_pos w with rfl | hw
    · simp [rowSizes_zero ht]
    · obtain ⟨hsum, hpos⟩ := ih (w - t) (by omega)
      rw [rowSizes_cons ht hw]
      refine ⟨by rw [List.sum_cons, hsum]; omega, fun m hm => ?_⟩
      rcases List.mem_cons.mp hm with rfl | hm
      · omega
      · exact hpos m hm

theorem rowSizes_sum {t : Nat} (ht : 1 ≤ t) (w : Nat) : (rowSizes w t).sum = w := (rowSizes_sum_and_pos ht w).1

theorem chunkSizes_sum {t : Nat} (ht : 1 ≤ t) (w h : Nat) : (chunkSizes w h t).sum = w * h := by
  induction h with
  | zero => rfl
  | succ h ih => rw [chunkSizes_succ, List.sum_append, ih, rowSizes_sum ht, Nat.mul_succ, Nat.add_comm]

theorem chunkSizes_pos {t : Nat} (ht : 1 ≤ t) (w h : Nat) : ∀ m ∈ chunkSizes w h t, 1 ≤ m := by
  induction h with
  | zero => simp [chunkSizes_zero]
  | succ h ih =>
    rw [chunkSizes_succ]
    exact fun m hm => (List.mem_append.mp hm).elim ((rowSizes_sum_and_pos ht w).2 m) (ih m)

/-! ### Encoding one chunk after another -/

/-- The bytes of a sequence cut into chunks of the given sizes. -/
def encodeChunks : List Nat → List Nibble → List Byte
  | [], _ => []
  | m :: sizes, q => encodeChunk (q.take m) ++ encodeChunks sizes (q.drop m)

@[simp] theorem encodeChunks_nil (sizes : List Nat) : encodeChunks sizes [] = [] := by
  induction sizes with
  | nil => rfl
  | cons m sizes ih => simp [encodeChunks, ih]

/-- An empty chunk has no bytes. -/
@[simp] theorem encodeChunks_zero_cons (sizes : List Nat) (q : List Nibble) :
    encodeChunks (0 :: sizes) q = encodeChunks sizes q := by
  simp [encodeChunks]

theorem encodeChunks_append (a b : List Nat) (q : List Nibble) :
    encodeChunks (a ++ b) q = encodeChunks a q ++ encodeChunks b (q.drop a.sum) := by
  induction a generalizing q with
  | nil => rfl
  | cons m a ih => simp [encodeChunks, ih, List.drop_drop]

/-- A chunk whose first samples are `a`. -/
theorem encodeChunks_cons_append {a : List Nibble} {r : Nat} (ha : a.length = r) (m : Nat) (sizes : List Nat)
    (q : List Nibble) :
    encodeChunks ((r + m) :: sizes) (a ++ q) = encodeChunk (a ++ q.take m) ++ encodeChunks sizes (q.drop m) := by
  subst ha
  rw [encodeChunks, List.take_length_add_append, List.drop_length_add_append]

/-- Chunks given by the columns `f 0 ≤ f 1 ≤ ...` at which they are cut. -/
theorem flatMap_encodeChunk_slice (q : List Nibble) (n : Nat) (f : Nat → Nat) (hf : Monotone f) :
    (List.range n).flatMap (fun j => encodeChunk (slice q (f j) (f (j + 1))))
      = encodeChunks ((List.range n).map fun j => f (j + 1) - f j) (q.drop (f 0)) := by
  induction n generalizing f with
  | zero => rfl
  | succ n ih =>
    have hnext : f 0 + (f 1 - f 0) = f 1 := Nat.add_sub_cancel' (hf (Nat.zero_le 1))
    have htail := ih (fun j => f (j + 1)) (fun a b hab => hf (Nat.succ_le_succ hab))
    simp only [List.range_succ_eq_map, List.flatMap_cons, List.flatMap_map, List.map_cons, List.map_map, encodeChunks,
      List.drop_drop, Nat.zero_add, hnext]
    exact congrArg _ htail

/-- A chunk's first column stands in the row. -/
theorem mul_le_of_lt_ceilDiv {j w t : Nat} (h : j < ceilDiv w t) : j * t ≤ w := by
  rcases Nat.eq_zero_or_pos t with rfl | ht
  · exact Nat.zero_le w
  · have hnext : (j + 1) * t ≤ w + t - 1 := (Nat.le_div_iff_mul_le ht).mp h
    rw [Nat.succ_mul] at hnext
    omega

theorem encodeRow_eq (q : List Nibble) (w t y : Nat) : encodeRow q w t y = encodeChunks (rowSizes w t) (q.drop (y * w)) := by
  have hcuts : Monotone fun j => y * w + min (j * t) w := fun a b hab =>
    Nat.add_le_add_left (min_le_min_right w (Nat.mul_le_mul_right t hab)) _
  have hinside : ∀ j ∈ List.range (ceilDiv w t), min (j * t) w = j * t := fun j hj =>
    min_eq_left (mul_le_of_lt_ceilDiv (List.mem_range.mp hj))
  calc encodeRow q w t y
      = (List.range (ceilDiv w t)).flatMap fun j =>
          encodeChunk (slice q (y * w + min (j * t) w) (y * w + min ((j + 1) * t) w)) :=
        List.flatMap_congr fun j hj => by rw [hinside j hj]
    _ = _ := flatMap_encodeChunk_slice q _ _ hcuts
    _ = encodeChunks (rowSizes w t) (q.drop (y * w)) := by
        rw [Nat.zero_mul, Nat.zero_min, Nat.add_zero, rowSizes]
        congr 1
        exact List.map_congr_left fun j hj => by rw [Nat.add_sub_add_left, hinside j hj]

/-- The artifact is the bytes of the chunks in row-major, then chunk order (R93). -/
theorem encodeBuffer_eq {t : Nat} (ht : 1 ≤ t) (q : List Nibble) (w h : Nat) :
    encodeBuffer q w h t = encodeChunks (chunkSizes w h t) q := by
  have hrows : ∀ y0, (List.range h).flatMap (fun y => encodeRow q w t (y0 + y))
      = encodeChunks (chunkSizes w h t) (q.drop (y0 * w)) := by
    induction h with
    | zero => intro y0; rfl
    | succ h ih =>
      intro y0
      rw [chunkSizes_succ, encodeChunks_append, rowSizes_sum ht, List.drop_drop, ← encodeRow_eq, ← Nat.succ_mul, ← ih,
        List.range_succ_eq_map, List.flatMap_cons, List.flatMap_map]
      simp only [Nat.add_zero, Nat.succ_eq_add_one, Nat.add_assoc, Nat.add_comm 1]
  simpa [encodeBuffer] using hrows 0

/-! ### R100 for a sequence of chunks -/

theorem encodeChunks_length_le (sizes : List Nat) (q : List Nibble) : (encodeChunks sizes q).length ≤ q.length := by
  induction sizes generalizing q with
  | nil => exact Nat.zero_le _
  | cons m sizes ih =>
    calc (encodeChunks (m :: sizes) q).length
        = (encodeChunk (q.take m)).length + (encodeChunks sizes (q.drop m)).length := List.length_append
      _ ≤ (q.take m).length + (q.drop m).length := Nat.add_le_add (encodeChunk_length_le _) (ih _)
      _ = q.length := by rw [← List.length_append, List.take_append_drop]

/-- Every chunk has a sample, and with it a run of its own (R100 (c)). -/
theorem length_le_encodeChunks_length {sizes : List Nat} {q : List Nibble} (hpos : ∀ m ∈ sizes, 1 ≤ m)
    (hsum : sizes.sum ≤ q.length) : sizes.length ≤ (encodeChunks sizes q).length := by
  induction sizes generalizing q with
  | nil => exact Nat.zero_le _
  | cons m sizes ih =>
    obtain ⟨hm, hpos⟩ := List.forall_mem_cons.mp hpos
    rw [List.sum_cons] at hsum
    have hchunk := ceilDiv_le_encodeChunk_length (q.take m)
    have htail := ih (q := q.drop m) hpos (by rw [List.length_drop]; omega)
    rw [ceilDiv, List.length_take] at hchunk
    rw [encodeChunks, List.length_append, List.length_cons]
    omega

theorem encodeChunks_runLengths_sum {sizes : List Nat} {q : List Nibble} (hsum : sizes.sum = q.length) :
    ((encodeChunks sizes q).map runLengthOf).sum = q.length := by
  induction sizes generalizing q with
  | nil => exact hsum
  | cons m sizes ih =>
    rw [List.sum_cons] at hsum
    have htail := ih (q := q.drop m) (by rw [List.length_drop]; omega)
    rw [encodeChunks, List.map_append, List.sum_append, encodeChunk_runLengths_sum, htail, ← List.length_append,
      List.take_append_drop]

theorem encodeBuffer_length_le {t : Nat} (ht : 1 ≤ t) (q : List Nibble) (w h : Nat) :
    (encodeBuffer q w h t).length ≤ q.length := by
  rw [encodeBuffer_eq ht]
  exact encodeChunks_length_le _ q

/-- A row has at least as many runs as chunks, even where neighbouring chunks hold one value (R100 (c)). -/
theorem ceilDiv_le_encodeRow_length {q : List Nibble} {w h t y : Nat} (ht : 1 ≤ t) (hq : q.length = w * h) (hy : y < h) :
    ceilDiv w t ≤ (encodeRow q w t y).length := by
  have hrow : w ≤ (q.drop (y * w)).length := by
    have hrows : (y + 1) * w ≤ h * w := Nat.mul_le_mul_right w hy
    rw [List.length_drop, hq, Nat.mul_comm w h]
    rw [Nat.succ_mul] at hrows
    omega
  rw [encodeRow_eq, ← length_rowSizes w t]
  exact length_le_encodeChunks_length (rowSizes_sum_and_pos ht w).2 (by rwa [rowSizes_sum ht])

/-- Settles O34: the bounds of one chunk by induction over its runs, those of the artifact by induction over its chunks. -/
theorem artifactLengthBounds : Obligations.ArtifactLengthBounds := by
  constructor
  case left =>
    exact fun c => ⟨ceilDiv_le_encodeChunk_length c, encodeChunk_length_le c, encodeChunk_neighbours c⟩
  case right =>
    intro q w h t hq ht
    refine ⟨fun b _ => ⟨one_le_runLengthOf b, runLengthOf_le b⟩, ?sum, ?lower, ?upper, fun y hy => ?row⟩
    case sum =>
      rw [encodeBuffer_eq ht, encodeChunks_runLengths_sum (by rw [chunkSizes_sum ht, hq]), hq]
    case lower =>
      rw [encodeBuffer_eq ht, ← length_chunkSizes]
      exact length_le_encodeChunks_length (chunkSizes_pos ht w h) (by rw [chunkSizes_sum ht, hq])
    case upper => exact hq ▸ encodeBuffer_length_le ht q w h
    case row => exact ceilDiv_le_encodeRow_length ht hq hy

end Sys2Proof.Machine
end

section
/-! PROOFS. One step of the scan of ENC and COUNT (spec/41_rle_encoder.md R96, R97, R103): which cursors and bytes it moves, and
what `encode` still has to emit before and after it. -/

namespace Sys2Proof.Machine

/-! ### The frame of the scan -/

/-- `u` is `s` but for what the scan moves: the cursors and `ART`. -/
abbrev sameButScan (s u : State) : Prop :=
  sameButCursors u { s with art := u.art }

theorem sameButScan.refl (s : State) : sameButScan s s := rfl

theorem sameButScan.trans {s u v : State} (h : sameButScan s u) (h' : sameButScan u v) : sameButScan s v :=
  Eq.trans h' (congrArg (fun t : State =>
    { t with y := v.y, x := v.x, cend := v.cend, rl := v.rl, k := v.k, n := v.n, i := v.i, art := v.art }) h)

/-- What ENC is to produce from the registers and `IDX` (R93). -/
def State.artifact (s : State) : List Byte :=
  encodeBuffer s.idxList s.w.toNat s.h.toNat s.tilew.toNat

section
variable {s u : State} (hf : sameButScan s u)
include hf

theorem sameButScan.w : u.w = s.w := (congrArg State.w hf :)
theorem sameButScan.cap : u.cap = s.cap := (congrArg State.cap hf :)
theorem sameButScan.tilew : u.tilew = s.tilew := (congrArg State.tilew hf :)
theorem sameButScan.st : u.st = s.st := (congrArg State.st hf :)
theorem sameButScan.script : u.script = s.script := (congrArg State.script hf :)
theorem sameButScan.size : u.size = s.size := (congrArg State.size hf :)

end

theorem length_idxList (s : State) : s.idxList.length = s.w.toNat * s.h.toNat := by
  simp [State.idxList, State.size]

theorem getElem?_idxList {s : State} {a : Nat} (h : a < s.size) : s.idxList[a]? = some (s.idx.read a) := by
  simp [State.idxList, h]

/-! ### The two forms of a scan step -/

theorem runEnds_iff (s : State) : s.runEnds = true ↔ sampleEndsRun s := by
  simp [State.runEnds, sampleEndsRun, Config.runMax, or_assoc]

/-- The byte of the open run, ended by the sample at the cursors (R96). -/
def State.runByte (s : State) : Byte :=
  runByteOf (s.rl.toNat + 1) (s.idx.read s.position)

/-- `ART` after a run has ended: ENC stores its byte, COUNT stores nothing. -/
def State.artAfterRun (store : Bool) (s : State) : Memory 8 :=
  if store then (s.writeArt s.k.toNat s.runByte).art else s.art

/-- The sample at the cursors consumed, the chunk not yet closed. -/
def State.takeSample (store : Bool) (s : State) : State :=
  if s.runEnds then { s with art := s.artAfterRun store, k := s.k + 1, rl := 0, x := s.x + 1 }
  else { s with rl := BitVec.ofNat 5 (s.rl.toNat + 1), x := s.x + 1 }

theorem takeSample_of_ends (store : Bool) {s : State} (h : s.runEnds = true) :
    s.takeSample store = { s with art := s.artAfterRun store, k := s.k + 1, rl := 0, x := s.x + 1 } := if_pos h

theorem takeSample_of_open (store : Bool) {s : State} (h : ¬ s.runEnds = true) :
    s.takeSample store = { s with rl := BitVec.ofNat 5 (s.rl.toNat + 1), x := s.x + 1 } := if_neg h

theorem scanSample_eq (store : Bool) (s : State) : s.scanSample store = (s.takeSample store).closeChunk := by
  unfold State.scanSample State.takeSample State.artAfterRun State.writeArt
  by_cases hends : s.runEnds = true
  · cases store
    · simp [hends]
    · by_cases hk : s.k.toNat < s.cap
      · simp [hends, hk, State.runByte]
      · simp [hends, hk]
  · simp [hends]

theorem closeChunk_frame (s : State) : sameButScan s s.closeChunk := by
  obtain ⟨-, h⟩ | ⟨-, -, h⟩ | ⟨-, -, h⟩ := closeChunk_cases s <;> rw [h]

theorem takeSample_frame (store : Bool) (s : State) : sameButScan s (s.takeSample store) := by
  by_cases hends : s.runEnds = true
  · rw [takeSample_of_ends store hends]
  · rw [takeSample_of_open store hends]

/-! ### Where the cursors stand -/

/-- The open chunk while a sample is left in its row, `x` being at most one past the chunk's last column. -/
structure State.InRow (s : State) : Prop where
  row : s.y.toNat < s.h.toNat
  x_le : s.x.toNat ≤ s.cend.toNat
  cend_le : s.cend.toNat ≤ s.w.toNat
  rl_le : s.rl.toNat ≤ 15

/-- At the top of a step: the cursors stand on a sample of the open chunk, or the scan is over and no run is open (R96). -/
def State.scanReady (s : State) : Prop :=
  s.InRow ∧ s.x.toNat < s.cend.toNat ∨ s.scanOver = true ∧ s.rl = 0

theorem scanOver_iff (s : State) : s.scanOver = true ↔ s.w.toNat = 0 ∨ s.y.toNat = s.h.toNat := by
  simp [State.scanOver, BitVec.toNat_eq]

theorem position_lt_size {s : State} (hrow : s.InRow) (hx : s.x.toNat < s.cend.toNat) : s.position < s.size := by
  have hxw : s.x.toNat < s.w.toNat := lt_of_lt_of_le hx hrow.cend_le
  calc s.position < (s.y.toNat + 1) * s.w.toNat := by rw [State.position, Nat.succ_mul]; omega
    _ ≤ s.h.toNat * s.w.toNat := Nat.mul_le_mul_right _ hrow.row
    _ = s.size := Nat.mul_comm _ _

/-- A scan that is over stands behind the last sample. -/
theorem size_le_position {s : State} (hover : s.scanOver = true) : s.size ≤ s.position := by
  unfold State.size State.position
  obtain hw | hy := (scanOver_iff s).mp hover
  · simp [hw]
  · rw [hy, Nat.mul_comm]
    exact Nat.le_add_right _ _

theorem toNat_x_succ {s : State} (hrow : s.InRow) (hx : s.x.toNat < s.cend.toNat) : (s.x + 1).toNat = s.x.toNat + 1 := by
  have hw := s.w.isLt
  have hcend := hrow.cend_le
  have hfits : s.x.toNat + (1 : Cursor).toNat < 2 ^ 17 := by change s.x.toNat + 1 < 2 ^ 17; omega
  exact BitVec.toNat_add_of_lt hfits

/-- A run that goes on is shorter than 16, so `rl` holds one sample more. -/
theorem toNat_rl_succ {s : State} (hrow : s.InRow) : (BitVec.ofNat 5 (s.rl.toNat + 1)).toNat = s.rl.toNat + 1 := by
  have hrl := hrow.rl_le
  rw [BitVec.toNat_ofNat]
  omega

/-! ### What is left to emit -/

/-- The sizes of the chunks behind the open one: the rest of the row, then the rows below. -/
def State.laterSizes (s : State) : List Nat :=
  rowSizes (s.w.toNat - s.cend.toNat) s.tilew.toNat ++ chunkSizes s.w.toNat (s.h.toNat - (s.y.toNat + 1)) s.tilew.toNat

/-- The samples not yet emitted: those of the open run, all of them equal to the one at the cursors, and those from there on. -/
def State.samplesLeft (s : State) : List Nibble :=
  List.replicate s.rl.toNat (s.idx.read s.position) ++ s.idxList.drop s.position

/-- The bytes that `encode` still has to emit. -/
def State.bytesLeft (s : State) : List Byte :=
  encodeChunks ((s.rl.toNat + (s.cend.toNat - s.x.toNat)) :: s.laterSizes) s.samplesLeft

theorem bytesLeft_of_no_run {s : State} (h : s.rl = 0) :
    s.bytesLeft = encodeChunks ((s.cend.toNat - s.x.toNat) :: s.laterSizes) (s.idxList.drop s.position) := by
  simp [State.bytesLeft, State.samplesLeft, h]

/-- At the start of a row, the open chunk and the chunks behind it are those of the rows left; there may be none. -/
theorem encodeChunks_at_row_start {q : List Nibble} {w h t : Nat} (ht : 1 ≤ t) (hq : q.length = w * h) (y : Nat) :
    encodeChunks (min t w :: (rowSizes (w - min t w) t ++ chunkSizes w (h - (y + 1)) t)) (q.drop (y * w))
      = encodeChunks (chunkSizes w (h - y) t) (q.drop (y * w)) := by
  by_cases hleft : 1 ≤ w ∧ y < h
  · obtain ⟨hw, hy⟩ := hleft
    have hrows : h - y = h - (y + 1) + 1 := by omega
    have hcols : w - min t w = w - t := by omega
    rw [hrows, chunkSizes_succ, rowSizes_cons ht hw, hcols, List.cons_append]
  · have hnone : q.drop (y * w) = [] := by
      rw [List.drop_eq_nil_iff, hq, Nat.mul_comm]
      rcases Nat.eq_zero_or_pos w with rfl | hw
      · simp
      · exact Nat.mul_le_mul_right w (by omega)
    rw [hnone, encodeChunks_nil, encodeChunks_nil]

/-! ### Closing a chunk -/

theorem one_le_toNat_of_ne {w : Nat} {v : BitVec w} (h : v ≠ 0) : 1 ≤ v.toNat :=
  Nat.one_le_iff_ne_zero.mpr fun h0 => h (BitVec.eq_of_toNat_eq h0)

/-- Where the cursors stand after a chunk is closed (R97), in numbers. -/
theorem closeChunk_cursors {s : State} (hrow : s.InRow) :
    (s.x.toNat < s.cend.toNat ∧ s.closeChunk = s)
    ∨ (s.x = s.cend ∧ s.x.toNat = s.w.toNat ∧ s.closeChunk.y.toNat = s.y.toNat + 1 ∧ s.closeChunk.x.toNat = 0
        ∧ s.closeChunk.cend.toNat = min s.tilew.toNat s.w.toNat)
    ∨ (s.x = s.cend ∧ s.x.toNat < s.w.toNat ∧ s.closeChunk.y = s.y ∧ s.closeChunk.x = s.x
        ∧ s.closeChunk.cend.toNat = min (s.x.toNat + s.tilew.toNat) s.w.toNat) := by
  have hy := hrow.row
  have hh := s.h.isLt
  have hw := s.w.isLt
  obtain ⟨hne, h⟩ | ⟨hxc, hxw, h⟩ | ⟨hxc, hxw, h⟩ := closeChunk_cases s
  · have hne' : s.x.toNat ≠ s.cend.toNat := fun heq => hne (BitVec.eq_of_toNat_eq heq)
    exact .inl ⟨lt_of_le_of_ne hrow.x_le hne', h⟩
  · rw [h]
    exact .inr (.inl ⟨hxc, hxw, toCursor_toNat (by omega), rfl, toCursor_toNat (min_tilew_lt s)⟩)
  · have hlt : s.x.toNat < s.w.toNat := lt_of_le_of_ne (hxc ▸ hrow.cend_le) hxw
    rw [h]
    exact .inr (.inr ⟨hxc, hlt, rfl, rfl, toCursor_toNat (by omega)⟩)

section
variable {s : State} (hrow : s.InRow)
include hrow

/-- The start of the next row is the element behind the last of this one. -/
theorem position_closeChunk : s.closeChunk.position = s.position := by
  obtain ⟨-, h⟩ | ⟨-, hxw, hy, hx, -⟩ | ⟨-, -, hy, hx, -⟩ := closeChunk_cursors hrow
  · rw [h]
  · rw [State.position, State.position, hy, hx, hxw, closeChunk_w, Nat.succ_mul, Nat.add_zero]
  · rw [State.position, State.position, hy, hx, closeChunk_w]

variable (hrun : s.x = s.cend → s.rl = 0) (ht : s.tilew ≠ 0)
include hrun ht

theorem scanReady_closeChunk : s.closeChunk.scanReady := by
  have ht1 := one_le_toNat_of_ne ht
  have hrow_lt := hrow.row
  have hrl := hrow.rl_le
  obtain ⟨hlt, h⟩ | ⟨hxc, hxw, hy, hx, hcend⟩ | ⟨hxc, hxw, hy, hx, hcend⟩ := closeChunk_cursors hrow
  · rw [h]
    exact .inl ⟨hrow, hlt⟩
  · by_cases hmore : 1 ≤ s.w.toNat ∧ s.y.toNat + 1 < s.h.toNat
    · refine .inl ⟨⟨?_, ?_, ?_, ?_⟩, ?_⟩ <;>
        simp only [closeChunk_h, closeChunk_w, closeChunk_rl, hy, hx, hcend] <;> omega
    · refine .inr ⟨(scanOver_iff _).mpr ?_, closeChunk_rl s ▸ hrun hxc⟩
      rw [closeChunk_w, closeChunk_h, hy]
      omega
  · refine .inl ⟨⟨?_, ?_, ?_, ?_⟩, ?_⟩ <;>
      simp only [closeChunk_h, closeChunk_w, closeChunk_rl, hy, hx, hcend] <;> omega

/-- Closing a chunk leaves to be emitted what was (R97): no run is open when it happens. -/
theorem bytesLeft_closeChunk : s.closeChunk.bytesLeft = s.bytesLeft := by
  have ht1 := one_le_toNat_of_ne ht
  have hpos := position_closeChunk hrow
  have hidx : s.closeChunk.idxList = s.idxList := by simp [State.idxList]
  obtain ⟨-, h⟩ | ⟨hxc, hxw, hy, hx, hcend⟩ | ⟨hxc, hxw, hy, hx, hcend⟩ := closeChunk_cursors hrow
  case inl => rw [h]
  case inr.inl =>
    have hstart : s.position = (s.y.toNat + 1) * s.w.toNat := by rw [State.position, hxw, Nat.succ_mul]
    have hrows := encodeChunks_at_row_start ht1 (length_idxList s) (s.y.toNat + 1)
    rw [bytesLeft_of_no_run (hrun hxc), bytesLeft_of_no_run (closeChunk_rl s ▸ hrun hxc), hpos, hidx]
    simp only [State.laterSizes, closeChunk_w, closeChunk_h, closeChunk_tilew, hy, hx, hcend, ← hxc, hxw, hstart,
      Nat.sub_self, Nat.sub_zero, encodeChunks_zero_cons, rowSizes_zero ht1, List.nil_append]
    exact hrows
  case inr.inr =>
    have hwidth : min (s.x.toNat + s.tilew.toNat) s.w.toNat - s.x.toNat = min s.tilew.toNat (s.w.toNat - s.x.toNat) := by
      omega
    have hrest : s.w.toNat - min (s.x.toNat + s.tilew.toNat) s.w.toNat = s.w.toNat - s.x.toNat - s.tilew.toNat := by omega
    rw [bytesLeft_of_no_run (hrun hxc), bytesLeft_of_no_run (closeChunk_rl s ▸ hrun hxc), hpos, hidx]
    simp only [State.laterSizes, closeChunk_w, closeChunk_h, closeChunk_tilew, hy, hx, hcend, ← hxc, hwidth, hrest,
      Nat.sub_self, encodeChunks_zero_cons, rowSizes_cons ht1 (Nat.sub_pos_of_lt hxw), List.cons_append]

end

/-! ### Taking one sample -/

@[simp] theorem takeSample_w (store : Bool) (s : State) : (s.takeSample store).w = s.w := by
  unfold State.takeSample; split <;> rfl
@[simp] theorem takeSample_h (store : Bool) (s : State) : (s.takeSample store).h = s.h := by
  unfold State.takeSample; split <;> rfl
@[simp] theorem takeSample_tilew (store : Bool) (s : State) : (s.takeSample store).tilew = s.tilew := by
  unfold State.takeSample; split <;> rfl
@[simp] theorem takeSample_y (store : Bool) (s : State) : (s.takeSample store).y = s.y := by
  unfold State.takeSample; split <;> rfl
@[simp] theorem takeSample_cend (store : Bool) (s : State) : (s.takeSample store).cend = s.cend := by
  unfold State.takeSample; split <;> rfl
@[simp] theorem takeSample_idx (store : Bool) (s : State) : (s.takeSample store).idx = s.idx := by
  unfold State.takeSample; split <;> rfl
@[simp] theorem takeSample_idxList (store : Bool) (s : State) : (s.takeSample store).idxList = s.idxList := by
  simp [State.idxList, State.size]
@[simp] theorem takeSample_laterSizes (store : Bool) (s : State) : (s.takeSample store).laterSizes = s.laterSizes := by
  simp [State.laterSizes]

section
variable {s : State}

theorem takeSample_rl_of_open (hrow : s.InRow) (store : Bool) (hends : ¬ s.runEnds = true) :
    (s.takeSample store).rl.toNat = s.rl.toNat + 1 := by
  rw [takeSample_of_open store hends]
  exact toNat_rl_succ hrow

/-- A run that ends here is maximal in its chunk. -/
theorem endsRun_of_runEnds (hends : s.runEnds = true) :
    endsRun (s.idx.read s.position) (s.rl.toNat + 1) 16
      ((s.idxList.drop (s.position + 1)).take (s.cend.toNat - (s.x.toNat + 1))) := by
  obtain hchunk | hfull | hdiff := (runEnds_iff s).mp hends
  · left; simp [← hchunk]
  · exact .inr hfull
  · left
    intro hhead
    rw [List.head?_take, List.head?_drop] at hhead
    split at hhead
    · cases hhead
    · have hlt : s.position + 1 < s.size := by
        have := (List.getElem?_eq_some_iff.mp hhead).1
        rwa [length_idxList] at this
      rw [getElem?_idxList hlt] at hhead
      exact hdiff (Option.some.inj hhead)

variable (hrow : s.InRow) (hx : s.x.toNat < s.cend.toNat)
include hrow hx

theorem takeSample_x (store : Bool) : (s.takeSample store).x.toNat = s.x.toNat + 1 := by
  have hany : (s.takeSample store).x = s.x + 1 := by unfold State.takeSample; split <;> rfl
  rw [hany, toNat_x_succ hrow hx]

theorem takeSample_position (store : Bool) : (s.takeSample store).position = s.position + 1 := by
  simp only [State.position, takeSample_x hrow hx, takeSample_w, takeSample_y, Nat.add_assoc]

theorem takeSample_inRow (store : Bool) : (s.takeSample store).InRow where
  row := by rw [takeSample_y, takeSample_h]; exact hrow.row
  x_le := by rw [takeSample_x hrow hx, takeSample_cend]; exact hx
  cend_le := by rw [takeSample_cend, takeSample_w]; exact hrow.cend_le
  rl_le := by
    have hrl := hrow.rl_le
    by_cases hends : s.runEnds = true
    · rw [takeSample_of_ends store hends]
      exact Nat.zero_le _
    · have hshort : s.rl.toNat + 1 ≠ 16 := fun h => hends ((runEnds_iff s).mpr (.inr (.inl h)))
      rw [takeSample_rl_of_open hrow store hends]
      omega

/-- The sample that brings `x` to `cend` closes its run (R97). -/
theorem takeSample_run (store : Bool) (hxc : (s.takeSample store).x = (s.takeSample store).cend) :
    (s.takeSample store).rl = 0 := by
  have hlast : s.x.toNat + 1 = s.cend.toNat := by rw [← takeSample_x hrow hx store, hxc, takeSample_cend]
  rw [takeSample_of_ends store ((runEnds_iff s).mpr (.inl hlast))]

/-- The sample at the cursors belongs to the open run. -/
theorem samplesLeft_eq :
    s.samplesLeft = List.replicate (s.rl.toNat + 1) (s.idx.read s.position) ++ s.idxList.drop (s.position + 1) := by
  have hget := getElem?_idxList (position_lt_size hrow hx)
  obtain ⟨hlt, hval⟩ := List.getElem?_eq_some_iff.mp hget
  rw [State.samplesLeft, List.drop_eq_getElem_cons hlt, hval, List.replicate_succ', List.append_assoc]
  rfl

/-- A run that ends is emitted as its byte. -/
theorem bytesLeft_of_ends (store : Bool) (hends : s.runEnds = true) :
    s.bytesLeft = s.runByte :: (s.takeSample store).bytesLeft := by
  have hrl := hrow.rl_le
  have hclosed : (s.takeSample store).rl = 0 := by rw [takeSample_of_ends store hends]
  have hwidth : s.rl.toNat + (s.cend.toNat - s.x.toNat) = s.rl.toNat + 1 + (s.cend.toNat - (s.x.toNat + 1)) := by omega
  have hbyte := encodeChunk_run (Nat.le_add_left 1 _) (by omega) (endsRun_of_runEnds hends)
  rw [bytesLeft_of_no_run hclosed, takeSample_position hrow hx, takeSample_x hrow hx, takeSample_cend,
    takeSample_laterSizes, takeSample_idxList, State.bytesLeft, samplesLeft_eq hrow hx, hwidth,
    encodeChunks_cons_append (List.length_replicate), hbyte]
  rfl

/-- A run that goes on has gained the sample, since the next one is equal. -/
theorem bytesLeft_of_open (store : Bool) (hends : ¬ s.runEnds = true) : (s.takeSample store).bytesLeft = s.bytesLeft := by
  have hsame : s.idx.read (s.position + 1) = s.idx.read s.position :=
    not_not.mp fun hne => hends ((runEnds_iff s).mpr (.inr (.inr hne)))
  have hwidth : s.rl.toNat + 1 + (s.cend.toNat - (s.x.toNat + 1)) = s.rl.toNat + (s.cend.toNat - s.x.toNat) := by omega
  have hsamples : (s.takeSample store).samplesLeft = s.samplesLeft := by
    rw [samplesLeft_eq hrow hx, State.samplesLeft, takeSample_rl_of_open hrow store hends, takeSample_position hrow hx,
      takeSample_idx, takeSample_idxList, hsame]
  rw [State.bytesLeft, State.bytesLeft, hsamples, takeSample_rl_of_open hrow store hends, takeSample_x hrow hx,
    takeSample_cend, takeSample_laterSizes, hwidth]

end

end Sys2Proof.Machine
end

section
/-! PROOFS. ENC and COUNT as whole operations (spec/41_rle_encoder.md R94, R98, R99, R103, R104): one scan, which stores the
bytes in ENC and counts them in COUNT. -/

namespace Sys2Proof.Machine

/-! ### Runs kept by an invariant -/

/-- What holds at the start and is carried by each of `count` steps holds all along the run. -/
theorem reaches_of_step {P : Nat → State → Prop} {count : Nat} {s : State} (h0 : P 0 s)
    (hstep : ∀ j u, j < count → P j u → ∃ v, step u = .next v ∧ P (j + 1) v) :
    ∀ j, j ≤ count → ∃ u, Reaches j s u ∧ P j u := by
  intro j hj
  induction j with
  | zero => exact ⟨s, rfl, h0⟩
  | succ j ih =>
    obtain ⟨u, hu, hP⟩ := ih (by omega)
    obtain ⟨v, hv, hP'⟩ := hstep j u hj hP
    exact ⟨v, reaches_add hu (reaches_succ hv rfl), hP'⟩

/-! ### The two operations of the scan -/

/-- The command that runs the scan: ENC stores, COUNT does not. -/
def scanInstr : Bool → Instr
  | true => .enc
  | false => .count

def scanOp : Bool → Op
  | true => .enc
  | false => .count

def scanSeq : Bool → Seq
  | true => .encRun
  | false => .countRun

/-- The command's own result cleared, after the common start actions (R94, R103). -/
def State.scanCleared (store : Bool) (s : State) : State :=
  match store with
  | true => { s.beginCommand with alen := 0 }
  | false => { s.beginCommand with rcount := 0 }

/-- The state in which the scan starts (R95). -/
def State.scanInit (store : Bool) (s : State) : State :=
  { (s.scanCleared store).startScan with st := scanSeq store }

/-- The end of the scan: the number of bytes in `ALEN` or in `RCOUNT` (R98, R103). -/
def State.scanEnd (store : Bool) (s : State) : State :=
  match store with
  | true => (s.setAlen s.k).finish
  | false => { s with rcount := s.k }.finish

/-- The first check of ENC and COUNT that fails (R94, R106). -/
def State.scanCause (s : State) : Option ErrorCause :=
  if s.tilew = 0 then some .tileWidth
  else if s.cap < s.size then some .capacity
  else if s.idxlen.toNat ≠ s.size then some .length
  else none

theorem scanCause_eq_none_iff (s : State) :
    s.scanCause = none ↔ s.tilew ≠ 0 ∧ s.size ≤ s.cap ∧ s.idxlen.toNat = s.size := by
  unfold State.scanCause
  split
  · simp_all
  · split
    · next hcap => simp [hcap]
    · next hcap => simp_all

theorem scanStart_eq (op : Op) (run : Seq) (s : State) :
    scanStart op run s = .next ((s.scanCause.map (s.raise op)).getD { s.startScan with st := run }) := by
  unfold scanStart State.scanCause
  split
  · rfl
  · split
    · rfl
    · split <;> rfl

theorem exec_scanInstr {s : State} (hst : s.st = .idle) (store : Bool) :
    exec (scanInstr store) s
      = .next ((s.scanCause.map ((s.scanCleared store).raise (scanOp store))).getD (s.scanInit store)) := by
  have hidle := (busy_eq_false_iff s).mpr hst
  cases store with
  | true => exact (issue_of_idle hidle).trans (scanStart_eq .enc .encRun _)
  | false => exact (issue_of_idle hidle).trans (scanStart_eq .count .countRun _)

theorem step_of_scan {store : Bool} {s : State} (hst : s.st = scanSeq store) (hs : s.script = []) :
    step s = .next (if s.scanOver then s.scanEnd store else s.scanSample store) := by
  rw [step_of_script_nil hs]
  cases store with
  | true => rw [sequencerStep_enc hst]; rfl
  | false => rw [sequencerStep_count hst]; rfl

/-! ### The invariant of the scan -/

/-- The bytes emitted, with those left to emit, are the artifact `bytes`: ENC has stored them in `ART`, COUNT has left `ART` at
`art`. -/
structure Emitted (store : Bool) (bytes : List Byte) (art : Memory 8) (s : State) : Prop where
  count : s.k.toNat + s.bytesLeft.length = bytes.length
  stored : store = true → (List.range s.k.toNat).map s.art.read ++ s.bytesLeft = bytes
  kept : store = false → s.art = art

/-- After `j` steps from `t0`: `j` samples are consumed, and the bytes emitted are those of `encode` for them. -/
structure ScanInv (store : Bool) (t0 : State) (j : Nat) (s : State) : Prop where
  frame : sameButScan t0 s
  position : s.position = j
  ready : s.scanReady
  emitted : Emitted store t0.artifact t0.art s

/-! ### One step keeps the invariant -/

theorem artifact_length_le {s : State} (ht : s.tilew ≠ 0) : s.artifact.length ≤ s.size :=
  (encodeBuffer_length_le (one_le_toNat_of_ne ht) _ _ _).trans_eq (length_idxList s)

theorem artAfterRun_bytes {s : State} (hk : s.k.toNat < s.cap) :
    (List.range (s.k.toNat + 1)).map (s.artAfterRun true).read = (List.range s.k.toNat).map s.art.read ++ [s.runByte] := by
  have hread : ∀ a, (s.artAfterRun true).read a = if a = s.k.toNat then s.runByte else s.art.read a := by
    intro a
    rw [State.artAfterRun, if_pos rfl, read_writeArt]
    simp [hk]
  rw [List.range_succ, List.map_append, List.map_singleton, hread, if_pos rfl]
  congr 1
  exact List.map_congr_left fun a ha => by rw [hread, if_neg (Nat.ne_of_lt (List.mem_range.mp ha))]

theorem emitted_closeChunk {store : Bool} {bytes : List Byte} {art : Memory 8} {s : State} (he : Emitted store bytes art s)
    (hleft : s.closeChunk.bytesLeft = s.bytesLeft) : Emitted store bytes art s.closeChunk := by
  obtain ⟨hcount, hstored, hkept⟩ := he
  exact ⟨by rwa [hleft, closeChunk_k], by rwa [hleft, closeChunk_k, closeChunk_art], by rwa [closeChunk_art]⟩

/-- A buffer's length fits 32 bits, so the artifact index does not wrap. -/
theorem toNat_k_succ {s : State} (hk : s.k.toNat < s.size) : (s.k + 1).toNat = s.k.toNat + 1 := by
  have hfits : s.k.toNat + (1 : Len).toNat < 2 ^ 32 := lt_of_le_of_lt hk (size_lt s)
  exact BitVec.toNat_add_of_lt hfits

/-- The byte of a run that ends goes to `ART[k]`, which the capacity of the buffer has room for. -/
theorem emitted_takeSample {store : Bool} {bytes : List Byte} {art : Memory 8} {s : State} (he : Emitted store bytes art s)
    (hrow : s.InRow) (hx : s.x.toNat < s.cend.toNat) (hsize : bytes.length ≤ s.size) (hcap : s.size ≤ s.cap) :
    Emitted store bytes art (s.takeSample store) := by
  obtain ⟨hcount, hstored, hkept⟩ := he
  by_cases hends : s.runEnds = true
  case pos =>
    have hleft := bytesLeft_of_ends hrow hx store hends
    have hart : (s.takeSample store).art = s.artAfterRun store := by rw [takeSample_of_ends store hends]
    have hk : s.k.toNat < s.size := by rw [hleft, List.length_cons] at hcount; omega
    have hk' : (s.takeSample store).k.toNat = s.k.toNat + 1 := by
      rw [takeSample_of_ends store hends]
      exact toNat_k_succ hk
    refine ⟨?count, ?stored, ?kept⟩
    case count => rw [← hcount, hleft, hk', List.length_cons, Nat.add_assoc, Nat.add_comm 1]
    case stored =>
      rintro rfl
      rw [← hstored rfl, hk', hart, hleft, artAfterRun_bytes (lt_of_lt_of_le hk hcap), List.append_assoc]
      rfl
    case kept =>
      rintro rfl
      rw [hart]
      exact hkept rfl
  case neg =>
    have hk : (s.takeSample store).k = s.k := by rw [takeSample_of_open store hends]
    have hart : (s.takeSample store).art = s.art := by rw [takeSample_of_open store hends]
    have hleft := bytesLeft_of_open hrow hx store hends
    exact ⟨by rwa [hk, hleft], by rwa [hk, hart, hleft], by rwa [hart]⟩

section
variable {store : Bool} {t0 s : State} {j : Nat}

/-- A scan that has samples left stands on one. -/
theorem ScanInv.inRow (hi : ScanInv store t0 j s) (hj : j < t0.size) : s.InRow ∧ s.x.toNat < s.cend.toNat := by
  obtain hrow | ⟨hover, -⟩ := hi.ready
  · exact hrow
  · have hle := size_le_position hover
    rw [hi.position, hi.frame.size] at hle
    omega

theorem ScanInv.scanOver_eq_false (hi : ScanInv store t0 j s) (hj : j < t0.size) : s.scanOver = false := by
  refine Bool.eq_false_iff.mpr fun hover => ?_
  have hle := size_le_position hover
  rw [hi.position, hi.frame.size] at hle
  omega

/-- A scan that has consumed every sample is over, and has nothing left to emit. -/
theorem ScanInv.over (hi : ScanInv store t0 t0.size s) : s.scanOver = true ∧ s.bytesLeft = [] := by
  obtain ⟨hrow, hx⟩ | ⟨hover, hrl⟩ := hi.ready
  · have hlt := position_lt_size hrow hx
    rw [hi.position, hi.frame.size] at hlt
    omega
  · have hnone : s.idxList.drop s.position = [] :=
      List.drop_eq_nil_of_le ((length_idxList s).trans_le (size_le_position hover))
    exact ⟨hover, by rw [bytesLeft_of_no_run hrl, hnone, encodeChunks_nil]⟩

theorem ScanInv.scanSample (hi : ScanInv store t0 j s) (hj : j < t0.size) (ht : t0.tilew ≠ 0) (hcap : t0.size ≤ t0.cap) :
    ScanInv store t0 (j + 1) (s.scanSample store) := by
  obtain ⟨hrow, hx⟩ := hi.inRow hj
  have hrow' := takeSample_inRow hrow hx store
  have hrun' := takeSample_run hrow hx store
  have ht' : (s.takeSample store).tilew ≠ 0 := by rwa [takeSample_tilew, hi.frame.tilew]
  have htaken := emitted_takeSample hi.emitted hrow hx (by rw [hi.frame.size]; exact artifact_length_le ht)
    (by rwa [hi.frame.size, hi.frame.cap])
  rw [scanSample_eq]
  exact
    { frame := (hi.frame.trans (takeSample_frame store s)).trans (closeChunk_frame _)
      position := by rw [position_closeChunk hrow', takeSample_position hrow hx, hi.position]
      ready := scanReady_closeChunk hrow' hrun' ht'
      emitted := emitted_closeChunk htaken (bytesLeft_closeChunk hrow' hrun' ht') }

end

/-! ### The whole scan -/

section
variable {store : Bool} {s : State}

@[simp] theorem scanCleared_w (store : Bool) (s : State) : (s.scanCleared store).w = s.w := by cases store <;> rfl
@[simp] theorem scanCleared_h (store : Bool) (s : State) : (s.scanCleared store).h = s.h := by cases store <;> rfl
@[simp] theorem scanCleared_tilew (store : Bool) (s : State) : (s.scanCleared store).tilew = s.tilew := by cases store <;> rfl
@[simp] theorem scanCleared_cap (store : Bool) (s : State) : (s.scanCleared store).cap = s.cap := by cases store <;> rfl
@[simp] theorem scanCleared_idx (store : Bool) (s : State) : (s.scanCleared store).idx = s.idx := by cases store <;> rfl
@[simp] theorem scanCleared_art (store : Bool) (s : State) : (s.scanCleared store).art = s.art := by cases store <;> rfl
@[simp] theorem scanCleared_err (store : Bool) (s : State) : (s.scanCleared store).err = false := by cases store <;> rfl
@[simp] theorem scanCleared_script (store : Bool) (s : State) : (s.scanCleared store).script = s.script := by
  cases store <;> rfl

@[simp] theorem scanInit_w (store : Bool) (s : State) : (s.scanInit store).w = s.w := scanCleared_w store s
@[simp] theorem scanInit_h (store : Bool) (s : State) : (s.scanInit store).h = s.h := scanCleared_h store s
@[simp] theorem scanInit_tilew (store : Bool) (s : State) : (s.scanInit store).tilew = s.tilew := scanCleared_tilew store s
@[simp] theorem scanInit_cap (store : Bool) (s : State) : (s.scanInit store).cap = s.cap := scanCleared_cap store s
@[simp] theorem scanInit_idx (store : Bool) (s : State) : (s.scanInit store).idx = s.idx := scanCleared_idx store s
@[simp] theorem scanInit_art (store : Bool) (s : State) : (s.scanInit store).art = s.art := scanCleared_art store s
@[simp] theorem scanInit_err (store : Bool) (s : State) : (s.scanInit store).err = false := scanCleared_err store s
@[simp] theorem scanInit_script (store : Bool) (s : State) : (s.scanInit store).script = s.script := scanCleared_script store s
@[simp] theorem scanInit_y (store : Bool) (s : State) : (s.scanInit store).y = 0 := rfl
@[simp] theorem scanInit_x (store : Bool) (s : State) : (s.scanInit store).x = 0 := rfl
@[simp] theorem scanInit_rl (store : Bool) (s : State) : (s.scanInit store).rl = 0 := rfl
@[simp] theorem scanInit_k (store : Bool) (s : State) : (s.scanInit store).k = 0 := rfl

@[simp] theorem scanInit_size (store : Bool) (s : State) : (s.scanInit store).size = s.size := by simp [State.size]
@[simp] theorem scanInit_idxList (store : Bool) (s : State) : (s.scanInit store).idxList = s.idxList := by
  simp [State.idxList]
@[simp] theorem scanInit_artifact (store : Bool) (s : State) : (s.scanInit store).artifact = s.artifact := by
  simp [State.artifact]
@[simp] theorem scanInit_position (store : Bool) (s : State) : (s.scanInit store).position = 0 := by simp [State.position]

theorem scanInit_cend (store : Bool) (s : State) :
    (s.scanInit store).cend.toNat = min s.tilew.toNat s.w.toNat := by
  rw [← toCursor_toNat (min_tilew_lt s)]
  simp [State.scanInit]

/-- At the start everything is left to emit (R95). -/
theorem scanInit_bytesLeft (ht : s.tilew ≠ 0) : (s.scanInit store).bytesLeft = s.artifact := by
  have ht1 := one_le_toNat_of_ne ht
  have hstart := encodeChunks_at_row_start ht1 (length_idxList s) 0
  rw [bytesLeft_of_no_run (scanInit_rl store s), State.laterSizes, State.artifact, encodeBuffer_eq ht1]
  simpa [scanInit_cend] using hstart

/-- The scan starts on the first sample, or is over at once when there is none. -/
theorem scanInit_ready (ht : s.tilew ≠ 0) : (s.scanInit store).scanReady := by
  have ht1 := one_le_toNat_of_ne ht
  have hcend := scanInit_cend store s
  have hy : (s.scanInit store).y.toNat = 0 := rfl
  have hx : (s.scanInit store).x.toNat = 0 := rfl
  by_cases hsome : 1 ≤ s.w.toNat ∧ 1 ≤ s.h.toNat
  · obtain ⟨hw, hh⟩ := hsome
    exact .inl ⟨⟨by rwa [hy, scanInit_h], by omega, by rw [hcend, scanInit_w]; omega, Nat.zero_le _⟩, by omega⟩
  · refine .inr ⟨(scanOver_iff _).mpr ?_, scanInit_rl store s⟩
    rw [scanInit_w, scanInit_h, hy]
    omega

theorem scanInv_scanInit (ht : s.tilew ≠ 0) : ScanInv store (s.scanInit store) 0 (s.scanInit store) where
  frame := .refl _
  position := scanInit_position store s
  ready := scanInit_ready ht
  emitted := by
    have hleft := scanInit_bytesLeft (store := store) ht
    rw [scanInit_artifact]
    exact ⟨by simp [hleft], fun _ => by simp [hleft], fun _ => rfl⟩

/-- The scan runs through `W*H` steps, one per sample. -/
theorem scan_reaches (store : Bool) (hs : s.script = []) (ht : s.tilew ≠ 0) (hcap : s.size ≤ s.cap) :
    ∀ j, j ≤ s.size → ∃ u, Reaches j (s.scanInit store) u ∧ ScanInv store (s.scanInit store) j u := by
  refine reaches_of_step (scanInv_scanInit ht) fun j u hj hi => ?_
  rw [← scanInit_size store] at hj
  have hscript : u.script = [] := by rw [hi.frame.script, scanInit_script, hs]
  refine ⟨u.scanSample store, ?_, hi.scanSample hj (by rwa [scanInit_tilew]) (by rwa [scanInit_size, scanInit_cap])⟩
  rw [step_of_scan hi.frame.st hscript, hi.scanOver_eq_false hj]
  rfl

/-- The scan ends with the step after the last sample, having emitted the whole artifact (R98, R99). -/
theorem scan_ends (store : Bool) (hs : s.script = []) (ht : s.tilew ≠ 0) (hcap : s.size ≤ s.cap) :
    ∃ u, Reaches (s.size + 1) (s.scanInit store) (u.scanEnd store) ∧ sameButScan (s.scanInit store) u
      ∧ u.k.toNat = s.artifact.length ∧ (store = true → (List.range u.k.toNat).map u.art.read = s.artifact)
      ∧ (store = false → u.art = s.art) := by
  obtain ⟨u, hu, hi⟩ := scan_reaches store hs ht hcap s.size le_rfl
  rw [← scanInit_size store] at hi
  obtain ⟨hover, hleft⟩ := hi.over
  obtain ⟨hcount, hstored, hkept⟩ := hi.emitted
  rw [hleft, scanInit_artifact] at hcount hstored
  rw [scanInit_art] at hkept
  have hstep : step u = .next (u.scanEnd store) := by
    rw [step_of_scan hi.frame.st (by rw [hi.frame.script, scanInit_script, hs]), hover]
    rfl
  exact ⟨u, reaches_add hu (reaches_succ hstep rfl), hi.frame, hcount, by simpa using hstored, hkept⟩

end

/-! ### The obligations -/

theorem artList_scanEnd (u : State) : (u.scanEnd true).artList = (List.range u.k.toNat).map u.art.read :=
  List.map_congr_left fun _ ha => u.art.read_keepBelow_of_lt (List.mem_range.mp ha)

theorem scanEnd_true_frame {t0 u : State} (hframe : sameButScan t0 u) :
    sameButCursors (u.scanEnd true) { t0 with st := .idle, done := true, alen := u.k, art := u.art.keepBelow u.k.toNat } :=
  congrArg (State.scanEnd true) hframe

/-- Settles O27: the scan that stores. -/
theorem encStepsComputeEncode : Obligations.EncStepsComputeEncode := by
  intro s hst hs ht hcap hlen
  have hcause := (scanCause_eq_none_iff s).mpr ⟨ht, hcap, hlen⟩
  obtain ⟨u, hu, hframe, hcount, hstored, -⟩ := scan_ends true hs ht hcap
  refine ⟨s.scanInit true, u.scanEnd true, ?start, fun j hj => ?runs, hu, ?frame, ?artifact, hcount⟩
  case start =>
    have hexec := exec_scanInstr hst true
    rwa [hcause] at hexec
  case runs =>
    obtain ⟨v, hv, hi⟩ := scan_reaches true hs ht hcap j hj
    exact ⟨v, hv, hi.frame.st⟩
  case frame =>
    have hidle : statusCleared s = { statusCleared s with st := .idle } := by rw [← hst]
    rw [hidle]
    exact scanEnd_true_frame (t0 := s.scanInit true) hframe
  case artifact => rw [artList_scanEnd, hstored rfl, State.artifact]

theorem scanEnd_flags {store : Bool} {s u : State} (hframe : sameButScan (s.scanInit store) u) :
    (u.scanEnd store).st = .idle ∧ (u.scanEnd store).done = true ∧ (u.scanEnd store).err = false := by
  have herr : u.err = false := (congrArg State.err hframe :).trans (scanInit_err store s)
  cases store <;> exact ⟨rfl, rfl, herr⟩

/-- Settles O29: the two commands make the same checks, and run the same scan. -/
theorem countAgreesWithEnc : Obligations.CountAgreesWithEnc := by
  intro s hst hs
  have henc := exec_scanInstr hst true
  have hcount := exec_scanInstr hst false
  refine ⟨_, _, henc, hcount, ?_⟩
  cases hcause : s.scanCause with
  | some c => exact .inl ⟨rfl, rfl, rfl, rfl, rfl⟩
  | none =>
    obtain ⟨ht, hcap, -⟩ := (scanCause_eq_none_iff s).mp hcause
    obtain ⟨e, he, heframe, hek, -⟩ := scan_ends true hs ht hcap
    obtain ⟨c, hc, hcframe, hck, -⟩ := scan_ends false hs ht hcap
    obtain ⟨hest, hedone, heerr⟩ := scanEnd_flags heframe
    obtain ⟨hcst, hcdone, hcerr⟩ := scanEnd_flags hcframe
    exact .inr ⟨_, _, he, hc, hest, hcst, hedone, hcdone, heerr, hcerr, BitVec.eq_of_toNat_eq (hck.trans hek.symm)⟩

end Sys2Proof.Machine
end

section
/-! PROOFS. Decoding what was encoded (spec/42_rle_decoder.md R111, R112, R118): the runs of a chunk fill it exactly, and so
chunk by chunk. -/

namespace Sys2Proof.Machine

/-! ### Filling the open chunk -/

@[simp] theorem fillChunk_zero (bytes : List Byte) : fillChunk 0 bytes = some ([], bytes) := by
  simp [fillChunk]

/-- A byte whose run fits the open chunk places its samples and leaves the rest of the chunk to the bytes behind it. -/
theorem fillChunk_cons {m : Nat} (hm : 1 ≤ m) (b : Byte) (rest : List Byte) :
    fillChunk m (b :: rest) =
      if m < runLengthOf b then none
      else (fillChunk (m - runLengthOf b) rest).map fun p =>
        (List.replicate (runLengthOf b) (runValueOf b) ++ p.1, p.2) := by
  obtain ⟨m, rfl⟩ : ∃ p, m = p + 1 := ⟨m - 1, by omega⟩
  rw [fillChunk]

/-- The bytes of a chunk fill a chunk of its size with its samples. -/
theorem fillChunk_encodeChunk (c : List Nibble) (rest : List Byte) :
    fillChunk c.length (encodeChunk c ++ rest) = some (c, rest) := by
  induction c using chunk_induction with
  | nil => simp
  | run v r tail hpos hr hend ih =>
    rw [encodeChunk_run hpos hr hend, List.cons_append, fillChunk_cons (by simp; omega), runLengthOf_runByteOf hpos hr,
      runValueOf_runByteOf hr]
    simp [ih]

/-! ### Filling one chunk after another -/

@[simp] theorem fillChunks_zero_cons (sizes : List Nat) (bytes : List Byte) :
    fillChunks (0 :: sizes) bytes = fillChunks sizes bytes := by
  simp [fillChunks]

/-- A chunk with room left needs a byte. -/
theorem fillChunks_no_byte {m : Nat} (hm : 1 ≤ m) (sizes : List Nat) : fillChunks (m :: sizes) [] = none := by
  obtain ⟨m, rfl⟩ : ∃ p, m = p + 1 := ⟨m - 1, by omega⟩
  simp [fillChunks, fillChunk]

/-- A byte met with room left in the open chunk, in an artifact that is accepted: its run fits, and the bytes behind it are
accepted for the room that is left. -/
theorem fillChunks_byte {m : Nat} {sizes : List Nat} {b : Byte} {rest : List Byte} {q : List Nibble} (hm : 1 ≤ m)
    (h : fillChunks (m :: sizes) (b :: rest) = some q) :
    runLengthOf b ≤ m ∧ ∃ tail, fillChunks ((m - runLengthOf b) :: sizes) rest = some tail
      ∧ q = List.replicate (runLengthOf b) (runValueOf b) ++ tail := by
  rw [fillChunks, fillChunk_cons hm] at h
  split at h
  · cases h
  · next hfits =>
    obtain ⟨_, hp, hq⟩ := Option.bind_eq_some_iff.mp h
    obtain ⟨p, hfill, rfl⟩ := Option.map_eq_some_iff.mp hp
    obtain ⟨later, hlater, rfl⟩ := Option.map_eq_some_iff.mp hq
    exact ⟨Nat.le_of_not_lt hfits, p.1 ++ later, by simp [fillChunks, hfill, hlater], List.append_assoc _ _ _⟩

theorem fillChunk_length {m : Nat} {bytes : List Byte} {p : List Nibble × List Byte} (h : fillChunk m bytes = some p) :
    p.1.length = m := by
  induction bytes generalizing m p with
  | nil =>
    match m with
    | 0 => cases h; rfl
    | m + 1 => simp [fillChunk] at h
  | cons b rest ih =>
    rcases Nat.eq_zero_or_pos m with rfl | hm
    · rw [fillChunk_zero] at h
      cases h
      rfl
    · rw [fillChunk_cons hm] at h
      split at h
      · cases h
      · next hfits =>
        obtain ⟨p', hfill, rfl⟩ := Option.map_eq_some_iff.mp h
        rw [List.length_append, List.length_replicate, ih hfill]
        omega

/-- An accepted artifact fills every chunk. -/
theorem fillChunks_length {sizes : List Nat} {bytes : List Byte} {q : List Nibble} (h : fillChunks sizes bytes = some q) :
    q.length = sizes.sum := by
  induction sizes generalizing bytes q with
  | nil =>
    match bytes with
    | [] => cases h; rfl
    | _ :: _ => cases h
  | cons m sizes ih =>
    obtain ⟨p, hfill, hq⟩ := Option.bind_eq_some_iff.mp h
    obtain ⟨later, hlater, rfl⟩ := Option.map_eq_some_iff.mp hq
    rw [List.length_append, fillChunk_length hfill, ih hlater, List.sum_cons]

theorem decodeBuffer_length {bytes : List Byte} {q : List Nibble} {w h t : Nat} (ht : 1 ≤ t)
    (hq : decodeBuffer bytes w h t = some q) : q.length = w * h :=
  (fillChunks_length hq).trans (chunkSizes_sum ht w h)

/-! ### R118 -/

theorem fillChunks_encodeChunks {sizes : List Nat} {q : List Nibble} (hsum : sizes.sum = q.length) :
    fillChunks sizes (encodeChunks sizes q) = some q := by
  induction sizes generalizing q with
  | nil =>
    obtain rfl : q = [] := List.length_eq_zero_iff.mp hsum.symm
    rfl
  | cons m sizes ih =>
    rw [List.sum_cons] at hsum
    have hchunk := fillChunk_encodeChunk (q.take m) (encodeChunks sizes (q.drop m))
    rw [List.length_take_of_le (by omega)] at hchunk
    rw [encodeChunks, fillChunks, hchunk, Option.bind_some, ih (by rw [List.length_drop]; omega), Option.map_some,
      List.take_append_drop]

/-- R118: decoding gives back what was encoded. -/
theorem decodeBuffer_encodeBuffer {q : List Nibble} {w h t : Nat} (hq : q.length = w * h) (ht : 1 ≤ t) :
    decodeBuffer (encodeBuffer q w h t) w h t = some q := by
  rw [encodeBuffer_eq ht, decodeBuffer]
  exact fillChunks_encodeChunks (by rw [chunkSizes_sum ht, hq])

end Sys2Proof.Machine
end

section
/-! PROOFS. One DEC step (spec/42_rle_decoder.md R114, R115): the run placed at the cursors, and the chunks that are left to
fill before and after it. -/

namespace Sys2Proof.Machine

/-! ### The frame of the decoder -/

/-- `u` is `s` but for what a running DEC moves: the cursors and `IDX`. -/
abbrev sameButDec (s u : State) : Prop :=
  sameButCursors u { s with idx := u.idx }

theorem sameButDec.trans {s u v : State} (h : sameButDec s u) (h' : sameButDec u v) : sameButDec s v :=
  Eq.trans h' (congrArg (fun t : State =>
    { t with y := v.y, x := v.x, cend := v.cend, rl := v.rl, k := v.k, n := v.n, i := v.i, idx := v.idx }) h)

section
variable {s u : State} (hf : sameButDec s u)
include hf

theorem sameButDec.tilew : u.tilew = s.tilew := (congrArg State.tilew hf :)
theorem sameButDec.cap : u.cap = s.cap := (congrArg State.cap hf :)
theorem sameButDec.alen : u.alen = s.alen := (congrArg State.alen hf :)
theorem sameButDec.st : u.st = s.st := (congrArg State.st hf :)
theorem sameButDec.script : u.script = s.script := (congrArg State.script hf :)
theorem sameButDec.size : u.size = s.size := (congrArg State.size hf :)
theorem sameButDec.artList : u.artList = s.artList := (congrArg State.artList hf :)

end

theorem sameButDec_closeChunk (s : State) : sameButDec s s.closeChunk := by
  obtain ⟨-, h⟩ | ⟨-, -, h⟩ | ⟨-, -, h⟩ := closeChunk_cases s <;> rw [h]

/-! ### Placing one run -/

/-- A run of writes changes `IDX` and nothing else. -/
theorem writeIdxRun_eq (s : State) (a : Nat) (v : Nibble) (count : Nat) :
    s.writeIdxRun a v count = { s with idx := (s.writeIdxRun a v count).idx } := by
  induction count with
  | zero => rfl
  | succ count ih =>
    rw [State.writeIdxRun, ih]
    unfold State.writeIdx
    split <;> rfl

/-- A run placed at the cursors, the chunk not yet closed. -/
def State.placeRun (s : State) (run : Nat) (value : Nibble) : State :=
  { s with
    idx := (s.writeIdxRun s.position value run).idx
    x := toCursor (s.x.toNat + run)
    n := BitVec.ofNat 32 (s.n.toNat + run)
    k := s.k + 1 }

theorem expandRun_eq (s : State) (run : Nat) (value : Nibble) :
    s.expandRun run value = (s.placeRun run value).closeChunk := by
  rw [State.expandRun, writeIdxRun_eq]
  rfl

theorem placeRun_frame (s : State) (run : Nat) (value : Nibble) : sameButDec s (s.placeRun run value) := rfl

section
variable {s : State} {run : Nat} (hrow : s.InRow) (hfits : run ≤ s.cend.toNat - s.x.toNat)
include hrow hfits

theorem placeRun_x (value : Nibble) : (s.placeRun run value).x.toNat = s.x.toNat + run := by
  have hw := s.w.isLt
  have hcend := hrow.cend_le
  have hx := hrow.x_le
  exact toCursor_toNat (by omega)

theorem placeRun_position (value : Nibble) : (s.placeRun run value).position = s.position + run := by
  rw [State.position, placeRun_x hrow hfits, ← Nat.add_assoc]
  rfl

theorem placeRun_inRow (value : Nibble) : (s.placeRun run value).InRow where
  row := hrow.row
  x_le := by
    have hx := hrow.x_le
    rw [placeRun_x hrow hfits]
    change _ ≤ s.cend.toNat
    omega
  cend_le := hrow.cend_le
  rl_le := hrow.rl_le

/-- A run that fits the open chunk fits the buffer. -/
theorem position_add_run_le : s.position + run ≤ s.size := by
  have hx := hrow.x_le
  have hcend := hrow.cend_le
  calc s.position + run ≤ (s.y.toNat + 1) * s.w.toNat := by rw [State.position, Nat.succ_mul]; omega
    _ ≤ s.h.toNat * s.w.toNat := Nat.mul_le_mul_right _ hrow.row
    _ = s.size := Nat.mul_comm _ _

theorem placeRun_n (hn : s.n.toNat = s.position) (value : Nibble) :
    (s.placeRun run value).n.toNat = (s.placeRun run value).position := by
  have hle := position_add_run_le hrow hfits
  have hlt := size_lt s
  rw [placeRun_position hrow hfits, ← hn]
  exact (BitVec.toNat_ofNat _ _).trans (Nat.mod_eq_of_lt (by omega))

/-- The samples placed so far, and then those of the run. -/
theorem placeRun_placed (hcap : s.size ≤ s.cap) (value : Nibble) :
    (List.range (s.placeRun run value).position).map (s.placeRun run value).idx.read
      = (List.range s.position).map s.idx.read ++ List.replicate run value := by
  have hle := position_add_run_le hrow hfits
  have hread : ∀ b, (s.placeRun run value).idx.read b
      = if s.position ≤ b ∧ b < s.position + run ∧ b < s.cap then value else s.idx.read b :=
    fun b => read_writeIdxRun s s.position b value run
  rw [placeRun_position hrow hfits, List.range_add, List.map_append, List.map_map]
  congr 1
  · exact List.map_congr_left fun b hb => by
      have := List.mem_range.mp hb
      rw [hread, if_neg (by omega)]
  · refine List.eq_replicate_iff.mpr ⟨by simp, fun u hu => ?_⟩
    obtain ⟨j, hj, rfl⟩ := List.mem_map.mp hu
    have := List.mem_range.mp hj
    rw [Function.comp_apply, hread, if_pos (by omega)]

end

/-! ### The chunks left to fill -/

/-- The room left in the open chunk and the sizes of the chunks behind it; nothing once every row is filled. -/
def State.sizesLeft (s : State) : List Nat :=
  if s.scanOver then [] else (s.cend.toNat - s.x.toNat) :: s.laterSizes

theorem sizesLeft_of_over {s : State} (hover : s.scanOver = true) : s.sizesLeft = [] := if_pos hover

theorem scanOver_eq_false_iff (s : State) : s.scanOver = false ↔ 1 ≤ s.w.toNat ∧ s.y.toNat ≠ s.h.toNat := by
  rw [Bool.eq_false_iff, Ne, scanOver_iff]
  omega

theorem sizesLeft_of_not_over {s : State} (hover : s.scanOver = false) :
    s.sizesLeft = (s.cend.toNat - s.x.toNat) :: s.laterSizes := by
  simp [State.sizesLeft, hover]

theorem scanOver_of_inRow {s : State} (hrow : s.InRow) (hw : 1 ≤ s.w.toNat) : s.scanOver = false :=
  (scanOver_eq_false_iff s).mpr ⟨hw, Nat.ne_of_lt hrow.row⟩

theorem chunkSizes_no_columns {t : Nat} (ht : 1 ≤ t) (h : Nat) : chunkSizes 0 h t = [] := by
  simp [chunkSizes, ceilDiv_zero ht]

/-- At the start of a row, the chunks left are those of the rows left. -/
theorem sizesLeft_at_row_start {s : State} (ht : s.tilew ≠ 0) (hx : s.x.toNat = 0)
    (hcend : s.cend.toNat = min s.tilew.toNat s.w.toNat) (hy : s.y.toNat ≤ s.h.toNat) :
    s.sizesLeft = chunkSizes s.w.toNat (s.h.toNat - s.y.toNat) s.tilew.toNat := by
  have ht1 := one_le_toNat_of_ne ht
  cases hover : s.scanOver with
  | true =>
    rw [sizesLeft_of_over hover]
    obtain hw | hlast := (scanOver_iff s).mp hover
    · rw [hw, chunkSizes_no_columns ht1]
    · rw [hlast, Nat.sub_self, chunkSizes_zero]
  | false =>
    obtain ⟨hw, hne⟩ := (scanOver_eq_false_iff s).mp hover
    have hrows : s.h.toNat - s.y.toNat = s.h.toNat - (s.y.toNat + 1) + 1 := by omega
    have hcols : s.w.toNat - min s.tilew.toNat s.w.toNat = s.w.toNat - s.tilew.toNat := by omega
    rw [sizesLeft_of_not_over hover, State.laterSizes, hx, hcend, hrows, chunkSizes_succ, rowSizes_cons ht1 hw, hcols,
      Nat.sub_zero, List.cons_append]

/-- Closing a full chunk (R97) drops it from the chunks left to fill; an empty chunk takes no byte. -/
theorem fillChunks_closeChunk {s : State} (hrow : s.InRow) (hw : 1 ≤ s.w.toNat) (ht : s.tilew ≠ 0) (bytes : List Byte) :
    fillChunks s.closeChunk.sizesLeft bytes = fillChunks s.sizesLeft bytes := by
  have ht1 := one_le_toNat_of_ne ht
  have hleft := sizesLeft_of_not_over (scanOver_of_inRow hrow hw)
  obtain ⟨-, h⟩ | ⟨hxc, hxw, hy, hx, hcend⟩ | ⟨hxc, hxw, hy, hx, hcend⟩ := closeChunk_cursors hrow
  case inl => rw [h]
  case inr.inl =>
    have hnext := sizesLeft_at_row_start (s := s.closeChunk) (by rwa [closeChunk_tilew]) hx
      (by rw [hcend, closeChunk_tilew, closeChunk_w]) (by rw [hy, closeChunk_h]; exact hrow.row)
    rw [hnext, hleft, State.laterSizes, ← hxc, hxw]
    simp only [closeChunk_w, closeChunk_h, closeChunk_tilew, hy, Nat.sub_self, rowSizes_zero ht1, List.nil_append,
      fillChunks_zero_cons]
  case inr.inr =>
    have hopen : s.closeChunk.scanOver = false :=
      (scanOver_eq_false_iff _).mpr ⟨by rwa [closeChunk_w], by rw [hy, closeChunk_h]; exact Nat.ne_of_lt hrow.row⟩
    have hwidth : min (s.x.toNat + s.tilew.toNat) s.w.toNat - s.x.toNat = min s.tilew.toNat (s.w.toNat - s.x.toNat) := by
      omega
    have hrest : s.w.toNat - min (s.x.toNat + s.tilew.toNat) s.w.toNat = s.w.toNat - s.x.toNat - s.tilew.toNat := by omega
    rw [sizesLeft_of_not_over hopen, hleft, State.laterSizes, State.laterSizes, ← hxc]
    simp only [closeChunk_w, closeChunk_h, closeChunk_tilew, hy, hx, hcend, hwidth, hrest, Nat.sub_self,
      fillChunks_zero_cons, rowSizes_cons ht1 (Nat.sub_pos_of_lt hxw), List.cons_append]

end Sys2Proof.Machine
end

section
/-! PROOFS. DEC of an accepted artifact as a whole operation (spec/42_rle_decoder.md R112 to R116): one run byte a step,
then the end. -/

namespace Sys2Proof.Machine

/-! ### The start and the two steps -/

/-- The state in which DEC starts, its checks passed (R113). -/
def State.decInit (s : State) : State :=
  { ({ s.beginCommand with idxlen := 0 } : State).startScan with n := 0, st := .decRun }

theorem exec_dec_of_checks {s : State} (hst : s.st = .idle) (ht : s.tilew ≠ 0) (hcap : s.size ≤ s.cap)
    (hart : s.alen.toNat ≤ s.cap) : exec .dec s = .next s.decInit := by
  have hstart : exec .dec s = decStart s.beginCommand := issue_of_idle ((busy_eq_false_iff s).mpr hst)
  have hroom : ¬ (s.cap < s.size ∨ s.cap < s.alen.toNat) := by omega
  exact hstart.trans ((if_neg ht).trans (if_neg hroom))

/-- The DEC step as one function of the state (R114): the end tests, then the byte at `k`, whose run fits the open chunk or
does not. -/
def State.decNext (s : State) : State :=
  if s.decAtEnd then s.decEnd
  else if s.cend.toNat < s.x.toNat + runLengthOf s.fetchRunByte then s.failDec .overrun
  else s.expandRun (runLengthOf s.fetchRunByte) (runValueOf s.fetchRunByte)

theorem sequencerStep_decRun {s : State} (hst : s.st = .decRun) : sequencerStep s = .next s.decNext := by
  rw [sequencerStep_dec hst, execRunByte, if_neg (not_not.mpr hst), State.decNext]
  split
  · rfl
  · split <;> rfl

theorem step_of_decRun {s : State} (hst : s.st = .decRun) (hs : s.script = []) : step s = .next s.decNext := by
  rw [step_of_script_nil hs, sequencerStep_decRun hst]

theorem decAtEnd_eq_false_iff (s : State) : s.decAtEnd = false ↔ s.n.toNat ≠ s.size ∧ s.k ≠ s.alen := by
  simp [State.decAtEnd]

theorem decNext_of_byte {s : State} (hend : s.decAtEnd = false)
    (hfits : s.x.toNat + runLengthOf s.fetchRunByte ≤ s.cend.toNat) :
    s.decNext = s.expandRun (runLengthOf s.fetchRunByte) (runValueOf s.fetchRunByte) := by
  simp [State.decNext, hend, Nat.not_lt.mpr hfits]

theorem decNext_of_success {s : State} (hn : s.n.toNat = s.size) (hk : s.k = s.alen) :
    s.decNext = (s.setIdxlen (BitVec.ofNat 32 s.size)).finish := by
  simp [State.decNext, State.decAtEnd, State.decEnd, hn, hk]

/-! ### The invariant -/

/-- After `j` steps from `t0`: `j` bytes are consumed, their samples stand in `IDX`, and the bytes left fill the chunks left
with the rest of `q` (R115). -/
structure DecInv (t0 : State) (q : List Nibble) (j : Nat) (s : State) : Prop where
  frame : sameButDec t0 s
  index : s.k.toNat = j
  count : s.n.toNat = s.position
  no_run : s.rl = 0
  ready : s.scanReady
  samples : ∃ rest, fillChunks s.sizesLeft (s.artList.drop j) = some rest
    ∧ (List.range s.position).map s.idx.read ++ rest = q

theorem artList_drop {s : State} (hk : s.k.toNat < s.alen.toNat) :
    s.artList.drop s.k.toNat = s.fetchRunByte :: s.artList.drop (s.k.toNat + 1) := by
  have hlen : s.k.toNat < s.artList.length := by simpa [State.artList] using hk
  rw [List.drop_eq_getElem_cons hlen]
  simp [State.artList, State.fetchRunByte]

theorem artList_drop_alen (s : State) : s.artList.drop s.alen.toNat = [] :=
  List.drop_eq_nil_of_le (by simp [State.artList])

/-- An artifact's length fits 32 bits, so the index of its next byte does not wrap. -/
theorem toNat_k_succ_of_byte {s : State} (hk : s.k.toNat < s.alen.toNat) : (s.k + 1).toNat = s.k.toNat + 1 := by
  have hfits : s.k.toNat + (1 : Len).toNat < 2 ^ 32 := lt_of_le_of_lt hk s.alen.isLt
  exact BitVec.toNat_add_of_lt hfits

section
variable {t0 s : State} {q : List Nibble} {j : Nat}

/-- With a byte left, in an accepted artifact, there is room in the open chunk. -/
theorem DecInv.inRow (hi : DecInv t0 q j s) (hj : j < t0.alen.toNat) : s.InRow ∧ s.x.toNat < s.cend.toNat := by
  obtain hrow | ⟨hover, -⟩ := hi.ready
  · exact hrow
  · obtain ⟨rest, hfill, -⟩ := hi.samples
    rw [← hi.frame.alen, ← hi.index] at hj
    rw [sizesLeft_of_over hover, ← hi.index, artList_drop hj] at hfill
    cases hfill

/-- With no byte left there is no room left either. -/
theorem DecInv.over (hi : DecInv t0 q t0.alen.toNat s) : s.scanOver = true := by
  obtain ⟨hrow, hx⟩ | ⟨hover, -⟩ := hi.ready
  · obtain ⟨rest, hfill, -⟩ := hi.samples
    have hw : 1 ≤ s.w.toNat := by have := hrow.cend_le; omega
    rw [sizesLeft_of_not_over (scanOver_of_inRow hrow hw), ← hi.frame.alen, artList_drop_alen,
      fillChunks_no_byte (by omega)] at hfill
    cases hfill
  · exact hover

theorem DecInv.decAtEnd_eq_false (hi : DecInv t0 q j s) (hj : j < t0.alen.toNat) : s.decAtEnd = false := by
  obtain ⟨hrow, hx⟩ := hi.inRow hj
  have hlt := position_lt_size hrow hx
  refine (decAtEnd_eq_false_iff s).mpr ⟨by rw [hi.count]; omega, fun heq => ?_⟩
  rw [← hi.index, heq, hi.frame.alen] at hj
  exact lt_irrefl _ hj

/-- The byte at `k` has a run that fits, and is consumed. -/
theorem DecInv.step (hi : DecInv t0 q j s) (hj : j < t0.alen.toNat) (ht : t0.tilew ≠ 0) (hcap : t0.size ≤ t0.cap)
    (hst : t0.st = .decRun) (hs : t0.script = []) : ∃ u, step s = .next u ∧ DecInv t0 q (j + 1) u := by
  obtain ⟨hrow, hx⟩ := hi.inRow hj
  have hw : 1 ≤ s.w.toNat := by have := hrow.cend_le; omega
  have hk : s.k.toNat < s.alen.toNat := by rwa [hi.index, hi.frame.alen]
  obtain ⟨rest, hfill, hq⟩ := hi.samples
  rw [sizesLeft_of_not_over (scanOver_of_inRow hrow hw), ← hi.index, artList_drop hk] at hfill
  obtain ⟨hfits, tail, htail, rfl⟩ := fillChunks_byte (by omega) hfill
  set r := runLengthOf s.fetchRunByte
  set v := runValueOf s.fetchRunByte
  have hrow' := placeRun_inRow hrow hfits v
  have ht' : (s.placeRun r v).tilew ≠ 0 := by change s.tilew ≠ 0; rwa [hi.frame.tilew]
  have hpos := position_closeChunk hrow'
  refine ⟨s.decNext, step_of_decRun (hi.frame.st.trans hst) (hi.frame.script.trans hs), ?_⟩
  rw [decNext_of_byte (hi.decAtEnd_eq_false hj) (by omega), expandRun_eq]
  exact
    { frame := (hi.frame.trans (placeRun_frame s r v)).trans (sameButDec_closeChunk _)
      index := by
        rw [closeChunk_k, ← hi.index]
        exact toNat_k_succ_of_byte hk
      count := by rw [closeChunk_n, hpos, placeRun_n hrow hfits hi.count]
      no_run := (closeChunk_rl _).trans hi.no_run
      ready := scanReady_closeChunk hrow' (fun _ => hi.no_run) ht'
      samples := by
        refine ⟨tail, ?_, ?_⟩
        · rw [fillChunks_closeChunk hrow' hw ht', (sameButDec_closeChunk _).artList, (placeRun_frame s r v).artList,
            sizesLeft_of_not_over (scanOver_of_inRow hrow' hw), placeRun_x hrow hfits, ← Nat.sub_sub, ← hi.index]
          exact htail
        · rw [hpos, closeChunk_idx, placeRun_placed hrow hfits (by rwa [hi.frame.size, hi.frame.cap]), List.append_assoc]
          exact hq }

/-- At the end every sample of `q` stands in `IDX`. -/
theorem DecInv.idxList_eq (hi : DecInv t0 q t0.alen.toNat s) (hq : q.length = t0.size) :
    s.n.toNat = s.size ∧ s.k = s.alen ∧ s.idxList = q := by
  obtain ⟨rest, hfill, hplaced⟩ := hi.samples
  rw [sizesLeft_of_over hi.over, ← hi.frame.alen, artList_drop_alen] at hfill
  obtain rfl : [] = rest := Option.some.inj hfill
  rw [List.append_nil] at hplaced
  have hpos : s.position = s.size := by simpa [← hplaced, hi.frame.size] using hq
  exact ⟨hi.count.trans hpos, BitVec.eq_of_toNat_eq (by rw [hi.index, hi.frame.alen]),
    by rw [← hplaced, hpos, State.idxList]⟩

end

/-! ### The whole operation -/

theorem decInit_cend (s : State) : s.decInit.cend.toNat = min s.tilew.toNat s.w.toNat :=
  toCursor_toNat (min_tilew_lt s)

/-- DEC starts its scan where ENC does (R95, R113). -/
theorem decInit_ready {s : State} (ht : s.tilew ≠ 0) : s.decInit.scanReady :=
  (scanInit_ready (store := true) ht).imp_left fun ⟨⟨hrow, hx, hcend, hrl⟩, hlt⟩ => ⟨⟨hrow, hx, hcend, hrl⟩, hlt⟩

section
variable {s : State} {q : List Nibble} (hs : s.script = []) (ht : s.tilew ≠ 0) (hcap : s.size ≤ s.cap)
  (hq : decodeBuffer s.artList s.w.toNat s.h.toNat s.tilew.toNat = some q)
include ht hq

theorem decInv_decInit : DecInv s.decInit q 0 s.decInit where
  frame := rfl
  index := rfl
  count := by simp [State.position, State.decInit]
  no_run := rfl
  ready := decInit_ready ht
  samples := by
    refine ⟨q, ?_, by simp [State.position, State.decInit]⟩
    rw [sizesLeft_at_row_start (s := s.decInit) ht rfl (decInit_cend s) (Nat.zero_le _)]
    exact hq

include hs hcap

/-- DEC runs through `ALEN` steps, one per byte. -/
theorem dec_reaches : ∀ j, j ≤ s.alen.toNat → ∃ u, Reaches j s.decInit u ∧ DecInv s.decInit q j u :=
  reaches_of_step (decInv_decInit ht hq) fun _ _ hj hi => hi.step hj ht hcap rfl hs

/-- DEC ends with the step after the last byte, having placed the buffer that `decode` computes (R112, R116). -/
theorem dec_ends : ∃ t, Reaches (s.alen.toNat + 1) s.decInit t
    ∧ sameButCursors t { statusCleared s with
        st := .idle, done := true, idxlen := BitVec.ofNat 32 s.size, idx := t.idx }
    ∧ t.idxList = q := by
  obtain ⟨u, hu, hi⟩ := dec_reaches hs ht hcap hq s.alen.toNat le_rfl
  obtain ⟨hn, hk, hidx⟩ := hi.idxList_eq (decodeBuffer_length (one_le_toNat_of_ne ht) hq)
  have hstep := step_of_decRun hi.frame.st (hi.frame.script.trans hs)
  rw [decNext_of_success hn hk] at hstep
  refine ⟨_, reaches_add hu (reaches_succ hstep rfl), ?frame, ?samples⟩
  case frame =>
    rw [hi.frame.size]
    exact congrArg (fun v : State => (v.setIdxlen (BitVec.ofNat 32 s.size)).finish) hi.frame
  case samples =>
    rw [← hidx]
    exact List.map_congr_left fun a ha =>
      u.idx.read_keepBelow_of_lt (by rw [size_ofNat_toNat]; simpa using ha)

end

end Sys2Proof.Machine
end

section
/-! PROOFS. A command issued and waited for by the host (spec/30_encoding.md R71, R72, spec/44_control.md R147): what the
sequencer does does not depend on what the host is going to do, so the operation runs under `WAIT` as it does alone. -/

namespace Sys2Proof.Machine

/-! ### The host's side -/

/-- `s` with another host: what it is going to do, and what its last read returned. -/
def State.withHost (s : State) (script : List HostAction) (reply : Option Reply) : State :=
  { s with script := script, reply := reply }

section
variable (s : State) (script : List HostAction) (reply : Option Reply)

theorem writeIdx_withHost (a : Nat) (v : Nibble) :
    (s.withHost script reply).writeIdx a v = (s.writeIdx a v).withHost script reply := by
  unfold State.writeIdx
  rw [apply_ite (State.withHost · script reply)]
  rfl

theorem writeArt_withHost (a : Nat) (v : Byte) :
    (s.withHost script reply).writeArt a v = (s.writeArt a v).withHost script reply := by
  unfold State.writeArt
  rw [apply_ite (State.withHost · script reply)]
  rfl

theorem writeIdxRun_withHost (a : Nat) (v : Nibble) (count : Nat) :
    (s.withHost script reply).writeIdxRun a v count = (s.writeIdxRun a v count).withHost script reply := by
  induction count with
  | zero => rfl
  | succ count ih => rw [State.writeIdxRun, ih, writeIdx_withHost]; rfl

theorem closeChunk_withHost : (s.withHost script reply).closeChunk = s.closeChunk.withHost script reply := by
  unfold State.closeChunk State.advanceChunk
  simp only [apply_ite (State.withHost · script reply)]
  rfl

theorem quantStep_withHost : quantStep (s.withHost script reply) = (quantStep s).withHost script reply := by
  unfold quantStep
  rw [apply_ite (State.withHost · script reply)]
  simp only [writeIdx_withHost]
  rfl

theorem takeSample_withHost (store : Bool) :
    (s.withHost script reply).takeSample store = (s.takeSample store).withHost script reply := by
  unfold State.takeSample State.artAfterRun
  rw [apply_ite (State.withHost · script reply)]
  simp only [writeArt_withHost]
  rfl

theorem scanSample_withHost (store : Bool) :
    (s.withHost script reply).scanSample store = (s.scanSample store).withHost script reply := by
  rw [scanSample_eq, scanSample_eq, takeSample_withHost, closeChunk_withHost]

theorem encStep_withHost : encStep (s.withHost script reply) = (encStep s).withHost script reply := by
  unfold encStep
  rw [apply_ite (State.withHost · script reply), scanSample_withHost]
  rfl

theorem countStep_withHost : countStep (s.withHost script reply) = (countStep s).withHost script reply := by
  unfold countStep
  rw [apply_ite (State.withHost · script reply), scanSample_withHost]
  rfl

theorem expandRun_withHost (run : Nat) (value : Nibble) :
    (s.withHost script reply).expandRun run value = (s.expandRun run value).withHost script reply := by
  have hplace : (s.withHost script reply).placeRun run value = (s.placeRun run value).withHost script reply := by
    have hidx := congrArg State.idx (writeIdxRun_withHost s script reply s.position value run)
    exact congrArg (fun m => { (s.placeRun run value).withHost script reply with idx := m }) hidx
  rw [expandRun_eq, expandRun_eq, hplace, closeChunk_withHost]

theorem decNext_withHost : (s.withHost script reply).decNext = s.decNext.withHost script reply := by
  unfold State.decNext State.decEnd
  simp only [apply_ite (State.withHost · script reply), ← expandRun_withHost]
  rfl

end

/-- A sequencer step is the same whatever the host is going to do. -/
theorem sequencerStep_withHost {s t : State} (h : sequencerStep s = .next t) (script : List HostAction)
    (reply : Option Reply) : sequencerStep (s.withHost script reply) = .next (t.withHost script reply) := by
  cases hst : s.st with
  | idle =>
    rw [sequencerStep_idle hst] at h
    cases h
    exact sequencerStep_idle hst
  | quantRun =>
    rw [sequencerStep_quant hst] at h
    cases h
    rw [← quantStep_withHost]
    exact sequencerStep_quant hst
  | encRun =>
    rw [sequencerStep_enc hst] at h
    cases h
    rw [← encStep_withHost]
    exact sequencerStep_enc hst
  | countRun =>
    rw [sequencerStep_count hst] at h
    cases h
    rw [← countStep_withHost]
    exact sequencerStep_count hst
  | decRun =>
    rw [sequencerStep_decRun hst] at h
    cases h
    rw [← decNext_withHost]
    exact sequencerStep_decRun hst

theorem sequencerStep_script {s t : State} (h : sequencerStep s = .next t) : t.script = s.script := by
  have hsame : Host.Outcome.next t = .next (t.withHost s.script s.reply) :=
    h.symm.trans (sequencerStep_withHost h s.script s.reply)
  have heq : t = t.withHost s.script s.reply := Host.Outcome.next.inj hsame
  exact (congrArg State.script heq :)

/-! ### Waiting -/

/-- `WAIT` while an operation runs: the host reads `STATUS` and waits on, the sequencer takes its step. -/
theorem step_wait_busy {s t : State} (hbusy : s.st ≠ .idle) (hs : s.script = []) (h : step s = .next t)
    (rest : List HostAction) (reply : Option Reply) :
    ∃ reply', step (s.withHost (.wait :: rest) reply) = .next (t.withHost (.wait :: rest) reply') := by
  rw [step_of_script_nil hs] at h
  have hstep : step (s.withHost (.wait :: rest) reply)
      = sequencerStep (s.withHost (.wait :: rest) (some (s.readReg 15))) :=
    step_of_busy (s := s.withHost (.wait :: rest) reply) hbusy rfl
  exact ⟨_, hstep.trans (sequencerStep_withHost h _ _)⟩

/-- `WAIT` in `IDLE` ends. -/
theorem step_wait_idle {s : State} (hidle : s.st = .idle) (rest : List HostAction) (reply : Option Reply) :
    step (s.withHost (.wait :: rest) reply) = .next (s.withHost rest (some (s.readReg 15))) :=
  (step_of_script_cons rfl).trans (hostStep_of_idle (s := s.withHost rest reply) hidle)

/-- The first step of a run, and the rest. -/
theorem reaches_succ_iff {count : Nat} {s u : State} :
    Reaches (count + 1) s u ↔ ∃ t, step s = .next t ∧ Reaches count t u := by
  constructor
  · intro h
    unfold Reaches runSteps at h
    split at h
    · next t ht => exact ⟨t, ht, h⟩
    · cases h
    · cases h
  · rintro ⟨t, ht, h⟩
    exact reaches_succ ht h

/-- An operation that runs alone takes the same steps under `WAIT`. -/
theorem reaches_under_wait {count : Nat} {s t : State} (hs : s.script = [])
    (hbusy : ∀ j, j < count → ∃ u, Reaches j s u ∧ u.st ≠ .idle) (hrun : Reaches count s t) (rest : List HostAction)
    (reply : Option Reply) :
    ∃ reply', Reaches count (s.withHost (.wait :: rest) reply) (t.withHost (.wait :: rest) reply') := by
  induction count generalizing s reply with
  | zero =>
    cases hrun
    exact ⟨reply, rfl⟩
  | succ count ih =>
    obtain ⟨v, hv, hrest⟩ := reaches_succ_iff.mp hrun
    have hst : s.st ≠ .idle := by
      obtain ⟨u, hu, hne⟩ := hbusy 0 (Nat.succ_pos count)
      cases hu
      exact hne
    have hbusy' : ∀ j, j < count → ∃ u, Reaches j v u ∧ u.st ≠ .idle := by
      intro j hj
      obtain ⟨u, hu, hne⟩ := hbusy (j + 1) (Nat.succ_lt_succ hj)
      obtain ⟨v', hv', hu'⟩ := reaches_succ_iff.mp hu
      obtain rfl : v = v' := Host.Outcome.next.inj (hv.symm.trans hv')
      exact ⟨u, hu', hne⟩
    have hs' : v.script = [] := by
      rw [step_of_script_nil hs] at hv
      rw [sequencerStep_script hv, hs]
    obtain ⟨reply1, hstep⟩ := step_wait_busy hst hs hv rest reply
    obtain ⟨reply2, hreach⟩ := ih hs' hbusy' hrest reply1
    exact ⟨reply2, reaches_succ hstep hreach⟩

/-- A command and a `WAIT` (R72): with the command issued, the operation it starts runs to its end. -/
theorem reaches_run_command {i : Instr} {v count : Nat} {s s0 t : State} {rest : List HostAction} {reply : Option Reply}
    (hidle : s.st = .idle) (hdecode : decodeCommand (commandByte v) = i)
    (hstart : exec i (s.withHost (.wait :: rest) reply) = .next (s0.withHost (.wait :: rest) reply)) (hs : s0.script = [])
    (hbusy : ∀ j, j < count → ∃ u, Reaches j s0 u ∧ u.st ≠ .idle) (hrun : Reaches count s0 t) (hend : t.st = .idle) :
    ∃ reply', Reaches (count + 2) (s.withHost (.regWrite 14 v :: .wait :: rest) reply) (t.withHost rest reply') := by
  subst hdecode
  have hissue : step (s.withHost (.regWrite 14 v :: .wait :: rest) reply) = .next (s0.withHost (.wait :: rest) reply) :=
    ((step_of_script_cons rfl).trans (hostStep_of_idle (s := s.withHost (.wait :: rest) reply) hidle)).trans hstart
  obtain ⟨reply', hwait⟩ := reaches_under_wait hs hbusy hrun rest reply
  have hlast : Reaches 1 (t.withHost (.wait :: rest) reply') (t.withHost rest (some (t.readReg 15))) :=
    reaches_succ (step_wait_idle hend rest reply') rfl
  exact ⟨_, reaches_succ hissue (reaches_add hwait hlast)⟩

end Sys2Proof.Machine
end

section
/-! PROOFS. ENC and then DEC, each issued and waited for by the host (spec/42_rle_decoder.md R118). -/

namespace Sys2Proof.Machine

theorem exec_enc_of_checks {s : State} (hst : s.st = .idle) (ht : s.tilew ≠ 0) (hcap : s.size ≤ s.cap)
    (hlen : s.idxlen.toNat = s.size) : exec .enc s = .next (s.scanInit true) := by
  have hexec := exec_scanInstr hst true
  rwa [(scanCause_eq_none_iff s).mpr ⟨ht, hcap, hlen⟩] at hexec

section
variable {s : State} (hst : s.st = .idle) (hs : s.script = []) (ht : s.tilew ≠ 0) (hcap : s.size ≤ s.cap)
include hst hs ht hcap

/-- ENC, its checks passed, under a host that waits for it (R99). -/
theorem enc_under_wait (hlen : s.idxlen.toNat = s.size) (rest : List HostAction) (reply : Option Reply) :
    ∃ count t reply', Reaches count (s.withHost (.regWrite 14 2 :: .wait :: rest) reply) (t.withHost rest reply')
      ∧ sameButCursors t { statusCleared s with done := true, alen := t.alen, art := t.art }
      ∧ t.artList = s.artifact := by
  have hcheck : ∀ script, exec .enc (s.withHost script reply) = .next ((s.scanInit true).withHost script reply) :=
    fun script => exec_enc_of_checks (s := s.withHost script reply) hst ht hcap hlen
  obtain ⟨t0, t, hstart, hbusy, hrun, hframe, hart, -⟩ := encStepsComputeEncode s hst hs ht hcap hlen
  obtain rfl : s.scanInit true = t0 :=
    Host.Outcome.next.inj ((exec_enc_of_checks hst ht hcap hlen).symm.trans hstart)
  have hbusy' : ∀ j, j < s.size + 1 → ∃ u, Reaches j (s.scanInit true) u ∧ u.st ≠ .idle := by
    intro j hj
    obtain ⟨u, hu, hust⟩ := hbusy j (Nat.le_of_lt_succ hj)
    exact ⟨u, hu, by rw [hust]; nofun⟩
  have hend : t.st = .idle := (congrArg State.st hframe :).trans hst
  obtain ⟨reply', hreach⟩ := reaches_run_command (v := 2) hst rfl (hcheck (.wait :: rest)) hs hbusy' hrun hend
  exact ⟨_, t, reply', hreach, hframe, hart⟩

/-- DEC of an accepted artifact, under a host that waits for it (R116). -/
theorem dec_under_wait {q : List Nibble} (hart : s.alen.toNat ≤ s.cap)
    (hq : decodeBuffer s.artList s.w.toNat s.h.toNat s.tilew.toNat = some q) (rest : List HostAction)
    (reply : Option Reply) :
    ∃ count t reply', Reaches count (s.withHost (.regWrite 14 3 :: .wait :: rest) reply) (t.withHost rest reply')
      ∧ sameButCursors t { statusCleared s with
          st := .idle, done := true, idxlen := BitVec.ofNat 32 s.size, idx := t.idx }
      ∧ t.idxList = q := by
  have hcheck : ∀ script, exec .dec (s.withHost script reply) = .next (s.decInit.withHost script reply) :=
    fun script => exec_dec_of_checks (s := s.withHost script reply) hst ht hcap hart
  obtain ⟨t, hrun, hframe, hidx⟩ := dec_ends hs ht hcap hq
  have hbusy : ∀ j, j < s.alen.toNat + 1 → ∃ u, Reaches j s.decInit u ∧ u.st ≠ .idle := by
    intro j hj
    obtain ⟨u, hu, hi⟩ := dec_reaches hs ht hcap hq j (Nat.le_of_lt_succ hj)
    exact ⟨u, hu, by rw [hi.frame.st]; nofun⟩
  have hend : t.st = .idle := (congrArg State.st hframe :)
  obtain ⟨reply', hreach⟩ := reaches_run_command (v := 3) hst rfl (hcheck (.wait :: rest)) hs hbusy hrun hend
  exact ⟨_, t, reply', hreach, hframe, hidx⟩

end

/-- Two buffers of one size that list the same samples hold the same elements. -/
theorem read_eq_of_idxList_eq {s t : State} (hsize : t.size = s.size) (h : t.idxList = s.idxList) {a : Nat}
    (ha : a < s.size) :
    t.idx.read a = s.idx.read a := by
  have hat : a < t.size := by rwa [hsize]
  have hsome : some (t.idx.read a) = some (s.idx.read a) := by rw [← getElem?_idxList hat, ← getElem?_idxList ha, h]
  exact Option.some.inj hsome

/-- Settles O32: the chunks decode to what they encode, and ENC's artifact is one that DEC accepts. -/
theorem encThenDecIsTheIdentity : Obligations.EncThenDecIsTheIdentity := by
  refine ⟨fun q w h t hq ht => decodeBuffer_encodeBuffer hq ht, fun s hst hs ht hcap hlen => ?_⟩
  obtain ⟨encCount, e, reply, henc, heframe, heart⟩ :=
    enc_under_wait (s := s.withHost [] s.reply) hst rfl ht hcap hlen [.regWrite 14 3, .wait] s.reply
  have hoperands : sameOperands s e := by
    rw [heframe]
    exact ⟨rfl, rfl, rfl, rfl, rfl, rfl, rfl, rfl⟩
  have ⟨hw, hh, htilew, _, _, _, _, hecap⟩ := hoperands
  have hsize : e.size = s.size := by rw [State.size, hw, hh, State.size]
  have haccepted : decodeBuffer e.artList e.w.toNat e.h.toNat e.tilew.toNat = some s.idxList := by
    rw [heart, hw, hh, htilew]
    exact decodeBuffer_encodeBuffer (length_idxList s) (one_le_toNat_of_ne ht)
  have hartlen : e.alen.toNat ≤ e.cap := by
    calc e.alen.toNat = e.artList.length := by simp [State.artList]
      _ = s.artifact.length := by rw [heart]; rfl
      _ ≤ s.size := artifact_length_le ht
      _ ≤ e.cap := hecap ▸ hcap
  obtain ⟨decCount, d, reply', hdec, hdframe, hdidx⟩ :=
    dec_under_wait (s := e.withHost [] reply) ((congrArg State.st heframe :).trans hst) rfl (htilew ▸ ht)
      (hsize.trans_le (hecap ▸ hcap)) hartlen haccepted [] reply
  have hstart : s = s.withHost [.regWrite 14 2, .wait, .regWrite 14 3, .wait] s.reply := by rw [← hs]; rfl
  refine ⟨encCount + decCount, d.withHost [] reply', ?run, rfl, (congrArg State.st hdframe :),
    (congrArg State.done hdframe :), (congrArg State.err hdframe :), ?idxlen, fun a ha => ?samples, ?operands⟩
  case run =>
    rw [hstart]
    exact reaches_add henc hdec
  case idxlen =>
    have hlast : d.idxlen = BitVec.ofNat 32 e.size := (congrArg State.idxlen hdframe :)
    change d.idxlen.toNat = s.size
    rw [hlast, size_ofNat_toNat, hsize]
  case samples =>
    have hdsize : d.size = s.size := (congrArg State.size hdframe :).trans hsize
    exact read_eq_of_idxList_eq hdsize hdidx ha
  case operands =>
    rw [hdframe]
    exact hoperands

end Sys2Proof.Machine
end

section
/-! PROOFS. The geometry in whole numbers: each function of square roots of rationals computes, without rounding, the floor over the
real numbers that its part of R128 or R131 asks for (spec/43_geometry.md R136). -/

namespace Sys2Proof.Machine

/-! ### Floors decided by natural numbers -/

/-- A natural number that bounds the same natural numbers as `x` is the floor of `x`. -/
theorem natAbs_floor_eq {x : ℝ} {m : ℕ} (h : ∀ n : ℕ, (n : ℝ) ≤ x ↔ n ≤ m) : ⌊x⌋.natAbs = m := by
  have hx : 0 ≤ x := by simpa using (h 0).mpr m.zero_le
  have hfloor : ⌊x⌋.natAbs = ⌊x⌋₊ := by rw [← Int.natCast_floor_eq_floor hx, Int.natAbs_natCast]
  rw [hfloor]
  exact eq_of_forall_le_iff fun n => (Nat.le_floor_iff hx).trans (h n)

/-- The floor of a negative number is, in absolute value, the ceiling of the number negated. -/
theorem natAbs_floor_neg_eq {x : ℝ} {m : ℕ} (hx : 0 ≤ x) (h : ∀ n : ℕ, x ≤ n ↔ m ≤ n) : ⌊-x⌋.natAbs = m := by
  have hceil : ⌊-x⌋.natAbs = ⌈x⌉₊ := by
    rw [Int.floor_neg, Int.natAbs_neg, ← Int.natCast_ceil_eq_ceil hx, Int.natAbs_natCast]
  rw [hceil]
  exact eq_of_forall_ge_iff fun n => Nat.ceil_le.trans (h n)

theorem natCast_le_sqrt_iff {n v : ℕ} : (n : ℝ) ≤ √(v : ℝ) ↔ n ≤ isqrt v := by
  rw [le_isqrt_iff, Real.le_sqrt n.cast_nonneg v.cast_nonneg, sq]
  norm_cast

theorem sqrt_le_natCast_iff {n v : ℕ} : √(v : ℝ) ≤ n ↔ csqrt v ≤ n := by
  rw [csqrt_le_iff, Real.sqrt_le_left n.cast_nonneg, sq]
  norm_cast

theorem natCast_le_sqrt_add_natCast_iff {n m v : ℕ} : (n : ℝ) ≤ √(v : ℝ) + m ↔ n ≤ isqrt v + m := by
  rcases le_total m n with h | h
  · rw [← sub_le_iff_le_add, ← Nat.cast_sub h, natCast_le_sqrt_iff, Nat.sub_le_iff_le_add]
  · have hroot := Real.sqrt_nonneg (v : ℝ)
    have h' : (n : ℝ) ≤ m := Nat.cast_le.mpr h
    exact iff_of_true (by linarith) (by omega)

theorem sqrt_add_natCast_le_iff {n m v : ℕ} : √(v : ℝ) + m ≤ n ↔ csqrt v + m ≤ n := by
  rcases le_or_gt m n with h | h
  · rw [← le_sub_iff_add_le, ← Nat.cast_sub h, sqrt_le_natCast_iff, Nat.le_sub_iff_add_le h]
  · have hroot := Real.sqrt_nonneg (v : ℝ)
    have h' : (n : ℝ) < m := Nat.cast_lt.mpr h
    exact iff_of_false (by linarith) (by omega)

/-! ### Sums and differences of two square roots -/

/-- The mixed term of `(√a ± √b)²` as one square root. -/
theorem two_mul_sqrt_mul_sqrt (a b : ℕ) : 2 * √(a : ℝ) * √(b : ℝ) = √((4 * a * b : ℕ) : ℝ) := by
  have hfour : √(4 : ℝ) = 2 := by rw [show (4 : ℝ) = 2 ^ 2 by norm_num, Real.sqrt_sq zero_le_two]
  push_cast
  rw [mul_assoc 4, Real.sqrt_mul (by norm_num), Real.sqrt_mul a.cast_nonneg, hfour, mul_assoc]

theorem sqrt_add_sqrt_sq (a b : ℕ) : (√(a : ℝ) + √(b : ℝ)) ^ 2 = √((4 * a * b : ℕ) : ℝ) + (a + b : ℕ) := by
  rw [add_sq, two_mul_sqrt_mul_sqrt, Real.sq_sqrt a.cast_nonneg, Real.sq_sqrt b.cast_nonneg, Nat.cast_add]
  ring

theorem sqrt_sub_sqrt_sq (a b : ℕ) : (√(a : ℝ) - √(b : ℝ)) ^ 2 = (a + b : ℕ) - √((4 * a * b : ℕ) : ℝ) := by
  rw [sub_sq, two_mul_sqrt_mul_sqrt, Real.sq_sqrt a.cast_nonneg, Real.sq_sqrt b.cast_nonneg, Nat.cast_add]
  ring

theorem natCast_mul_sq (n d : ℕ) : ((n : ℝ) * d) ^ 2 = (n * n * (d * d) : ℕ) := by
  push_cast
  ring

/-- `floor((√a + √b) / √d)` in whole numbers. -/
theorem natAbs_floor_sqrt_add_sqrt_div (a b : ℕ) {d : ℕ} (hd : 0 < d) :
    ⌊(√(a : ℝ) + √(b : ℝ)) / √(d : ℝ)⌋.natAbs = isqrt ((a + b + isqrt (4 * a * b)) / d) := by
  have hroot : (0 : ℝ) < √(d : ℝ) := Real.sqrt_pos.mpr (Nat.cast_pos.mpr hd)
  have hsq (n : ℕ) : ((n : ℝ) * √(d : ℝ)) ^ 2 = (n * n * d : ℕ) := by
    rw [mul_pow, Real.sq_sqrt d.cast_nonneg, sq]
    push_cast
    rfl
  refine natAbs_floor_eq fun n => ?_
  calc (n : ℝ) ≤ (√(a : ℝ) + √(b : ℝ)) / √(d : ℝ)
      ↔ n * √(d : ℝ) ≤ √(a : ℝ) + √(b : ℝ) := le_div_iff₀ hroot
    _ ↔ (n * √(d : ℝ)) ^ 2 ≤ (√(a : ℝ) + √(b : ℝ)) ^ 2 := (sq_le_sq₀ (by positivity) (by positivity)).symm
    _ ↔ n * n * d ≤ isqrt (4 * a * b) + (a + b) := by
      rw [hsq, sqrt_add_sqrt_sq, natCast_le_sqrt_add_natCast_iff]
    _ ↔ n ≤ isqrt ((a + b + isqrt (4 * a * b)) / d) := by
      rw [le_isqrt_iff, Nat.le_div_iff_mul_le hd, add_comm (a + b)]

/-- `floor((√a - √b) / d)` in whole numbers, where it is not negative. -/
theorem natAbs_floor_sqrt_sub_sqrt_div {a b d : ℕ} (hd : 0 < d) (hba : b ≤ a) :
    ⌊(√(a : ℝ) - √(b : ℝ)) / d⌋.natAbs = isqrt ((a + b - csqrt (4 * a * b)) / (d * d)) := by
  have hsub : 0 ≤ √(a : ℝ) - √(b : ℝ) := sub_nonneg.mpr (Real.sqrt_le_sqrt (Nat.cast_le.mpr hba))
  have hmixed : csqrt (4 * a * b) ≤ a + b :=
    sqrt_le_natCast_iff.mp (sub_nonneg.mp (sqrt_sub_sqrt_sq a b ▸ sq_nonneg _))
  refine natAbs_floor_eq fun n => ?_
  calc (n : ℝ) ≤ (√(a : ℝ) - √(b : ℝ)) / d
      ↔ n * d ≤ √(a : ℝ) - √(b : ℝ) := le_div_iff₀ (Nat.cast_pos.mpr hd)
    _ ↔ ((n : ℝ) * d) ^ 2 ≤ (√(a : ℝ) - √(b : ℝ)) ^ 2 := (sq_le_sq₀ (by positivity) hsub).symm
    _ ↔ csqrt (4 * a * b) + n * n * (d * d) ≤ a + b := by
      rw [natCast_mul_sq, sqrt_sub_sqrt_sq, le_sub_comm, le_sub_iff_add_le, sqrt_add_natCast_le_iff]
    _ ↔ n ≤ isqrt ((a + b - csqrt (4 * a * b)) / (d * d)) := by
      rw [le_isqrt_iff, Nat.le_div_iff_mul_le (Nat.mul_pos hd hd), Nat.le_sub_iff_add_le' hmixed]

/-- `abs(floor((√a - √b) / d))` in whole numbers, where the quotient is negative. -/
theorem natAbs_floor_neg_sqrt_sub_sqrt_div {a b d : ℕ} (hd : 0 < d) (hab : a ≤ b) :
    ⌊-((√(b : ℝ) - √(a : ℝ)) / d)⌋.natAbs = csqrt ((a + b - isqrt (4 * a * b) + d * d - 1) / (d * d)) := by
  have hsub : 0 ≤ √(b : ℝ) - √(a : ℝ) := sub_nonneg.mpr (Real.sqrt_le_sqrt (Nat.cast_le.mpr hab))
  refine natAbs_floor_neg_eq (by positivity) fun n => ?_
  calc (√(b : ℝ) - √(a : ℝ)) / d ≤ n
      ↔ √(b : ℝ) - √(a : ℝ) ≤ n * d := div_le_iff₀ (Nat.cast_pos.mpr hd)
    _ ↔ (√(b : ℝ) - √(a : ℝ)) ^ 2 ≤ ((n : ℝ) * d) ^ 2 := (sq_le_sq₀ hsub (by positivity)).symm
    _ ↔ a + b ≤ isqrt (4 * a * b) + n * n * (d * d) := by
      rw [sub_sq_comm, natCast_mul_sq, sqrt_sub_sqrt_sq, sub_le_iff_le_add', natCast_le_sqrt_add_natCast_iff]
    _ ↔ csqrt ((a + b - isqrt (4 * a * b) + d * d - 1) / (d * d)) ≤ n := by
      rw [csqrt_le_iff, ← Nat.ceilDiv_eq_add_pred_div, ceilDiv_le_iff_le_mul (Nat.mul_pos hd hd), Nat.sub_le_iff_le_add',
        mul_comm (d * d)]

/-- `absFloorDiff` is the absolute value of the floor of `(√a - √b) / d`, of either sign. -/
theorem absFloorDiff_eq (a b : ℕ) {d : ℕ} (hd : 0 < d) :
    absFloorDiff a b d = ⌊(√(a : ℝ) - √(b : ℝ)) / d⌋.natAbs := by
  unfold absFloorDiff
  split
  · next hba => exact (natAbs_floor_sqrt_sub_sqrt_div hd hba).symm
  · next hba => rw [← natAbs_floor_neg_sqrt_sub_sqrt_div hd (le_of_not_ge hba), ← neg_div, neg_sub]

/-- `floor(√a / √b)` in whole numbers. -/
theorem natAbs_floor_sqrt_div_sqrt (a : ℕ) {b : ℕ} (hb : 0 < b) : ⌊√(a : ℝ) / √(b : ℝ)⌋.natAbs = isqrt (a / b) := by
  simpa [isqrt_eq_sqrt] using natAbs_floor_sqrt_add_sqrt_div a 0 hb

/-! ### A pair of square roots of rationals -/

theorem natCast_mul_sqrt (p v : ℕ) : (p : ℝ) * √(v : ℝ) = √((p * p * v : ℕ) : ℝ) := by
  push_cast
  rw [Real.sqrt_mul (by positivity), Real.sqrt_mul_self p.cast_nonneg]

theorem TrigValue.s_roots_eq (t : Trig) : (TrigValue.roots t).s = √(t.sSq : ℝ) / √(trigDen t : ℝ) :=
  Real.sqrt_div t.sSq.cast_nonneg _

theorem TrigValue.c_roots_eq (t : Trig) : (TrigValue.roots t).c = √(t.cSq : ℝ) / √(trigDen t : ℝ) :=
  Real.sqrt_div t.cSq.cast_nonneg _

theorem floorMix_eq (p q : ℕ) (t : Trig) :
    floorMix p q t = ⌊(p : ℝ) * (TrigValue.roots t).c + q * (TrigValue.roots t).s⌋.natAbs := by
  have hmix : (p : ℝ) * (TrigValue.roots t).c + q * (TrigValue.roots t).s
      = (√((p * p * t.cSq : ℕ) : ℝ) + √((q * q * t.sSq : ℕ) : ℝ)) / √(trigDen t : ℝ) := by
    rw [TrigValue.c_roots_eq, TrigValue.s_roots_eq, ← natCast_mul_sqrt, ← natCast_mul_sqrt]
    ring
  rw [hmix, natAbs_floor_sqrt_add_sqrt_div _ _ (trigDen_pos t), floorMix]

theorem halfOver_eq (short : ℕ) {rSq den : ℕ} (hr : 0 < rSq) :
    halfOver short rSq den = ⌊(short : ℝ) / 2 / (√(rSq : ℝ) / √(den : ℝ))⌋.natAbs := by
  have hhalf : (short : ℝ) / 2 / (√(rSq : ℝ) / √(den : ℝ))
      = √((short * short * den : ℕ) : ℝ) / √((2 * 2 * rSq : ℕ) : ℝ) := by
    rw [← natCast_mul_sqrt, ← natCast_mul_sqrt, div_div_eq_mul_div, Nat.cast_ofNat]
    ring
  rw [hhalf, natAbs_floor_sqrt_div_sqrt _ (by omega), halfOver]

/-- `c*c - s*s` over the common denominator. -/
theorem roots_den_eq (t : Trig) :
    (TrigValue.roots t).c * (TrigValue.roots t).c - (TrigValue.roots t).s * (TrigValue.roots t).s
      = ((t.cSq : ℝ) - t.sSq) / trigDen t := by
  rw [TrigValue.c_roots, TrigValue.s_roots, Real.mul_self_sqrt (by positivity), Real.mul_self_sqrt (by positivity), sub_div]

/-- The quotient of the second branch with `√den` cleared: a difference of two square roots over a whole number. -/
theorem roots_quotient_eq (p q : ℕ) (t : Trig) :
    ((p : ℝ) * (TrigValue.roots t).c - q * (TrigValue.roots t).s)
        / ((TrigValue.roots t).c * (TrigValue.roots t).c - (TrigValue.roots t).s * (TrigValue.roots t).s)
      = (√((p * p * t.cSq * trigDen t : ℕ) : ℝ) - √((q * q * t.sSq * trigDen t : ℕ) : ℝ)) / ((t.cSq : ℝ) - t.sSq) := by
  have hroot : (trigDen t : ℝ) / √(trigDen t : ℝ) = √(trigDen t : ℝ) := Real.div_sqrt
  rw [roots_den_eq, TrigValue.c_roots_eq, TrigValue.s_roots_eq, div_div_eq_mul_div, mul_assoc (p * p), mul_assoc (q * q),
    ← natCast_mul_sqrt, ← natCast_mul_sqrt, Nat.cast_mul, Nat.cast_mul, Real.sqrt_mul t.cSq.cast_nonneg,
    Real.sqrt_mul t.sSq.cast_nonneg]
  congr 1
  linear_combination ((p : ℝ) * √(t.cSq : ℝ) - q * √(t.sSq : ℝ)) * hroot

theorem quotientOverDen_eq (p q : ℕ) {t : Trig} (hne : t.cSq ≠ t.sSq) :
    quotientOverDen p q t
      = ⌊((p : ℝ) * (TrigValue.roots t).c - q * (TrigValue.roots t).s)
        / ((TrigValue.roots t).c * (TrigValue.roots t).c - (TrigValue.roots t).s * (TrigValue.roots t).s)⌋.natAbs := by
  rw [roots_quotient_eq]
  unfold quotientOverDen
  split
  · next hlt => rw [absFloorDiff_eq _ _ (Nat.sub_pos_of_lt hlt), Nat.cast_sub hlt.le]
  · next hlt =>
    have hgt : t.cSq < t.sSq := by omega
    rw [absFloorDiff_eq _ _ (Nat.sub_pos_of_lt hgt), Nat.cast_sub hgt.le, ← neg_sub (t.sSq : ℝ), div_neg, ← neg_div, neg_sub]

theorem sqrt_div_sqrt_trigDen_eq_zero_iff (v : ℕ) (t : Trig) : √(v : ℝ) / √(trigDen t : ℝ) = 0 ↔ v = 0 := by
  have hroot : √(trigDen t : ℝ) ≠ 0 := (Real.sqrt_pos.mpr (Nat.cast_pos.mpr (trigDen_pos t))).ne'
  rw [div_eq_zero_iff, or_iff_left hroot, Real.sqrt_eq_zero v.cast_nonneg, Nat.cast_eq_zero]

theorem roots_s_eq_zero_iff (t : Trig) : (TrigValue.roots t).s = 0 ↔ t.sSq = 0 := by
  rw [TrigValue.s_roots_eq, sqrt_div_sqrt_trigDen_eq_zero_iff]

theorem roots_c_eq_zero_iff (t : Trig) : (TrigValue.roots t).c = 0 ↔ t.cSq = 0 := by
  rw [TrigValue.c_roots_eq, sqrt_div_sqrt_trigDen_eq_zero_iff]

/-- The test of the thin branch without a square root: both sides squared. -/
theorem short_le_iff (short long : ℕ) (t : Trig) :
    (short : ℝ) ≤ 2 * (TrigValue.roots t).s * (TrigValue.roots t).c * long
      ↔ short * trigDen t * (short * trigDen t) ≤ 4 * (long * long) * (t.sSq * t.cSq) := by
  have hd : (0 : ℝ) < trigDen t := Nat.cast_pos.mpr (trigDen_pos t)
  have hden := Real.mul_self_sqrt hd.le
  have hright : 2 * (TrigValue.roots t).s * (TrigValue.roots t).c * long
      = √((4 * (long * long) * (t.sSq * t.cSq) : ℕ) : ℝ) / trigDen t := by
    rw [show 4 * (long * long) * (t.sSq * t.cSq) = 2 * long * (2 * long) * (t.sSq * t.cSq) by ring, ← natCast_mul_sqrt,
      Nat.cast_mul t.sSq, Real.sqrt_mul t.sSq.cast_nonneg, TrigValue.s_roots_eq, TrigValue.c_roots_eq, mul_assoc 2,
      div_mul_div_comm, hden]
    push_cast
    ring
  rw [hright, le_div_iff₀ hd, ← Nat.cast_mul, natCast_le_sqrt_iff, le_isqrt_iff]

theorem thinRegime_iff (w h : ℕ) (t : Trig) :
    thinRegime w h t = true ↔ ThinReal w h (TrigValue.roots t).s (TrigValue.roots t).c := by
  have hd : (trigDen t : ℝ) ≠ 0 := Nat.cast_ne_zero.mpr (trigDen_pos t).ne'
  rw [thinRegime, ThinReal, short_le_iff, roots_den_eq, div_eq_zero_iff, or_iff_left hd, sub_eq_zero, Nat.cast_inj]
  simp

end Sys2Proof.Machine
end

section
/-! PROOFS. BBOX and IRECT at whatever pair `Trig` answers are the functions of R128 and R131 over the real numbers
(spec/43_geometry.md R126, R128, R131). -/

namespace Sys2Proof.Machine

/-! ### The branches of `irectReal` -/

section
variable {w h : ℕ} {s c : ℝ}

/-- The thin branch with a zero divisor. -/
theorem irectReal_of_zero (hthin : ThinReal w h s c) (hz : s = 0 ∨ c = 0) : irectReal w h s c = none := by
  rw [irectReal, if_pos hthin, if_pos hz]

theorem irectReal_of_thin_le (hthin : ThinReal w h s c) (hnz : ¬ (s = 0 ∨ c = 0)) (hle : h ≤ w) :
    irectReal w h s c
      = some (⌊((min w h : ℕ) : ℝ) / 2 / s⌋.natAbs, ⌊((min w h : ℕ) : ℝ) / 2 / c⌋.natAbs) := by
  rw [irectReal, if_pos hthin, if_neg hnz, if_pos hle]

theorem irectReal_of_thin_lt (hthin : ThinReal w h s c) (hnz : ¬ (s = 0 ∨ c = 0)) (hlt : w < h) :
    irectReal w h s c
      = some (⌊((min w h : ℕ) : ℝ) / 2 / c⌋.natAbs, ⌊((min w h : ℕ) : ℝ) / 2 / s⌋.natAbs) := by
  rw [irectReal, if_pos hthin, if_neg hnz, if_neg (not_le.mpr hlt)]

theorem irectReal_of_not_thin (hthin : ¬ ThinReal w h s c) :
    irectReal w h s c
      = some (⌊(w * c - h * s) / (c * c - s * s)⌋.natAbs, ⌊(h * c - w * s) / (c * c - s * s)⌋.natAbs) := by
  rw [irectReal, if_neg hthin]

end

/-! ### The commands' functions at any pair -/

theorem bbox_eq_bboxReal (w h : ℕ) (t : Trig) :
    bbox w h t = bboxReal w h (TrigValue.roots t).s (TrigValue.roots t).c := by
  rw [bbox, floorMix_eq, floorMix_eq, bboxReal, add_comm ((h : ℝ) * _)]

/-- The whole-number `irect` branch by branch. -/
theorem irect_eq_irectReal (w h : ℕ) (t : Trig) :
    irect w h t = irectReal w h (TrigValue.roots t).s (TrigValue.roots t).c := by
  have hzero : t.sSq = 0 ∨ t.cSq = 0 ↔ (TrigValue.roots t).s = 0 ∨ (TrigValue.roots t).c = 0 := by
    rw [roots_s_eq_zero_iff, roots_c_eq_zero_iff]
  unfold irect
  split
  · next hthin =>
    have hreal := (thinRegime_iff w h t).mp hthin
    split
    · next hz => exact (irectReal_of_zero hreal (hzero.mp hz)).symm
    · next hz =>
      have ⟨hs, hc⟩ := not_or.mp hz
      rw [halfOver_eq _ (Nat.pos_of_ne_zero hs), halfOver_eq _ (Nat.pos_of_ne_zero hc), ← TrigValue.s_roots_eq,
        ← TrigValue.c_roots_eq]
      split
      · next hle => exact (irectReal_of_thin_le hreal (hz ∘ hzero.mpr) hle).symm
      · next hle => exact (irectReal_of_thin_lt hreal (hz ∘ hzero.mpr) (not_le.mp hle)).symm
  · next hthin =>
    have hne : t.cSq ≠ t.sSq := fun heq => hthin (by simp [thinRegime, heq])
    rw [quotientOverDen_eq _ _ hne, quotientOverDen_eq _ _ hne,
      irectReal_of_not_thin (fun hreal => hthin ((thinRegime_iff w h t).mpr hreal))]

/-- BBOX's results are a function of the pair alone. -/
theorem TrigValue.bbox_eq_bboxReal (w h : ℕ) (v : TrigValue) : v.bbox w h = bboxReal w h v.s v.c := by
  cases v with
  | roots t => exact Machine.bbox_eq_bboxReal w h t
  | ofAngle a e => exact bbox_ofAngle w h a e
  | ofPair s c e => exact bbox_ofPair w h s c e

/-- IRECT's results are a function of the pair alone. -/
theorem TrigValue.irect_eq_irectReal (w h : ℕ) (v : TrigValue) : v.irect w h = irectReal w h v.s v.c := by
  cases v with
  | roots t => exact Machine.irect_eq_irectReal w h t
  | ofAngle a e => exact irect_ofAngle w h a e
  | ofPair s c e => exact irect_ofPair w h s c e

/-- Settles O56. -/
theorem bboxIsTheExactFloor : Obligations.BboxIsTheExactFloor := by
  intro p w h a
  exact TrigValue.bbox_eq_bboxReal w h (trigOf p a)

end Sys2Proof.Machine
end

section
/-! PROOFS. The reference `Trig` is the exact absolute sine and cosine, in every form in which an angle is written
(spec/43_geometry.md R126). -/

namespace Sys2Proof.Machine

/-- The squares of the pair `t` are those of the sine and cosine of `x`. -/
def SquaresAt (t : Trig) (x : ℝ) : Prop :=
  Real.sin x ^ 2 = t.sSq / trigDen t ∧ Real.cos x ^ 2 = t.cSq / trigDen t

theorem SquaresAt.s_eq {t : Trig} {x : ℝ} (h : SquaresAt t x) : (TrigValue.roots t).s = |Real.sin x| := by
  rw [TrigValue.s_roots, ← h.1, Real.sqrt_sq_eq_abs]

theorem SquaresAt.c_eq {t : Trig} {x : ℝ} (h : SquaresAt t x) : (TrigValue.roots t).c = |Real.cos x| := by
  rw [TrigValue.c_roots, ← h.2, Real.sqrt_sq_eq_abs]

theorem SquaresAt.pi_sub {t : Trig} {x : ℝ} (h : SquaresAt t x) : SquaresAt t (Real.pi - x) := by
  rw [SquaresAt, Real.sin_pi_sub, Real.cos_pi_sub, neg_sq]
  exact h

theorem SquaresAt.add_int_mul_pi {t : Trig} {x : ℝ} (h : SquaresAt t x) (q : ℤ) :
    SquaresAt t (x + q * Real.pi) := by
  have hsign : ((-1 : ℝ) ^ q) ^ 2 = 1 := by rw [← zpow_natCast, zpow_comm]; simp
  rw [SquaresAt, Real.sin_add_int_mul_pi, Real.cos_add_int_mul_pi, mul_pow, mul_pow, hsign, one_mul, one_mul]
  exact h

theorem squaresAt_zero (d : ℕ) : SquaresAt ⟨0, d + 1, d⟩ 0 := by
  have hd : ((d : ℝ) + 1) ≠ 0 := by positivity
  simp [SquaresAt, trigDen, hd]

theorem squaresAt_pi_div_two (d : ℕ) : SquaresAt ⟨d + 1, 0, d⟩ (Real.pi / 2) := by
  have hd : ((d : ℝ) + 1) ≠ 0 := by positivity
  simp [SquaresAt, trigDen, hd]

theorem squaresAt_pi_div_six : SquaresAt ⟨1, 3, 3⟩ (Real.pi / 6) := by
  norm_num [SquaresAt, trigDen, div_pow]

theorem squaresAt_pi_div_three : SquaresAt ⟨3, 1, 3⟩ (Real.pi / 3) := by
  norm_num [SquaresAt, trigDen, div_pow]

theorem squaresAt_pi_div_four : SquaresAt ⟨1, 1, 1⟩ (Real.pi / 4) := by
  norm_num [SquaresAt, trigDen, div_pow]

/-- An angle that is a fraction `n / k` of `π`, as the remainder of `n` and a number of half turns. -/
theorem mul_pi_div_eq_emod_add (n : ℤ) {k : ℤ} (hk : k ≠ 0) :
    (n : ℝ) * Real.pi / k = ((n % k : ℤ) : ℝ) * Real.pi / k + ((n / k : ℤ) : ℝ) * Real.pi := by
  have hk' : (k : ℝ) ≠ 0 := Int.cast_ne_zero.mpr hk
  have hn : ((n % k : ℤ) : ℝ) + k * ((n / k : ℤ) : ℝ) = n := by exact_mod_cast Int.emod_add_mul_ediv n k
  rw [← hn]
  field_simp

theorem SquaresAt.congr {t t' : Trig} {x x' : ℝ} (h : SquaresAt t x) (ht : t' = t) (hx : x' = x) : SquaresAt t' x' := by
  rwa [ht, hx]

/-- The table of the multiples of `π/4`. -/
theorem squaresAt_quarters (n : ℤ) : SquaresAt (quartersTrig n) (n * Real.pi / 4) := by
  refine SquaresAt.congr (SquaresAt.add_int_mul_pi ?_ _) rfl (mod_cast mul_pi_div_eq_emod_add n (k := 4) (by decide))
  have hr : n % 4 = 0 ∨ n % 4 = 1 ∨ n % 4 = 2 ∨ n % 4 = 3 := by omega
  rcases hr with h | h | h | h
  · exact (squaresAt_zero 1).congr (by rw [quartersTrig, h]; rfl) (by rw [h]; push_cast; ring)
  · exact squaresAt_pi_div_four.congr (by rw [quartersTrig, h]; rfl) (by rw [h]; push_cast; ring)
  · exact (squaresAt_pi_div_two 1).congr (by rw [quartersTrig, h]; rfl) (by rw [h]; push_cast; ring)
  · exact squaresAt_pi_div_four.pi_sub.congr (by rw [quartersTrig, h]; rfl) (by rw [h]; push_cast; ring)

/-- The table of the multiples of `π/6`. -/
theorem squaresAt_sixths (n : ℤ) : SquaresAt (sixthsTrig n) (n * Real.pi / 6) := by
  refine SquaresAt.congr (SquaresAt.add_int_mul_pi ?_ _) rfl (mod_cast mul_pi_div_eq_emod_add n (k := 6) (by decide))
  have hr : n % 6 = 0 ∨ n % 6 = 1 ∨ n % 6 = 2 ∨ n % 6 = 3 ∨ n % 6 = 4 ∨ n % 6 = 5 := by omega
  rcases hr with h | h | h | h | h | h
  · exact (squaresAt_zero 3).congr (by rw [sixthsTrig, h]; rfl) (by rw [h]; push_cast; ring)
  · exact squaresAt_pi_div_six.congr (by rw [sixthsTrig, h]; rfl) (by rw [h]; push_cast; ring)
  · exact squaresAt_pi_div_three.congr (by rw [sixthsTrig, h]; rfl) (by rw [h]; push_cast; ring)
  · exact (squaresAt_pi_div_two 3).congr (by rw [sixthsTrig, h]; rfl) (by rw [h]; push_cast; ring)
  · exact squaresAt_pi_div_three.pi_sub.congr (by rw [sixthsTrig, h]; rfl) (by rw [h]; push_cast; ring)
  · exact squaresAt_pi_div_six.pi_sub.congr (by rw [sixthsTrig, h]; rfl) (by rw [h]; push_cast; ring)

/-- The reference `Trig`, in every form in which a real number of radians is written (R126). -/
theorem trigOf_reference_eq {a : Angle} {x : ℝ} (e : ExactArithmetic) (h : radiansOf a = some x) :
    (trigOf (.reference e) a).s = |Real.sin x| ∧ (trigOf (.reference e) a).c = |Real.cos x| := by
  rcases trigOf_reference e h with ⟨n, rfl, ht⟩ | ⟨n, rfl, ht⟩ | ht
  · obtain rfl : n * Real.pi / 6 = x := Option.some.inj h
    rw [ht]
    exact ⟨(squaresAt_sixths n).s_eq, (squaresAt_sixths n).c_eq⟩
  · obtain rfl : n * Real.pi / 4 = x := Option.some.inj h
    rw [ht]
    exact ⟨(squaresAt_quarters n).s_eq, (squaresAt_quarters n).c_eq⟩
  · rw [ht, TrigValue.s_ofAngle, TrigValue.c_ofAngle, h]
    exact ⟨rfl, rfl⟩

/-- Settles O55: `Trig` case by case over the written forms, and the results as functions of the pair. -/
theorem trigIsTheExactSineAndCosine : Obligations.TrigIsTheExactSineAndCosine := by
  refine ⟨fun e a x hx => ?_, fun p q a b w h hs hc => ?_⟩
  · obtain ⟨hs, hc⟩ := trigOf_reference_eq e hx
    rw [trigUnit, sinOf, cosOf, hs, hc, abs_mul_abs_self, abs_mul_abs_self, ← sq, ← sq]
    exact ⟨rfl, rfl, abs_nonneg _, Real.abs_sin_le_one x, abs_nonneg _, Real.abs_cos_le_one x, Real.sin_sq_add_cos_sq x⟩
  · rw [sinOf, sinOf] at hs
    rw [cosOf, cosOf] at hc
    rw [TrigValue.bbox_eq_bboxReal, TrigValue.bbox_eq_bboxReal, TrigValue.irect_eq_irectReal,
      TrigValue.irect_eq_irectReal, hs, hc]
    exact ⟨rfl, rfl⟩

end Sys2Proof.Machine
end

section
/-! PROOFS. What follows for BBOX and IRECT under the reference `Trig`: the symmetries of R127 and the values of R137
(spec/43_geometry.md). -/

namespace Sys2Proof.Machine

/-! ### The results under the reference `Trig` -/

theorem bbox_reference {a : Angle} {x : ℝ} (e : ExactArithmetic) (hx : radiansOf a = some x) (w h : ℕ) :
    (trigOf (.reference e) a).bbox w h = bboxReal w h |Real.sin x| |Real.cos x| := by
  obtain ⟨hs, hc⟩ := trigOf_reference_eq e hx
  rw [TrigValue.bbox_eq_bboxReal, hs, hc]

theorem irect_reference {a : Angle} {x : ℝ} (e : ExactArithmetic) (hx : radiansOf a = some x) (w h : ℕ) :
    (trigOf (.reference e) a).irect w h = irectReal w h |Real.sin x| |Real.cos x| := by
  obtain ⟨hs, hc⟩ := trigOf_reference_eq e hx
  rw [TrigValue.irect_eq_irectReal, hs, hc]

/-! ### Exchanging `s` with `c`, and `W` with `H` -/

section
variable {w h : ℕ} {s c : ℝ}

theorem bboxReal_exchange_pair : bboxReal w h c s = (bboxReal w h s c).swap := rfl

theorem bboxReal_exchange_both : bboxReal h w c s = bboxReal w h s c := by
  rw [bboxReal, bboxReal, add_comm ((h : ℝ) * s), add_comm ((h : ℝ) * c)]

theorem thinReal_exchange_pair : ThinReal w h c s ↔ ThinReal w h s c := by
  rw [ThinReal, ThinReal, mul_right_comm 2 c s, sub_eq_zero, sub_eq_zero, eq_comm (a := s * s)]

theorem thinReal_exchange_both : ThinReal h w c s ↔ ThinReal w h s c := by
  rw [← thinReal_exchange_pair, ThinReal, ThinReal, min_comm, max_comm]

/-- The quotient of the second branch does not change with the signs of both of its terms. -/
theorem quotient_exchange (x y : ℝ) : (x - y) / (s * s - c * c) = (y - x) / (c * c - s * s) := by
  rw [← neg_sub y x, ← neg_sub (c * c), neg_div_neg_eq]

theorem irectReal_exchange_pair : irectReal w h c s = (irectReal w h s c).map Prod.swap := by
  by_cases hthin : ThinReal w h s c
  · have hthin' := thinReal_exchange_pair.mpr hthin
    by_cases hz : s = 0 ∨ c = 0
    · rw [irectReal_of_zero hthin hz, irectReal_of_zero hthin' hz.symm]
      rfl
    · rcases le_or_gt h w with hle | hlt
      · rw [irectReal_of_thin_le hthin hz hle, irectReal_of_thin_le hthin' (hz ∘ Or.symm) hle]
        rfl
      · rw [irectReal_of_thin_lt hthin hz hlt, irectReal_of_thin_lt hthin' (hz ∘ Or.symm) hlt]
        rfl
  · rw [irectReal_of_not_thin hthin, irectReal_of_not_thin (hthin ∘ thinReal_exchange_pair.mp),
      quotient_exchange ((w : ℝ) * s), quotient_exchange ((h : ℝ) * s)]
    rfl

/-- A square on the unit circle is in the thin branch at `s = c` only. -/
theorem eq_of_thinReal_square (hw : 1 ≤ w) (hunit : s * s + c * c = 1) (hthin : ThinReal w w s c) (hs : 0 ≤ s) (hc : 0 ≤ c) :
    s = c := by
  have hw' : (0 : ℝ) < w := Nat.cast_pos.mpr hw
  rw [ThinReal, min_self, max_self] at hthin
  rcases hthin with hshort | hden
  · have hprod : 1 ≤ 2 * s * c := by nlinarith only [hshort, hw']
    have hsq : (s - c) ^ 2 ≤ 0 := by nlinarith only [hprod, hunit]
    exact sub_eq_zero.mp (pow_eq_zero_iff two_ne_zero |>.mp (le_antisymm hsq (sq_nonneg _)))
  · nlinarith only [hden, hs, hc, hunit]

/-- The thin branch compares `h` with `w`: exchanging them exchanges the two cases but for a square, which `h <= w` takes both times;
there the two results are one, since `s = c`. -/
theorem irectReal_exchange_both (hw : 1 ≤ w) (hs : 0 ≤ s) (hc : 0 ≤ c) (hunit : s * s + c * c = 1) :
    irectReal h w c s = irectReal w h s c := by
  by_cases hthin : ThinReal w h s c
  · have hthin' := thinReal_exchange_both.mpr hthin
    by_cases hz : s = 0 ∨ c = 0
    · rw [irectReal_of_zero hthin hz, irectReal_of_zero hthin' hz.symm]
    · rcases lt_trichotomy h w with hlt | rfl | hlt
      · rw [irectReal_of_thin_le hthin hz hlt.le, irectReal_of_thin_lt hthin' (hz ∘ Or.symm) hlt, min_comm]
      · rw [eq_of_thinReal_square hw hunit hthin hs hc]
      · rw [irectReal_of_thin_lt hthin hz hlt, irectReal_of_thin_le hthin' (hz ∘ Or.symm) hlt.le, min_comm]
  · rw [irectReal_of_not_thin hthin, irectReal_of_not_thin (hthin ∘ thinReal_exchange_both.mp),
      quotient_exchange ((h : ℝ) * s), quotient_exchange ((w : ℝ) * s)]

end

/-! ### The symmetries -/

theorem abs_sin_cos_of_symmetric {x y : ℝ} (h : y = x ∨ y = -x ∨ y = x + Real.pi ∨ y = Real.pi - x) :
    |Real.sin y| = |Real.sin x| ∧ |Real.cos y| = |Real.cos x| := by
  rcases h with rfl | rfl | rfl | rfl
  · exact ⟨rfl, rfl⟩
  · rw [Real.sin_neg, Real.cos_neg, abs_neg]; exact ⟨rfl, rfl⟩
  · rw [Real.sin_add_pi, Real.cos_add_pi, abs_neg, abs_neg]; exact ⟨rfl, rfl⟩
  · rw [Real.sin_pi_sub, Real.cos_pi_sub, abs_neg]; exact ⟨rfl, rfl⟩

theorem abs_sin_cos_of_complementary {x y : ℝ} (h : y = Real.pi / 2 - x ∨ y = Real.pi / 2 + x) :
    |Real.sin y| = |Real.cos x| ∧ |Real.cos y| = |Real.sin x| := by
  rcases h with rfl | rfl
  · rw [Real.sin_pi_div_two_sub, Real.cos_pi_div_two_sub]; exact ⟨rfl, rfl⟩
  · rw [add_comm, Real.sin_add_pi_div_two, Real.cos_add_pi_div_two, abs_neg]; exact ⟨rfl, rfl⟩

/-- Settles O58: the pair at the other angle is the same or exchanged. -/
theorem angleSymmetries : Obligations.AngleSymmetries := by
  intro e w h a b x y hw _ hx hy u v
  rw [bbox_reference e hx, bbox_reference e hy, bbox_reference e hy, irect_reference e hx, irect_reference e hy,
    irect_reference e hy]
  refine ⟨fun hsym => ?_, fun hcomp => ?_⟩
  · obtain ⟨hs, hc⟩ := abs_sin_cos_of_symmetric hsym
    rw [hs, hc]
    exact ⟨rfl, rfl⟩
  · obtain ⟨hs, hc⟩ := abs_sin_cos_of_complementary hcomp
    have hunit : |Real.sin x| * |Real.sin x| + |Real.cos x| * |Real.cos x| = 1 := by
      rw [abs_mul_abs_self, abs_mul_abs_self, ← sq, ← sq, Real.sin_sq_add_cos_sq]
    rw [hs, hc]
    exact ⟨bboxReal_exchange_pair, irectReal_exchange_pair, bboxReal_exchange_both,
      irectReal_exchange_both hw (abs_nonneg _) (abs_nonneg _) hunit⟩

/-! ### The values at 0, `π/2` and `π/4` -/

section
variable {w h : ℕ}

theorem bboxReal_zero_one : bboxReal w h 0 1 = (w, h) := by
  simp [bboxReal]

/-- Not rotated, a source with an area is not thin. -/
theorem irectReal_zero_one (hw : 1 ≤ w) (hh : 1 ≤ h) : irectReal w h 0 1 = some (w, h) := by
  have hthin : ¬ ThinReal w h 0 1 := by
    have hshort : (0 : ℝ) < (min w h : ℕ) := Nat.cast_pos.mpr (lt_min hw hh)
    rw [ThinReal, mul_zero, zero_mul, zero_mul]
    exact not_or.mpr ⟨not_le.mpr hshort, by norm_num⟩
  rw [irectReal_of_not_thin hthin]
  simp

end

/-- `floor(n * √2)` by the squares between which `2 * n * n` stands. -/
theorem natAbs_floor_mul_sqrt_two {n m : ℕ} (hle : m * m ≤ n * n * 2) (hlt : n * n * 2 < (m + 1) * (m + 1)) :
    ⌊(n : ℝ) * √2⌋.natAbs = m := by
  have hroot : (n : ℝ) * √2 = √((n * n * 2 : ℕ) : ℝ) := natCast_mul_sqrt n 2
  rw [hroot, natAbs_floor_eq fun _ => natCast_le_sqrt_iff, isqrt_eq_sqrt]
  exact (Nat.eq_sqrt.mpr ⟨hle, hlt⟩).symm

/-- `100 * √2 = 141.42...` -/
theorem bboxReal_square_quarter : bboxReal 100 100 (√2 / 2) (√2 / 2) = (141, 141) := by
  have hsum : ((100 : ℕ) : ℝ) * (√2 / 2) + (100 : ℕ) * (√2 / 2) = (100 : ℕ) * √2 := by ring
  rw [bboxReal, hsum, natAbs_floor_mul_sqrt_two (m := 141) (by decide) (by decide)]

/-- `50 * √2 = 70.71...` -/
theorem irectReal_square_quarter : irectReal 100 100 (√2 / 2) (√2 / 2) = some (70, 70) := by
  have hroot : (2 : ℝ) / √2 = √2 := Real.div_sqrt
  have hhalf : ((min 100 100 : ℕ) : ℝ) / 2 / (√2 / 2) = (50 : ℕ) * √2 := by
    rw [min_self]
    push_cast
    linear_combination 50 * hroot
  have hpos : √(2 : ℝ) / 2 ≠ 0 := by positivity
  rw [irectReal_of_thin_le (.inr (sub_self _)) (not_or.mpr ⟨hpos, hpos⟩) le_rfl, hhalf,
    natAbs_floor_mul_sqrt_two (m := 70) (by decide) (by decide)]

/-- Settles O59. -/
theorem geometryAtZeroQuarterAndHalf : Obligations.GeometryAtZeroQuarterAndHalf := by
  intro e a u
  refine ⟨fun w h hw hh => ⟨fun hx => ?_, fun hx => ?_⟩, fun hx => ?_⟩
  · rw [bbox_reference e hx, irect_reference e hx, Real.sin_zero, Real.cos_zero, abs_zero, abs_one]
    exact ⟨bboxReal_zero_one, irectReal_zero_one hw hh⟩
  · rw [bbox_reference e hx, irect_reference e hx, Real.sin_pi_div_two, Real.cos_pi_div_two, abs_zero, abs_one,
      bboxReal_exchange_pair, irectReal_exchange_pair, bboxReal_zero_one, irectReal_zero_one hw hh]
    exact ⟨rfl, rfl⟩
  · have hpos : 0 ≤ √(2 : ℝ) / 2 := by positivity
    rw [bbox_reference e hx, irect_reference e hx, Real.sin_pi_div_four, Real.cos_pi_div_four, abs_of_nonneg hpos]
    exact ⟨irectReal_square_quarter, bboxReal_square_quarter⟩

end Sys2Proof.Machine
end

section
/-! PROOFS. What one step of the sequencer leads to: the end of the running operation, or the same operation running on
(spec/44_control.md R147). -/

namespace Sys2Proof.Machine

/-! ### One sequencer step -/

/-- The operation that ran has ended, with or without an error: both `finish()` and `raise` set `DONE`. -/
def State.ended (s : State) : Prop :=
  s.st = .idle ∧ s.done = true

theorem ended_finish (s : State) : s.finish.ended := ⟨finish_st s, finish_done s⟩

theorem ended_failDec (s : State) (c : ErrorCause) : (s.failDec c).ended := ⟨failDec_st s c, failDec_done s c⟩

theorem ended_scanEnd (store : Bool) (s : State) : (s.scanEnd store).ended := by
  cases store <;> exact ended_finish _

theorem ended_decEnd (s : State) : s.decEnd.ended := by
  unfold State.decEnd
  split
  · split
    · exact ended_finish _
    · exact ended_failDec _ _
  · exact ended_failDec _ _

theorem scanSample_frame (store : Bool) (s : State) : sameButScan s (s.scanSample store) := by
  rw [scanSample_eq]
  exact (takeSample_frame store s).trans (closeChunk_frame _)

theorem expandRun_frame (s : State) (run : Nat) (value : Nibble) : sameButDec s (s.expandRun run value) := by
  rw [expandRun_eq]
  exact (placeRun_frame s run value).trans (sameButDec_closeChunk _)

theorem expandRun_k (s : State) (run : Nat) (value : Nibble) : (s.expandRun run value).k = s.k + 1 := by
  rw [expandRun_eq, closeChunk_k]
  rfl

/-- The DEC step ends the operation, or it consumes the byte at `k`, of which there is one (R114). -/
theorem decNext_cases (s : State) :
    s.decNext.ended
      ∨ s.k ≠ s.alen ∧ s.decNext = s.expandRun (runLengthOf s.fetchRunByte) (runValueOf s.fetchRunByte) := by
  unfold State.decNext
  split
  · exact .inl (ended_decEnd s)
  · next hend =>
    split
    · exact .inl (ended_failDec s _)
    · exact .inr ⟨((decAtEnd_eq_false_iff s).mp (Bool.eq_false_iff.mpr hend)).2, rfl⟩

/-- A sequencer step always has a next state: the operation ends there, or the sequencer's state is as before. -/
theorem sequencerStep_cases (s : State) : ∃ t, sequencerStep s = .next t ∧ (t.ended ∨ t.st = s.st) := by
  cases hst : s.st with
  | idle => exact ⟨s, sequencerStep_idle hst, .inr hst⟩
  | quantRun =>
    refine ⟨quantStep s, sequencerStep_quant hst, ?_⟩
    by_cases hend : s.i.toNat = s.size
    · rw [quantStep_of_end hend]
      exact .inl (ended_finish _)
    · rw [quantStep_of_sample hend]
      exact .inr hst
  | encRun =>
    refine ⟨encStep s, sequencerStep_enc hst, ?_⟩
    unfold encStep
    split
    · exact .inl (ended_finish _)
    · exact .inr ((scanSample_frame true s).st.trans hst)
  | countRun =>
    refine ⟨countStep s, sequencerStep_count hst, ?_⟩
    unfold countStep
    split
    · exact .inl (ended_finish _)
    · exact .inr ((scanSample_frame false s).st.trans hst)
  | decRun =>
    refine ⟨s.decNext, sequencerStep_decRun hst, ?_⟩
    obtain hended | ⟨-, hnext⟩ := decNext_cases s
    · exact .inl hended
    · rw [hnext]
      exact .inr ((expandRun_frame s _ _).st.trans hst)

end Sys2Proof.Machine
end

section
/-! PROOFS. A running operation ends: each counts down to its end, QUANT and the scan of ENC and COUNT the samples left, DEC the
bytes left (spec/44_control.md R147, spec/70_reset_and_hazards.md R185). -/

namespace Sys2Proof.Machine

/-! ### Counting down -/

/-- When each step ends the operation or counts `m` down by one, the operation ends after at most `m + 1` steps. -/
theorem ends_of_countdown {P : Nat → State → Prop}
    (hstep : ∀ m s, P m s → ∃ t, step s = .next t ∧ (t.ended ∨ ∃ j, m = j + 1 ∧ P j t)) {m : Nat} {s : State}
    (h : P m s) : ∃ count t, count ≤ m + 1 ∧ Reaches count s t ∧ t.ended := by
  induction m generalizing s with
  | zero =>
    obtain ⟨t, ht, hended | ⟨j, hj, -⟩⟩ := hstep 0 s h
    · exact ⟨1, t, le_rfl, reaches_succ ht rfl, hended⟩
    · cases hj
  | succ m ih =>
    obtain ⟨t, ht, hended | ⟨j, hj, hP⟩⟩ := hstep (m + 1) s h
    · exact ⟨1, t, by omega, reaches_succ ht rfl, hended⟩
    · obtain rfl : m = j := Nat.succ.inj hj
      obtain ⟨count, u, hcount, hreach, hended⟩ := ih hP
      exact ⟨count + 1, u, Nat.succ_le_succ hcount, reaches_succ ht hreach, hended⟩

/-- QUANT runs alone, with `m` samples left. -/
structure QuantLeft (m : Nat) (s : State) : Prop where
  st : s.st = .quantRun
  script : s.script = []
  left : s.i.toNat + m = s.size

/-- ENC (`store`) or COUNT runs alone, with `m` samples left. -/
structure ScanLeft (store : Bool) (m : Nat) (s : State) : Prop where
  st : s.st = scanSeq store
  script : s.script = []
  tilew : s.tilew ≠ 0
  ready : s.scanReady
  left : s.position + m = s.size

/-- DEC runs alone, with `m` bytes left. -/
structure DecLeft (m : Nat) (s : State) : Prop where
  st : s.st = .decRun
  script : s.script = []
  left : s.k.toNat + m = s.alen.toNat

theorem QuantLeft.step {m : Nat} {s : State} (h : QuantLeft m s) :
    ∃ t, step s = .next t ∧ (t.ended ∨ ∃ j, m = j + 1 ∧ QuantLeft j t) := by
  obtain ⟨hst, hs, hleft⟩ := h
  refine ⟨quantStep s, step_of_quantRun hst hs, ?_⟩
  by_cases hend : s.i.toNat = s.size
  · rw [quantStep_of_end hend]
    exact .inl (ended_finish _)
  · obtain ⟨j, rfl⟩ : ∃ j, m = j + 1 := ⟨m - 1, by omega⟩
    have hi : (s.i + 1).toNat = s.i.toNat + 1 := toNat_index_succ (by omega)
    rw [quantStep_of_sample hend]
    exact .inr ⟨j, rfl, hst, hs, by change (s.i + 1).toNat + j = s.size; omega⟩

theorem ScanLeft.step {store : Bool} {m : Nat} {s : State} (h : ScanLeft store m s) :
    ∃ t, step s = .next t ∧ (t.ended ∨ ∃ j, m = j + 1 ∧ ScanLeft store j t) := by
  obtain ⟨hst, hs, ht, hready, hleft⟩ := h
  refine ⟨_, step_of_scan hst hs, ?_⟩
  split
  · exact .inl (ended_scanEnd store s)
  · next hover =>
    obtain ⟨hrow, hx⟩ := hready.resolve_right fun h => hover h.1
    have hlt := position_lt_size hrow hx
    have hrow' := takeSample_inRow hrow hx store
    have hframe := scanSample_frame store s
    obtain ⟨j, rfl⟩ : ∃ j, m = j + 1 := ⟨m - 1, by omega⟩
    refine .inr ⟨j, rfl, hframe.st.trans hst, hframe.script.trans hs, by rwa [hframe.tilew], ?ready, ?left⟩
    case ready =>
      rw [scanSample_eq]
      exact scanReady_closeChunk hrow' (takeSample_run hrow hx store) (by rwa [takeSample_tilew])
    case left =>
      rw [hframe.size, scanSample_eq, position_closeChunk hrow', takeSample_position hrow hx]
      omega

theorem DecLeft.step {m : Nat} {s : State} (h : DecLeft m s) :
    ∃ t, step s = .next t ∧ (t.ended ∨ ∃ j, m = j + 1 ∧ DecLeft j t) := by
  obtain ⟨hst, hs, hleft⟩ := h
  refine ⟨s.decNext, step_of_decRun hst hs, ?_⟩
  obtain hended | ⟨hk, hnext⟩ := decNext_cases s
  · exact .inl hended
  · have hne : s.k.toNat ≠ s.alen.toNat := fun heq => hk (BitVec.eq_of_toNat_eq heq)
    have hframe := expandRun_frame s (runLengthOf s.fetchRunByte) (runValueOf s.fetchRunByte)
    obtain ⟨j, rfl⟩ : ∃ j, m = j + 1 := ⟨m - 1, by omega⟩
    rw [hnext]
    refine .inr ⟨j, rfl, hframe.st.trans hst, hframe.script.trans hs, ?_⟩
    rw [expandRun_k, toNat_k_succ_of_byte (by omega), hframe.alen]
    omega

/-! ### The invariant says what is left -/

/-- The cursors of the invariant stand on a sample of the open chunk, or behind the last sample with no run open. -/
theorem scanReady_of_scanOk {s : State} (h : s.scanOk) : s.scanReady ∧ s.position ≤ s.size := by
  obtain ⟨-, -, -, ⟨hy, hopen, hover⟩, hrl, hrlx, -, -⟩ := h
  cases hend : s.scanOver with
  | true =>
    have hx : s.x = 0 := hover (by simpa [State.scanOver] using hend)
    have hrl0 : s.rl = 0 := BitVec.eq_of_toNat_eq (by simpa [hx] using hrlx)
    refine ⟨.inr ⟨hend, hrl0⟩, ?_⟩
    rw [State.position, State.size, hx, Nat.mul_comm]
    exact Nat.mul_le_mul_left _ hy
  | false =>
    obtain ⟨hw, hne⟩ := (scanOver_eq_false_iff s).mp hend
    have hrow : s.y.toNat < s.h.toNat := lt_of_le_of_ne hy hne
    obtain ⟨hx, hcend, -⟩ := hopen (fun h0 => by simp [h0] at hw) hrow
    have hin : s.InRow := ⟨hrow, hx.le, hcend, hrl⟩
    exact ⟨.inl ⟨hin, hx⟩, (position_lt_size hin hx).le⟩

theorem scan_ends_of_scanOk {store : Bool} {s : State} (hst : s.st = scanSeq store) (hs : s.script = []) (h : s.scanOk) :
    ∃ count t, count ≤ s.size + 1 ∧ Reaches count s t ∧ t.ended := by
  obtain ⟨hready, hpos⟩ := scanReady_of_scanOk h
  obtain ⟨ht, -⟩ := h
  have hleft : ScanLeft store (s.size - s.position) s := ⟨hst, hs, ht, hready, by omega⟩
  obtain ⟨count, t, hcount, hrun⟩ := ends_of_countdown (fun _ _ => ScanLeft.step) hleft
  exact ⟨count, t, by omega, hrun⟩

/-- Settles O35: by the operation that runs, QUANT and the scans within `W*H + 1` steps, DEC within `ALEN + 1`. -/
theorem runningOperationEnds : Obligations.RunningOperationEnds := by
  intro s hinv hne hs
  obtain ⟨-, -, -, hquant, henc, hcount, hdec⟩ := hinv
  obtain ⟨count, t, hle, hreach, hidle, hdone⟩ :
      ∃ count t, count ≤ max s.size s.alen.toNat + 1 ∧ Reaches count s t ∧ t.ended := by
    cases hst : s.st with
    | idle => exact absurd hst hne
    | quantRun =>
      obtain ⟨-, -, -, -, -, hi⟩ := hquant hst
      have hleft : QuantLeft (s.size - s.i.toNat) s := ⟨hst, hs, by omega⟩
      obtain ⟨count, t, hle, hrun⟩ := ends_of_countdown (fun _ _ => QuantLeft.step) hleft
      exact ⟨count, t, by omega, hrun⟩
    | encRun =>
      obtain ⟨hscan, -⟩ := henc hst
      obtain ⟨count, t, hle, hrun⟩ := scan_ends_of_scanOk (store := true) hst hs hscan
      exact ⟨count, t, by omega, hrun⟩
    | countRun =>
      obtain ⟨hscan, -⟩ := hcount hst
      obtain ⟨count, t, hle, hrun⟩ := scan_ends_of_scanOk (store := false) hst hs hscan
      exact ⟨count, t, by omega, hrun⟩
    | decRun =>
      obtain ⟨-, -, -, -, -, -, -, hk, -⟩ := hdec hst
      have hleft : DecLeft (s.alen.toNat - s.k.toNat) s := ⟨hst, hs, by omega⟩
      obtain ⟨count, t, hle, hrun⟩ := ends_of_countdown (fun _ _ => DecLeft.step) hleft
      exact ⟨count, t, by omega, hrun⟩
  exact ⟨count, t, hle, hreach, hidle, hdone⟩

end Sys2Proof.Machine
end

section
/-! PROOFS. The commands as start rules (spec/44_control.md R140 to R145): each command byte is a start rule behind the busy test
and the common start actions. -/

namespace Sys2Proof.Machine

/-! ### The start rule of a command -/

/-- The start rule of each command (R140); a run byte is no command and has none. -/
def commandStart : Instr → State → Result
  | .clr => clrStart
  | .quant => quantStart
  | .enc => encStart
  | .dec => decStart
  | .count => countStart
  | .bbox => bboxStart
  | .irect => irectStart
  | .reserved07 | .reserved08 _ | .reserved10 _ | .reserved20 _ | .reserved40 _ | .reserved80 _ => reservedStart
  | .runByte _ _ => .next

theorem exec_eq_issue {i : Instr} (hi : i.isRunByte = false) (s : State) : exec i s = issue (commandStart i) s := by
  cases i with
  | runByte run value => cases hi
  | _ => rfl

theorem exec_of_idle {i : Instr} {s : State} (hi : i.isRunByte = false) (hst : s.st = .idle) :
    exec i s = commandStart i s.beginCommand := by
  rw [exec_eq_issue hi, issue_of_idle ((busy_eq_false_iff s).mpr hst)]

/-- A run byte read anywhere but in a running DEC does nothing (log 9). -/
theorem exec_runByte_of_idle {s : State} (hst : s.st = .idle) (run : Nat) (value : Nibble) :
    exec (.runByte run value) s = .next s := by
  have hne : s.st ≠ .decRun := by rw [hst]; nofun
  exact if_pos hne

/-! ### The obligations -/

/-- Settles O11: the busy test stands before every start rule. -/
theorem commandsAreIgnoredWhileBusy : Obligations.CommandsAreIgnoredWhileBusy := by
  intro i s hi hst
  rw [exec_eq_issue hi, issue_of_busy ((busy_iff s).mpr hst)]

/-- Settles O10: clearing the status twice is clearing it once. -/
theorem commandsDoNotSeeTheOldStatus : Obligations.CommandsDoNotSeeTheOldStatus := by
  intro i s hi hst
  calc exec i s = commandStart i s.beginCommand := exec_of_idle hi hst
    _ = commandStart i s.beginCommand.beginCommand := by rw [beginCommand_beginCommand]
    _ = exec i (statusCleared s) := (exec_of_idle (s := s.beginCommand) hi hst).symm

/-- Settles O8: CLR's next state is the one the common start actions leave. -/
theorem clrClearsStatusAndNothingElse : Obligations.ClrClearsStatusAndNothingElse := by
  intro s hst
  refine ⟨s.beginCommand, exec_of_idle rfl hst, rfl, ?status, fun _ => rfl, fun _ => rfl, fun _ => rfl⟩
  case status => simp [State.status, State.busy, hst]

/-- Settles O9: the start rule of the six reserved rows is one `raise`, which clears no result. -/
theorem reservedBytesRaiseIllegalCommand : Obligations.ReservedBytesRaiseIllegalCommand := by
  intro s i hst hi
  have hexec : exec i s = .next (s.beginCommand.raise .reserved .reservedByte) := by
    obtain rfl | ⟨l, rfl⟩ | ⟨l, rfl⟩ | ⟨l, rfl⟩ | ⟨l, rfl⟩ | ⟨l, rfl⟩ := hi <;> exact exec_of_idle rfl hst
  exact ⟨_, hexec, rfl, status_raise _ _ _, fun _ => rfl, fun _ => rfl, fun _ => rfl⟩

end Sys2Proof.Machine
end

section
/-! PROOFS. What one step of the machine leads to (spec/44_control.md R140, R141, R147): in `IDLE` only a command can leave it or
stop the machine; while an operation runs only its end or the reset event returns to `IDLE`. -/

namespace Sys2Proof.Machine

/-! ### A step in `IDLE` -/

theorem step_of_idle {s : State} {a : HostAction} {rest : List HostAction} (hst : s.st = .idle) (hs : s.script = a :: rest) :
    step s = idleHostStep a { s with script := rest } := by
  rw [step_of_script_cons hs]
  exact hostStep_of_idle hst

/-- A `CMD` write in `IDLE` runs what its byte decodes to (R140). -/
theorem step_of_cmdWrite {s : State} {v : Nat} {rest : List HostAction} (hst : s.st = .idle)
    (hs : s.script = .regWrite 14 v :: rest) :
    step s = exec (decodeCommand (commandByte v)) { s with script := rest } :=
  step_of_idle hst hs

@[simp] theorem writeReg_st (s : State) (n v : Nat) : (s.writeReg n v).st = s.st := by
  unfold State.writeReg
  split <;> rfl

@[simp] theorem writeBuf_st (s : State) (b : Buf) (a v : Nat) : (s.writeBuf b a v).st = s.st := by
  cases b with
  | pix => exact writePix_st _ _ _
  | idx => exact writeIdx_st _ _ _
  | art => exact writeArt_st _ _ _

/-- In `IDLE` every host action but a `CMD` write has a next state, and stays in `IDLE`. -/
theorem idleHostStep_cases {s : State} (hst : s.st = .idle) (a : HostAction) :
    (∃ t, idleHostStep a s = .next t ∧ t.st = .idle) ∨ ∃ v, a = .regWrite 14 v := by
  cases a with
  | regWrite n v =>
    by_cases hn : n = 14
    · exact .inr ⟨v, by rw [hn]⟩
    · exact .inl ⟨s.writeReg n v, if_neg hn, (writeReg_st s n v).trans hst⟩
  | bufWrite b i v => exact .inl ⟨s.writeBuf b i v, rfl, (writeBuf_st s b i v).trans hst⟩
  | reset => exact .inl ⟨s.resetEvent, rfl, rfl⟩
  | angleWrite _ | regRead _ | bufRead _ _ | wait | pass => exact .inl ⟨_, rfl, hst⟩

theorem step_cases_of_idle {s : State} (hst : s.st = .idle) :
    (∃ t, step s = .next t ∧ t.st = .idle) ∨ ∃ v rest, s.script = .regWrite 14 v :: rest := by
  match hs : s.script with
  | [] => exact .inl ⟨s, (step_of_script_nil hs).trans (sequencerStep_idle hst), hst⟩
  | a :: rest =>
    rw [step_of_idle hst hs]
    exact (idleHostStep_cases (s := { s with script := rest }) hst a).imp_right fun ⟨v, hv⟩ => ⟨v, rest, by rw [hv]⟩

/-! ### A step while an operation runs -/

/-- While an operation runs no host action stops the machine: the operation ends or runs on, or it is the reset event. -/
theorem busyHostStep_cases (a : HostAction) (s : State) :
    ∃ t, busyHostStep a s = .next t ∧ (t.ended ∨ t.st = s.st ∨ t.st = .idle ∧ a = .reset) := by
  cases a with
  | wait =>
    obtain ⟨t, ht, hcases⟩ := sequencerStep_cases { s.answer (s.readReg 15) with script := .wait :: s.script }
    exact ⟨t, ht, hcases.imp_right .inl⟩
  | pass =>
    obtain ⟨t, ht, hcases⟩ := sequencerStep_cases s
    exact ⟨t, ht, hcases.imp_right .inl⟩
  | reset => exact ⟨_, rfl, .inr (.inr ⟨rfl, rfl⟩)⟩
  | regWrite _ _ | angleWrite _ | regRead _ | bufWrite _ _ _ | bufRead _ _ => exact ⟨_, rfl, .inr (.inl rfl)⟩

theorem step_cases_of_busy {s : State} (hst : s.st ≠ .idle) :
    ∃ t, step s = .next t ∧ (t.ended ∨ t.st = s.st ∨ t.st = .idle ∧ ∃ rest, s.script = .reset :: rest) := by
  match hs : s.script with
  | [] =>
    rw [step_of_script_nil hs]
    obtain ⟨t, ht, hcases⟩ := sequencerStep_cases s
    exact ⟨t, ht, hcases.imp_right .inl⟩
  | a :: rest =>
    rw [step_of_busy hst hs]
    obtain ⟨t, ht, hcases⟩ := busyHostStep_cases a { s with script := rest }
    exact ⟨t, ht, hcases.imp_right (.imp_right fun ⟨hidle, ha⟩ => ⟨hidle, rest, by rw [ha]⟩)⟩

/-! ### What the start rules lead to -/

/-- BBOX ends in the issuing step, or a result is too wide (R129, R136). -/
theorem bboxStart_cases (s : State) :
    (∃ t, bboxStart s = .next t ∧ t.ended)
      ∨ s.w ≠ 0 ∧ s.h ≠ 0 ∧ fitsResult ((trigOf Config.trig s.angle).bbox s.w.toNat s.h.toNat) = false
        ∧ bboxStart s = .fault .resultTooWide := by
  by_cases hzero : s.w = 0 ∨ s.h = 0
  · exact .inl ⟨_, if_pos hzero, raise_st _ _ _, raise_done _ _ _⟩
  · obtain ⟨hw, hh⟩ := not_or.mp hzero
    cases hfits : fitsResult ((trigOf Config.trig s.angle).bbox s.w.toNat s.h.toNat) with
    | true => exact .inl ⟨_, (if_neg hzero).trans (if_pos hfits), ended_finish _⟩
    | false => exact .inr ⟨hw, hh, rfl, (if_neg hzero).trans (if_neg (Bool.eq_false_iff.mp hfits))⟩

/-- IRECT ends in the issuing step, or a divisor is 0 or a result too wide (R135, R136). -/
theorem irectStart_cases (s : State) :
    (∃ t, irectStart s = .next t ∧ t.ended)
      ∨ s.w ≠ 0 ∧ s.h ≠ 0
        ∧ (∀ p, (trigOf Config.trig s.angle).irect s.w.toNat s.h.toNat = some p → fitsResult p = false)
        ∧ ∃ r, irectStart s = .fault r := by
  by_cases hzero : s.w = 0 ∨ s.h = 0
  · exact .inl ⟨_, if_pos hzero, raise_st _ _ _, raise_done _ _ _⟩
  · obtain ⟨hw, hh⟩ := not_or.mp hzero
    cases hrect : (trigOf Config.trig s.angle).irect s.w.toNat s.h.toNat with
    | none => exact .inr ⟨hw, hh, nofun, .divisorZero, (if_neg hzero).trans (by simp [hrect])⟩
    | some p =>
      cases hfits : fitsResult p with
      | true =>
        exact .inl ⟨((s.setRect (0, 0)).setRect p).finish, (if_neg hzero).trans (by simp [hrect, hfits]), ended_finish _⟩
      | false =>
        refine .inr ⟨hw, hh, ?_, .resultTooWide, (if_neg hzero).trans (by simp [hrect, hfits])⟩
        rintro _ ⟨rfl⟩
        exact hfits

/-- The commands that leave `IDLE` when their checks pass (R141). -/
def startsOperation (i : Instr) : Prop :=
  i = .quant ∨ i = .enc ∨ i = .dec ∨ i = .count

/-- Every instruction but those ends in the issuing step (R141). -/
theorem exec_st_of_idle {i : Instr} {s t : State} (hst : s.st = .idle) (hop : ¬ startsOperation i)
    (h : exec i s = .next t) : t.st = .idle := by
  cases i with
  | quant | enc | dec | count => exact absurd (by simp [startsOperation]) hop
  | runByte run value =>
    rw [exec_runByte_of_idle hst] at h
    cases h
    exact hst
  | bbox =>
    rw [exec_of_idle rfl hst] at h
    obtain ⟨u, hu, hended, -⟩ | ⟨-, -, -, hfault⟩ := bboxStart_cases s.beginCommand
    · cases hu.symm.trans h
      exact hended
    · cases hfault.symm.trans h
  | irect =>
    rw [exec_of_idle rfl hst] at h
    obtain ⟨u, hu, hended, -⟩ | ⟨-, -, -, r, hfault⟩ := irectStart_cases s.beginCommand
    · cases hu.symm.trans h
      exact hended
    · cases hfault.symm.trans h
  | clr =>
    rw [exec_of_idle rfl hst] at h
    cases h
    exact hst
  | reserved07 | reserved08 _ | reserved10 _ | reserved20 _ | reserved40 _ | reserved80 _ =>
    rw [exec_of_idle rfl hst] at h
    cases h
    exact raise_st _ _ _

/-- The bytes of those commands (R67). -/
theorem toNat_of_startsOperation {b : Byte} (h : startsOperation (decodeCommand b)) :
    b.toNat = 1 ∨ b.toNat = 2 ∨ b.toNat = 3 ∨ b.toNat = 4 := by
  revert b
  unfold startsOperation
  decide

/-! ### The obligations -/

/-- Settles O6: the host's step in `IDLE` decodes the byte and executes what it decodes to. -/
theorem cmdWriteRunsTheDecodedCommand : Obligations.CmdWriteRunsTheDecodedCommand := by
  intro s v rest i hst hs hdecode
  obtain rfl : decodeCommand (commandByte v) = i := by
    obtain ⟨hi, -⟩ := Prod.mk.inj (Except.ok.inj hdecode)
    exact hi
  exact step_of_cmdWrite hst hs

/-- Settles O40: the first part by what a step in `IDLE` can do, the others by what a step of a running operation can do. -/
theorem sequencerStateChangesOnlyByCommandEndOrReset :
    Obligations.SequencerStateChangesOnlyByCommandEndOrReset := by
  intro s t hstep
  refine ⟨fun hst ht => ?left_idle, fun hst ht => ?returned, fun hst ht => ?kept⟩
  case left_idle =>
    obtain ⟨u, hu, huidle⟩ | ⟨v, rest, hs⟩ := step_cases_of_idle hst
    · cases hu.symm.trans hstep
      exact absurd huidle ht
    · rw [step_of_cmdWrite hst hs] at hstep
      have hop : startsOperation (decodeCommand (commandByte v)) := by
        by_contra hop
        exact ht (exec_st_of_idle (s := { s with script := rest }) hst hop hstep)
      have hbyte : (commandByte v).toNat = v % 256 := BitVec.toNat_ofNat v 8
      exact ⟨v, rest, hs, hbyte ▸ toNat_of_startsOperation hop⟩
  case returned =>
    obtain ⟨u, hu, hcases⟩ := step_cases_of_busy hst
    cases hu.symm.trans hstep
    obtain ⟨-, hdone⟩ | hsame | ⟨-, hreset⟩ := hcases
    · exact .inl hdone
    · exact absurd (hsame.symm.trans ht) hst
    · exact .inr hreset
  case kept =>
    obtain ⟨u, hu, hcases⟩ := step_cases_of_busy hst
    cases hu.symm.trans hstep
    obtain ⟨hidle, -⟩ | hsame | ⟨hidle, -⟩ := hcases
    · exact absurd hidle ht
    · exact hsame
    · exact absurd hidle ht

end Sys2Proof.Machine
end

section
/-! PROOFS. The geometry at a pair on the unit circle (spec/43_geometry.md R126, R136): no divisor is 0, and no result is larger
than the sizes it comes from. -/

namespace Sys2Proof.Machine

/-! ### The pair -/

theorem TrigValue.s_nonneg (v : TrigValue) : 0 ≤ v.s := by
  cases v with
  | roots t => exact Real.sqrt_nonneg _
  | ofAngle a e => exact abs_nonneg _
  | ofPair s c e => exact abs_nonneg _

theorem TrigValue.c_nonneg (v : TrigValue) : 0 ≤ v.c := by
  cases v with
  | roots t => exact Real.sqrt_nonneg _
  | ofAngle a e => exact abs_nonneg _
  | ofPair s c e => exact abs_nonneg _

theorem le_one_of_unit {s c : ℝ} (hunit : s * s + c * c = 1) : s ≤ 1 ∧ c ≤ 1 :=
  ⟨le_of_abs_le (abs_le_one_iff_mul_self_le_one.mpr (by linarith only [hunit, mul_self_nonneg c])),
    le_of_abs_le (abs_le_one_iff_mul_self_le_one.mpr (by linarith only [hunit, mul_self_nonneg s]))⟩

theorem natAbs_floor_le {x : ℝ} {n : ℕ} (h0 : 0 ≤ x) (hn : x ≤ n) : ⌊x⌋.natAbs ≤ n := by
  have hpos : 0 ≤ ⌊x⌋ := Int.floor_nonneg.mpr h0
  have hle : ⌊x⌋ ≤ n := by exact_mod_cast (Int.floor_le x).trans hn
  omega

section
variable {w h : ℕ} {s c : ℝ} (hs : 0 ≤ s) (hc : 0 ≤ c) (hunit : s * s + c * c = 1)
include hs hc hunit

/-! ### BBOX -/

theorem natAbs_floor_mix_le (p q : ℕ) : ⌊p * c + q * s⌋.natAbs ≤ p + q := by
  obtain ⟨hs1, hc1⟩ := le_one_of_unit hunit
  refine natAbs_floor_le (by positivity) ?_
  push_cast
  exact add_le_add (mul_le_of_le_one_right p.cast_nonneg hc1) (mul_le_of_le_one_right q.cast_nonneg hs1)

theorem bboxReal_le (w h : ℕ) : (bboxReal w h s c).1 ≤ w + h ∧ (bboxReal w h s c).2 ≤ w + h := by
  refine ⟨natAbs_floor_mix_le hs hc hunit w h, ?_⟩
  rw [bboxReal, add_comm ((w : ℝ) * s), add_comm w]
  exact natAbs_floor_mix_le hs hc hunit h w

/-! ### IRECT, the thin branch -/

/-- At `den = 0` the pair is `s = c` with `2*s*c = 1`, so the thin branch is one comparison. -/
theorem short_le_of_thin (hthin : ThinReal w h s c) : ((min w h : ℕ) : ℝ) ≤ 2 * s * c * (max w h : ℕ) := by
  obtain hle | hden := hthin
  · exact hle
  · have hsc : s = c := by nlinarith only [hden, hs, hc, hunit]
    have hone : 2 * s * c = 1 := by rw [hsc] at hunit ⊢; linarith
    rw [hone, one_mul]
    exact Nat.cast_le.mpr min_le_max

/-- A source with an area is not thin at `s = 0` or `c = 0`: no divisor of the thin branch is 0. -/
theorem ne_zero_of_thin (hw : 1 ≤ w) (hh : 1 ≤ h) (hthin : ThinReal w h s c) : s ≠ 0 ∧ c ≠ 0 := by
  have hle := short_le_of_thin hs hc hunit hthin
  have hshort : (0 : ℝ) < (min w h : ℕ) := Nat.cast_pos.mpr (lt_min hw hh)
  have hprod : s * c ≠ 0 := fun h0 => by
    rw [mul_assoc 2, h0, mul_zero, zero_mul] at hle
    exact absurd hle (not_le.mpr hshort)
  exact mul_ne_zero_iff.mp hprod

end

/-- `(short / 2) / r` is at most `r' * long` with `r'` the other number of the pair. -/
theorem natAbs_floor_half_le {short long : ℕ} {r r' : ℝ} (hr : 0 < r) (hr1 : r' ≤ 1)
    (hle : (short : ℝ) ≤ 2 * r * r' * long) :
    ⌊(short : ℝ) / 2 / r⌋.natAbs ≤ long := by
  refine natAbs_floor_le (by positivity) ((div_le_iff₀ hr).mpr ?_)
  have hlong : r' * long ≤ long := mul_le_of_le_one_left long.cast_nonneg hr1
  nlinarith only [hle, hlong, hr]

/-! ### IRECT, the other branch -/

/-- The quotient of the second branch where `s < c`: sizes that are not thin keep it from being negative and from passing `p`. -/
theorem quotient_bounds_of_lt {p q s c : ℝ} (hp : 0 ≤ p) (hq : 0 ≤ q) (hs : 0 ≤ s) (hlt : s < c)
    (hunit : s * s + c * c = 1) (hpq : 2 * s * c * p ≤ q) (hqp : 2 * s * c * q ≤ p) :
    0 ≤ (p * c - q * s) / (c * c - s * s) ∧ (p * c - q * s) / (c * c - s * s) ≤ p := by
  obtain ⟨-, hc1⟩ := le_one_of_unit hunit
  have hc : 0 ≤ c := hs.trans hlt.le
  have hden : 0 < c * c - s * s := sub_pos.mpr (mul_self_lt_mul_self hs hlt)
  have hlow : 0 ≤ p * c - q * s := by
    calc 0 ≤ q * s * (c * c - s * s) := by positivity
      _ = 2 * s * c * q * c - q * s := by linear_combination (-(q * s)) * hunit
      _ ≤ p * c - q * s := by gcongr
  have hhigh : p * c - q * s ≤ p * (c * c - s * s) := by
    calc p * c - q * s ≤ p * c - 2 * s * c * p * s := by gcongr
      _ = p * c * (c * c - s * s) := by linear_combination (-(p * c)) * hunit
      _ ≤ p * (c * c - s * s) := by gcongr; exact mul_le_of_le_one_right hp hc1
  exact ⟨div_nonneg hlow hden.le, (div_le_iff₀ hden).mpr hhigh⟩

theorem natAbs_floor_quotient_le {p q : ℕ} {s c : ℝ} (hs : 0 ≤ s) (hc : 0 ≤ c) (hne : s ≠ c)
    (hunit : s * s + c * c = 1) (hpq : 2 * s * c * p ≤ q) (hqp : 2 * s * c * q ≤ p) :
    ⌊(p * c - q * s) / (c * c - s * s)⌋.natAbs ≤ max p q := by
  obtain hlt | hlt := lt_or_gt_of_ne hne
  · obtain ⟨h0, hle⟩ := quotient_bounds_of_lt p.cast_nonneg q.cast_nonneg hs hlt hunit hpq hqp
    exact (natAbs_floor_le h0 hle).trans (le_max_left p q)
  · have hswap : 2 * c * s = 2 * s * c := by ring
    obtain ⟨h0, hle⟩ := quotient_bounds_of_lt q.cast_nonneg p.cast_nonneg hc hlt ((add_comm _ _).trans hunit)
      (hswap ▸ hqp) (hswap ▸ hpq)
    rw [quotient_exchange] at h0 hle
    exact (natAbs_floor_le h0 hle).trans (le_max_right p q)

/-! ### IRECT -/

/-- Outside the thin branch each size times `2*s*c` is at most the other one. -/
theorem mul_le_of_not_thin {w h : ℕ} {s c : ℝ} (hs : 0 ≤ s) (hc : 0 ≤ c) (hthin : ¬ ThinReal w h s c) :
    s ≠ c ∧ 2 * s * c * w ≤ h ∧ 2 * s * c * h ≤ w := by
  obtain ⟨hlong, hden⟩ := not_or.mp hthin
  have hshort : 2 * s * c * ((max w h : ℕ) : ℝ) ≤ (min w h : ℕ) := (not_le.mp hlong).le
  refine ⟨fun hsc => hden (by rw [hsc, sub_self]), ?_, ?_⟩
  · calc 2 * s * c * (w : ℝ) ≤ 2 * s * c * (max w h : ℕ) := by gcongr; exact le_max_left w h
      _ ≤ (min w h : ℕ) := hshort
      _ ≤ h := Nat.cast_le.mpr (min_le_right w h)
  · calc 2 * s * c * (h : ℝ) ≤ 2 * s * c * (max w h : ℕ) := by gcongr; exact le_max_right w h
      _ ≤ (min w h : ℕ) := hshort
      _ ≤ w := Nat.cast_le.mpr (min_le_left w h)

theorem irectReal_le {w h : ℕ} {s c : ℝ} (hw : 1 ≤ w) (hh : 1 ≤ h) (hs : 0 ≤ s) (hc : 0 ≤ c)
    (hunit : s * s + c * c = 1) : ∃ p, irectReal w h s c = some p ∧ p.1 ≤ max w h ∧ p.2 ≤ max w h := by
  by_cases hthin : ThinReal w h s c
  case pos =>
    obtain ⟨hs0, hc0⟩ := ne_zero_of_thin hs hc hunit hw hh hthin
    obtain ⟨hs1, hc1⟩ := le_one_of_unit hunit
    have hnz : ¬ (s = 0 ∨ c = 0) := not_or.mpr ⟨hs0, hc0⟩
    have hle := short_le_of_thin hs hc hunit hthin
    have hover_s := natAbs_floor_half_le (hs.lt_of_ne' hs0) hc1 hle
    have hover_c := natAbs_floor_half_le (hc.lt_of_ne' hc0) hs1 (mul_right_comm 2 s c ▸ hle)
    obtain hhw | hwh := le_or_gt h w
    · exact ⟨_, irectReal_of_thin_le hthin hnz hhw, hover_s, hover_c⟩
    · exact ⟨_, irectReal_of_thin_lt hthin hnz hwh, hover_c, hover_s⟩
  case neg =>
    obtain ⟨hne, hwh, hhw⟩ := mul_le_of_not_thin hs hc hthin
    refine ⟨_, irectReal_of_not_thin hthin, natAbs_floor_quotient_le hs hc hne hunit hwh hhw, ?_⟩
    rw [max_comm]
    exact natAbs_floor_quotient_le hs hc hne hunit hhw hwh

end Sys2Proof.Machine
end

section
/-! PROOFS. With an angle whose pair is on the unit circle no step stops (spec/43_geometry.md R136, spec/44_control.md R141): only
BBOX and IRECT can stop, and their results fit. -/

namespace Sys2Proof.Machine

/-! ### The results fit -/

theorem fitsResult_of_le {p : ℕ × ℕ} {n : ℕ} (hn : n < 2 ^ 32) (h : p.1 ≤ n ∧ p.2 ≤ n) : fitsResult p = true := by
  obtain ⟨h1, h2⟩ := h
  rw [fitsResult, decide_eq_true (h1.trans_lt hn), decide_eq_true (h2.trans_lt hn)]
  rfl

section
variable {s : State} (hunit : trigUnit Config.trig s.angle)
include hunit

theorem fitsResult_bbox : fitsResult ((trigOf Config.trig s.angle).bbox s.w.toNat s.h.toNat) = true := by
  have hw := s.w.isLt
  have hh := s.h.isLt
  rw [TrigValue.bbox_eq_bboxReal]
  exact fitsResult_of_le (by omega) (bboxReal_le (TrigValue.s_nonneg _) (TrigValue.c_nonneg _) hunit _ _)

theorem exists_irect_fits (hw0 : s.w ≠ 0) (hh0 : s.h ≠ 0) :
    ∃ p, (trigOf Config.trig s.angle).irect s.w.toNat s.h.toNat = some p ∧ fitsResult p = true := by
  have hw := s.w.isLt
  have hh := s.h.isLt
  obtain ⟨p, hp, hle⟩ := irectReal_le (one_le_toNat_of_ne hw0) (one_le_toNat_of_ne hh0) (TrigValue.s_nonneg _)
    (TrigValue.c_nonneg _) hunit
  rw [TrigValue.irect_eq_irectReal]
  exact ⟨p, hp, fitsResult_of_le (by omega) hle⟩

theorem bboxStart_next : ∃ t, bboxStart s = .next t := by
  obtain ⟨t, ht, -⟩ | ⟨-, -, hwide, -⟩ := bboxStart_cases s
  · exact ⟨t, ht⟩
  · rw [fitsResult_bbox hunit] at hwide
    cases hwide

theorem irectStart_next : ∃ t, irectStart s = .next t := by
  obtain ⟨t, ht, -⟩ | ⟨hw, hh, hwide, -⟩ := irectStart_cases s
  · exact ⟨t, ht⟩
  · obtain ⟨p, hp, hfits⟩ := exists_irect_fits hunit hw hh
    rw [hwide p hp] at hfits
    cases hfits

end

/-! ### The other commands never stop -/

/-- A check of a start rule, both of whose sides have a next state. -/
theorem exists_next_ite {c : Prop} [Decidable c] {r r' : Result} (h : ∃ t, r = .next t) (h' : ∃ t, r' = .next t) :
    ∃ t, (if c then r else r') = .next t := by
  by_cases hc : c
  · rwa [if_pos hc]
  · rwa [if_neg hc]

theorem quantStart_next (s : State) : ∃ t, quantStart s = .next t :=
  exists_next_ite ⟨_, rfl⟩ (exists_next_ite ⟨_, rfl⟩ (exists_next_ite ⟨_, rfl⟩ ⟨_, rfl⟩))

theorem decStart_next (s : State) : ∃ t, decStart s = .next t :=
  exists_next_ite ⟨_, rfl⟩ (exists_next_ite ⟨_, rfl⟩ ⟨_, rfl⟩)

theorem commandStart_next {s : State} (hunit : trigUnit Config.trig s.angle) (i : Instr) :
    ∃ t, commandStart i s = .next t := by
  cases i with
  | quant => exact quantStart_next s
  | enc | count => exact ⟨_, scanStart_eq _ _ _⟩
  | dec => exact decStart_next s
  | bbox => exact bboxStart_next hunit
  | irect => exact irectStart_next hunit
  | clr | reserved07 | reserved08 _ | reserved10 _ | reserved20 _ | reserved40 _ | reserved80 _ | runByte _ _ =>
    exact ⟨_, rfl⟩

theorem exec_next_of_idle {s : State} (hst : s.st = .idle) (hunit : trigUnit Config.trig s.angle) (i : Instr) :
    ∃ t, exec i s = .next t := by
  cases hrun : i.isRunByte with
  | false =>
    rw [exec_of_idle hrun hst]
    exact commandStart_next (s := s.beginCommand) hunit i
  | true =>
    cases i with
    | runByte run value => exact ⟨s, exec_runByte_of_idle hst run value⟩
    | _ => cases hrun

/-- Settles O42: a step can stop only where a command is executed in `IDLE`. -/
theorem noStepStopsOnUnitTrig : Obligations.NoStepStopsOnUnitTrig := by
  intro s hunit
  by_cases hst : s.st = .idle
  · obtain ⟨t, ht, -⟩ | ⟨v, rest, hs⟩ := step_cases_of_idle hst
    · exact ⟨t, ht⟩
    · rw [step_of_cmdWrite hst hs]
      exact exec_next_of_idle (s := { s with script := rest }) hst hunit _
  · obtain ⟨t, ht, -⟩ := step_cases_of_busy hst
    exact ⟨t, ht⟩

end Sys2Proof.Machine
end

section
/-! PROOFS. The register values after reset (spec/70_reset_and_hazards.md R171). -/

namespace Sys2Proof.Machine

/-- With no flag set, `STATUS` of an idle block reads 0 (R65). -/
theorem status_eq_zero_of_idle {s : State} (hst : s.st = .idle) (hdone : s.done = false) (herr : s.err = false) :
    s.status = 0 := by
  simp [State.status, State.busy, hst, hdone, herr]

/-- With 16 levels the rescale divides `30 * l + 15` by 30, which is `l` (spec/40_quantizer.md R89). -/
theorem rescale_sixteen (l : Nat) : rescale 16 l = l := by
  unfold rescale
  omega

/-- The angle of the reset state is the one that writing the number 0 gives (R38, R71). -/
theorem reset_angle : State.reset.angle = angleOfNumber 0 := rfl

theorem radiansOf_reset_angle : radiansOf State.reset.angle = some 0 := by
  rw [reset_angle, radiansOf_angleOfNumber, Nat.cast_zero]

/-- Settles O50: every register is a field of the reset state; only `STATUS`, the real number of `ANGLE` and the rescale are
computed from them. -/
theorem resetValues : Obligations.ResetValues := by
  have hstatus : State.reset.status = 0 := status_eq_zero_of_idle rfl rfl rfl
  have hrescale : ∀ l, l ≤ 15 → rescale 16 l = l := fun l _ => rescale_sixteen l
  exact ⟨rfl, hstatus, rfl, rfl, rfl, rfl, rfl, radiansOf_reset_angle, rfl, rfl, rfl, rfl, rfl, rfl, rfl, rfl, rfl, rfl, rfl,
    hrescale⟩

end Sys2Proof.Machine
end

section
/-! PROOFS. The encoder and the decoder are inverse to each other in both formats (spec/30_encoding.md R62, R67, R68, R69, R73). -/

namespace Sys2Proof.Machine

/-! ### Decoding what was encoded -/

/-- Each reserved row is told from the rows before it by its leading bit, and keeps the bits below. -/
theorem decodeCommand_encodeInstr {i : Instr} (hi : i.isRunByte = false) : decodeCommand (encodeInstr i) = i := by
  cases i with
  | clr | quant | enc | dec | count | bbox | irect | reserved07 => rfl
  | reserved08 low | reserved10 low | reserved20 low | reserved40 low | reserved80 low => revert low; decide
  | runByte _ _ => cases hi

theorem decodeRunByte_runByteOf {r : Nat} (hpos : 1 ≤ r) (hr : r ≤ 16) (v : Nibble) :
    decodeRunByte (runByteOf r v) = .runByte r v := by
  rw [decodeRunByte_eq, runLengthOf_runByteOf hpos hr, runValueOf_runByteOf hr]

theorem wellFormed_runByte_iff (r : Nat) (v : Nibble) : (Instr.runByte r v).wellFormed = true ↔ 1 ≤ r ∧ r ≤ 16 := by
  rw [Instr.wellFormed, Bool.and_eq_true, decide_eq_true_iff, decide_eq_true_iff, Config.runMax]

theorem format_of_command {i : Instr} (hi : i.isRunByte = false) : i.format = .command := by
  simp [Instr.format, hi]

/-- Read in its own format, the byte of a well-formed instruction is that instruction. -/
theorem decodeByte_encodeInstr {i : Instr} (hi : i.wellFormed = true) : decodeByte i.format (encodeInstr i) = i := by
  cases hrun : i.isRunByte with
  | false =>
    rw [format_of_command hrun]
    exact decodeCommand_encodeInstr hrun
  | true =>
    cases i with
    | runByte r v =>
      obtain ⟨hpos, hr⟩ := (wellFormed_runByte_iff r v).mp hi
      exact decodeRunByte_runByteOf hpos hr v
    | _ => cases hrun

/-- Settles O1: one byte is read in the format of the instruction, and the rest is left. -/
theorem decodeOfEncodeIsTheInstruction : Obligations.DecodeOfEncodeIsTheInstruction := by
  intro i rest hi
  rw [encode, List.singleton_append, decode, decodeByte_encodeInstr hi]

/-! ### Encoding what was decoded -/

/-- No command byte decodes to a run byte, and the row it selects gives its bits back. -/
theorem encodeInstr_decodeCommand (b : Byte) :
    (decodeCommand b).isRunByte = false ∧ encodeInstr (decodeCommand b) = b := by
  revert b
  decide

theorem wellFormed_of_command {i : Instr} (hi : i.isRunByte = false) : i.wellFormed = true := by
  cases i with
  | runByte _ _ => cases hi
  | _ => rfl

/-- Settles O2: by the format, a command row or the two nibbles of a run byte. -/
theorem encodeOfDecodeIsTheByte : Obligations.EncodeOfDecodeIsTheByte := by
  intro f b
  cases f with
  | command =>
    obtain ⟨hrun, hbyte⟩ := encodeInstr_decodeCommand b
    exact ⟨wellFormed_of_command hrun, format_of_command hrun, congrArg ([·]) hbyte⟩
  | runByte =>
    rw [decodeByte, decodeRunByte_eq]
    exact ⟨(wellFormed_runByte_iff _ _).mpr ⟨one_le_runLengthOf b, runLengthOf_le b⟩, rfl,
      congrArg ([·]) (runByteOf_fields b)⟩

/-- Settles O5: each word is the byte of the row it is to decode to; the run byte is that of a run of 2 samples of value 15. -/
theorem sampleWordsDecodeToTheirRows : Obligations.SampleWordsDecodeToTheirRows :=
  ⟨rfl, rfl, rfl, rfl, rfl, rfl, rfl, rfl, decodeCommand_encodeInstr (i := .reserved08 1) rfl,
    decodeCommand_encodeInstr (i := .reserved20 0b01010) rfl, decodeCommand_encodeInstr (i := .reserved80 0b1111111) rfl,
    decodeRunByte_runByteOf (r := 2) (v := 15) (by decide) (by decide)⟩

end Sys2Proof.Machine
end

section
/-! PROOFS. COUNT as a whole operation (spec/41_rle_encoder.md R101 to R103): the scan that stores nothing. -/

namespace Sys2Proof.Machine

theorem exec_count_of_checks {s : State} (hst : s.st = .idle) (ht : s.tilew ≠ 0) (hcap : s.size ≤ s.cap)
    (hlen : s.idxlen.toNat = s.size) : exec .count s = .next (s.scanInit false) := by
  have hexec := exec_scanInstr hst false
  rwa [(scanCause_eq_none_iff s).mpr ⟨ht, hcap, hlen⟩] at hexec

/-- The end of COUNT leaves `ART` as the scan has it. -/
theorem scanEnd_false_frame {t0 u : State} (hframe : sameButScan t0 u) (hart : u.art = t0.art) :
    sameButCursors (u.scanEnd false) { t0 with st := .idle, done := true, rcount := u.k } := by
  have hcursors : sameButCursors u t0 := by
    have hscan : sameButCursors u { t0 with art := u.art } := hframe
    rwa [hart] at hscan
  exact congrArg (State.scanEnd false) hcursors

/-- Settles O28: the scan that counts. -/
theorem countStepsComputeCountRuns : Obligations.CountStepsComputeCountRuns := by
  intro s hst hs ht hcap hlen
  obtain ⟨u, hu, hframe, hcount, -, hart⟩ := scan_ends false hs ht hcap
  refine ⟨s.scanInit false, u.scanEnd false, exec_count_of_checks hst ht hcap hlen, fun j hj => ?runs, hu, ?frame, hcount⟩
  case runs =>
    obtain ⟨v, hv, hi⟩ := scan_reaches false hs ht hcap j hj
    exact ⟨v, hv, hi.frame.st⟩
  case frame =>
    have hidle : statusCleared s = { statusCleared s with st := .idle } := by rw [← hst]
    rw [hidle]
    exact scanEnd_false_frame (t0 := s.scanInit false) hframe (hart rfl)

end Sys2Proof.Machine
end

section
/-! PROOFS. QUANT as a whole operation (spec/40_quantizer.md R75, R84): one sample a step, then the end. -/

namespace Sys2Proof.Machine

/-! ### The start -/

/-- The state in which QUANT starts, its checks passed (R83). -/
def State.quantInit (s : State) : State :=
  { s.beginCommand with idxlen := 0, i := 0, st := .quantRun }

theorem exec_quant_of_checks {s : State} (hst : s.st = .idle) (hmin : 2 ≤ s.levels.toNat) (hmax : s.levels.toNat ≤ 16)
    (hcap : s.size ≤ s.cap) (hlen : s.pixlen.toNat = s.size) : exec .quant s = .next s.quantInit := by
  have hstart : exec .quant s = quantStart s.beginCommand := issue_of_idle ((busy_eq_false_iff s).mpr hst)
  have hlevels : ¬ (s.levels.toNat < Config.levelsMin ∨ Config.levelsMax < s.levels.toNat) :=
    not_or.mpr ⟨Nat.not_lt.mpr hmin, Nat.not_lt.mpr hmax⟩
  exact hstart.trans ((if_neg hlevels).trans ((if_neg (Nat.not_lt.mpr hcap)).trans (if_neg (not_not.mpr hlen))))

/-! ### The steps -/

/-- What `quant_sample` makes of sample `a` (R79). -/
def State.quantized (s : State) (a : Nat) : Nibble :=
  quantSample (s.pix.read a) s.levels.toNat (s.invert == 1)

theorem quantStep_frame {s : State} (hleft : s.i.toNat ≠ s.size) :
    quantStep s = { s with idx := (quantStep s).idx, i := (quantStep s).i } := by
  rw [quantStep_of_sample hleft]

/-- After `j` steps from `t0`: the first `j` samples are quantized, and nothing else has changed. -/
structure QuantInv (t0 : State) (j : Nat) (s : State) : Prop where
  frame : s = { t0 with idx := s.idx, i := s.i }
  index : s.i.toNat = j
  stored : ∀ a, a < j → s.idx.read a = t0.quantized a

section
variable {t0 s : State} {j : Nat} (hi : QuantInv t0 j s)
include hi

theorem QuantInv.size : s.size = t0.size := (congrArg State.size hi.frame :)
theorem QuantInv.cap : s.cap = t0.cap := (congrArg State.cap hi.frame :)
theorem QuantInv.st : s.st = t0.st := (congrArg State.st hi.frame :)
theorem QuantInv.script : s.script = t0.script := (congrArg State.script hi.frame :)
theorem QuantInv.quantized : s.quantized = t0.quantized := (congrArg State.quantized hi.frame :)

theorem QuantInv.sameButCursors : sameButCursors s { t0 with idx := s.idx } := by rw [hi.frame]

/-- A step stores one sample more. -/
theorem QuantInv.quantStep (hj : j < t0.size) (hcap : t0.size ≤ t0.cap) : QuantInv t0 (j + 1) (Machine.quantStep s) := by
  have hindex := hi.index
  have hsize := hi.size
  have hleft : s.i.toNat ≠ s.size := by omega
  have hread : ∀ a, (s.writeIdx s.i.toNat (s.quantized s.i.toNat)).idx.read a
      = if a = s.i.toNat ∧ s.i.toNat < s.cap then s.quantized s.i.toNat else s.idx.read a :=
    fun a => read_writeIdx s s.i.toNat a _
  refine ⟨?frame, ?index, fun a ha => ?stored⟩
  case frame =>
    exact (quantStep_frame hleft).trans
      (congrArg (fun u : State => { u with idx := (Machine.quantStep s).idx, i := (Machine.quantStep s).i }) hi.frame)
  case index =>
    rw [quantStep_of_sample hleft, ← hindex]
    exact toNat_index_succ (by omega)
  case stored =>
    rw [quantStep_of_sample hleft]
    refine (hread a).trans ?_
    by_cases ha' : a = s.i.toNat
    · rw [if_pos ⟨ha', by rw [hi.cap]; omega⟩, hi.quantized, ha']
    · rw [if_neg fun h => ha' h.1, hi.stored a (by omega)]

end

/-! ### The whole operation -/

section
variable {s : State} (hs : s.script = []) (hcap : s.size ≤ s.cap)
include hs hcap

/-- QUANT runs through `W*H` steps, one per sample. -/
theorem quant_reaches : ∀ j, j ≤ s.size → ∃ u, Reaches j s.quantInit u ∧ QuantInv s.quantInit j u := by
  refine reaches_of_step ⟨rfl, rfl, nofun⟩ fun j u hj hi => ?_
  exact ⟨quantStep u, step_of_quantRun hi.st (hi.script.trans hs), hi.quantStep hj hcap⟩

/-- QUANT ends with the step after the last sample, every sample quantized (R84). -/
theorem quant_ends : ∃ u, Reaches (s.size + 1) s.quantInit (u.setIdxlen (BitVec.ofNat 32 s.size)).finish
    ∧ QuantInv s.quantInit s.size u := by
  obtain ⟨u, hu, hi⟩ := quant_reaches hs hcap s.size le_rfl
  have hsize : u.size = s.size := hi.size
  have hstep := step_of_quantRun hi.st (hi.script.trans hs)
  rw [quantStep_of_end (hi.index.trans hsize.symm), hsize] at hstep
  exact ⟨u, reaches_add hu (reaches_succ hstep rfl), hi⟩

end

/-- Settles O26. -/
theorem quantComputesQuantSample : Obligations.QuantComputesQuantSample := by
  intro s hst hs hmin hmax hcap hlen
  obtain ⟨u, hu, hi⟩ := quant_ends hs hcap
  refine ⟨s.quantInit, _, exec_quant_of_checks hst hmin hmax hcap hlen, fun j hj => ?runs, hu, ?frame,
    size_ofNat_toNat s, fun a ha => ?samples⟩
  case runs =>
    obtain ⟨v, hv, hi⟩ := quant_reaches hs hcap j hj
    exact ⟨v, hv, hi.st⟩
  case frame =>
    have hidle : statusCleared s = { statusCleared s with st := .idle } := by rw [← hst]
    rw [hidle]
    exact congrArg (fun v : State => (v.setIdxlen (BitVec.ofNat 32 s.size)).finish) hi.sameButCursors
  case samples =>
    have hkept : a < (BitVec.ofNat 32 s.size).toNat := by rwa [size_ofNat_toNat]
    exact (u.idx.read_keepBelow_of_lt hkept).trans (hi.stored a ha)

end Sys2Proof.Machine
end

section
/-! PROOFS. DEC of an accepted artifact (spec/42_rle_decoder.md R110 to R112, R116). -/

namespace Sys2Proof.Machine

/-- Settles O30: one step per byte, then the end. -/
theorem decOfAcceptedArtifactSucceeds : Obligations.DecOfAcceptedArtifactSucceeds := by
  intro s q hst hs ht hcap hart hq
  obtain ⟨t, ht0, hframe, hidx⟩ := dec_ends hs ht hcap hq
  have hidxlen : t.idxlen = BitVec.ofNat 32 s.size := (congrArg State.idxlen hframe :)
  refine ⟨s.decInit, t, exec_dec_of_checks hst ht hcap hart, fun j hj => ?runs, ht0, ?frame, ?idxlen, hidx⟩
  case runs =>
    obtain ⟨u, hu, hi⟩ := dec_reaches hs ht hcap hq j hj
    exact ⟨u, hu, hi.frame.st⟩
  case frame =>
    have hidle : statusCleared s = { statusCleared s with st := .idle } := by rw [← hst]
    rw [hidle, hidxlen]
    exact hframe
  case idxlen => rw [hidxlen, size_ofNat_toNat]

end Sys2Proof.Machine
end

section
/-! PROOFS. Re-encoding (spec/42_rle_decoder.md R119): cutting a chunk into maximal runs takes no more bytes than any other way of
cutting it. -/

namespace Sys2Proof.Machine

/-! ### One chunk -/

/-- A run put in front of a chunk costs at most one byte more: it stands alone, or it is merged into the chunk's first run. -/
theorem encodeChunk_replicate_append_length_le {r : Nat} (hpos : 1 ≤ r) (hr : r ≤ 16) (v : Nibble) (c : List Nibble) :
    (encodeChunk (List.replicate r v ++ c)).length ≤ (encodeChunk c).length + 1 := by
  induction c using chunk_induction generalizing r with
  | nil => rw [encodeChunk_run hpos hr (by simp [endsRun])]; exact le_rfl
  | run u p rest hp hp16 hend ih =>
    by_cases huv : u = v
    case neg =>
      have hother : endsRun v r 16 (List.replicate p u ++ rest) := by
        left
        rw [List.head?_append, List.head?_replicate, if_neg (by omega)]
        exact fun h => huv (Option.some.inj h)
      rw [encodeChunk_run hpos hr hother]
      exact le_rfl
    case pos =>
      subst huv
      rw [encodeChunk_run hp hp16 hend, ← List.append_assoc, List.replicate_append_replicate]
      by_cases hfit : r + p ≤ 16
      · have hend' : endsRun u (r + p) 16 rest := hend.imp_right (by omega)
        rw [encodeChunk_run (by omega) hfit hend']
        simp
      · have hsplit : List.replicate (r + p) u ++ rest
            = List.replicate 16 u ++ (List.replicate (r + p - 16) u ++ rest) := by
          rw [← List.append_assoc, List.replicate_append_replicate]
          congr 2
          omega
        rw [hsplit, encodeChunk_run (by omega) le_rfl (.inr rfl)]
        exact Nat.succ_le_succ (ih (by omega) (by omega))

/-- The bytes that fill a chunk are at least as many as those that encode it. -/
theorem encodeChunk_length_le_of_fillChunk {m : Nat} {bytes : List Byte} {p : List Nibble × List Byte}
    (h : fillChunk m bytes = some p) : (encodeChunk p.1).length + p.2.length ≤ bytes.length := by
  induction bytes generalizing m p with
  | nil =>
    match m with
    | 0 => cases h; rfl
    | m + 1 => cases h
  | cons b rest ih =>
    rcases Nat.eq_zero_or_pos m with rfl | hm
    · cases (fillChunk_zero _).symm.trans h
      exact (Nat.zero_add _).le
    · rw [fillChunk_cons hm] at h
      split at h
      · cases h
      · obtain ⟨p', hfill, rfl⟩ := Option.map_eq_some_iff.mp h
        have hrest := ih hfill
        have hrun := encodeChunk_replicate_append_length_le (one_le_runLengthOf b) (runLengthOf_le b) (runValueOf b) p'.1
        simp only [List.length_cons]
        omega

/-! ### One chunk after another -/

theorem encodeChunks_length_le_of_fillChunks {sizes : List Nat} {bytes : List Byte} {q : List Nibble}
    (h : fillChunks sizes bytes = some q) : (encodeChunks sizes q).length ≤ bytes.length := by
  induction sizes generalizing bytes q with
  | nil => exact Nat.zero_le _
  | cons m sizes ih =>
    obtain ⟨p, hfill, hq⟩ := Option.bind_eq_some_iff.mp h
    obtain ⟨later, hlater, rfl⟩ := Option.map_eq_some_iff.mp hq
    have hm : p.1.length = m := fillChunk_length hfill
    have hchunk := encodeChunk_length_le_of_fillChunk hfill
    have htail := ih hlater
    rw [encodeChunks, List.take_left' hm, List.drop_left' hm, List.length_append]
    omega

/-- Settles O33: chunk by chunk, the maximal runs are the fewest; that they decode to the buffer is R118. -/
theorem reencodingIsNoLonger : Obligations.ReencodingIsNoLonger := by
  intro bytes q w h t ht hq
  refine ⟨?length, decodeBuffer_encodeBuffer (decodeBuffer_length ht hq) ht⟩
  rw [encodeBuffer_eq ht]
  exact encodeChunks_length_le_of_fillChunks hq

end Sys2Proof.Machine
end

section
/-! PROOFS. DEC of a malformed artifact (spec/42_rle_decoder.md R111, R114, R117): each byte that fits leaves a malformed rest, so
DEC ends in one of its three failures. -/

namespace Sys2Proof.Machine

/-! ### A malformed artifact -/

/-- A byte met with room left in the open chunk: its run leaves the chunk, or the bytes behind it fill what is left. -/
theorem fillChunks_cons_byte {m : Nat} (hm : 1 ≤ m) (sizes : List Nat) (b : Byte) (rest : List Byte) :
    fillChunks (m :: sizes) (b :: rest) =
      if m < runLengthOf b then none
      else (fillChunks ((m - runLengthOf b) :: sizes) rest).map (List.replicate (runLengthOf b) (runValueOf b) ++ ·) := by
  rw [fillChunks, fillChunk_cons hm]
  split
  · rfl
  · rw [fillChunks]
    cases fillChunk (m - runLengthOf b) rest with
    | none => rfl
    | some p => simp [Option.map_map, Function.comp_def]

/-! ### The invariant -/

/-- DEC has consumed some bytes of an artifact whose rest does not fill the chunks left. -/
structure DecMalformed (t0 s : State) : Prop where
  frame : sameButDec t0 s
  index_le : s.k.toNat ≤ s.alen.toNat
  count : s.n.toNat = s.position
  count_le : s.n.toNat ≤ s.size
  no_run : s.rl = 0
  ready : s.scanReady
  malformed : fillChunks s.sizesLeft (s.artList.drop s.k.toNat) = none

/-- What a failure of DEC leaves of the state (R114, R117, R158). -/
theorem failDec_frame {t0 u : State} (hframe : sameButDec t0 u) (c : ErrorCause) :
    sameButCursors (u.failDec c) { failedWith t0 c.code with
      errExpect := BitVec.ofNat 32 t0.size, errActual := u.n, idxlen := 0, idx := (u.failDec c).idx } := by
  rw [← hframe.size]
  exact congrArg (fun v : State =>
    { v with errExpect := BitVec.ofNat 32 u.size, errActual := u.n }.raise .dec c) hframe

/-- The three failures of DEC, and the counts they report (R114). -/
structure DecFails (t0 t : State) : Prop where
  frame : ∃ u c, sameButDec t0 u ∧ t = u.failDec c ∧ c.code ∈ streamErrcodes
  exhausted : t.errcode = 0x13 → t.errActual.toNat < t0.size
  excess : t.errcode = 0x33 → t.errActual.toNat = t0.size

section
variable {t0 s : State} (hi : DecMalformed t0 s)
include hi

/-- With every chunk filled a byte is left over, since no byte left would be success. -/
theorem DecMalformed.excess (hover : s.scanOver = true) : s.n.toNat = s.size ∧ s.k ≠ s.alen := by
  have hpos := size_le_position hover
  have hcount := hi.count
  have hle := hi.count_le
  refine ⟨by omega, fun hk => ?_⟩
  have hmal := hi.malformed
  rw [sizesLeft_of_over hover, hk, artList_drop_alen] at hmal
  cases hmal

theorem DecMalformed.inRow (hover : ¬ s.scanOver = true) : s.InRow ∧ s.x.toNat < s.cend.toNat :=
  hi.ready.resolve_right fun h => hover h.1

/-- A run that fits is placed, and the rest is malformed still. -/
theorem DecMalformed.expandRun (hrow : s.InRow) (hx : s.x.toNat < s.cend.toNat) (ht : t0.tilew ≠ 0)
    (hk : s.k.toNat < s.alen.toNat) (hfits : runLengthOf s.fetchRunByte ≤ s.cend.toNat - s.x.toNat) :
    DecMalformed t0 (s.expandRun (runLengthOf s.fetchRunByte) (runValueOf s.fetchRunByte)) := by
  have hw : 1 ≤ s.w.toNat := by have := hrow.cend_le; omega
  have hmal := hi.malformed
  rw [sizesLeft_of_not_over (scanOver_of_inRow hrow hw), artList_drop hk, fillChunks_cons_byte (by omega),
    if_neg (Nat.not_lt.mpr hfits), Option.map_eq_none_iff] at hmal
  set r := runLengthOf s.fetchRunByte
  set v := runValueOf s.fetchRunByte
  have hframe := expandRun_frame s r v
  have hrow' := placeRun_inRow hrow hfits v
  have ht' : (s.placeRun r v).tilew ≠ 0 := by change s.tilew ≠ 0; rwa [hi.frame.tilew]
  have hpos : (s.expandRun r v).position = s.position + r := by
    rw [expandRun_eq, position_closeChunk hrow', placeRun_position hrow hfits]
  have hcount : (s.expandRun r v).n.toNat = (s.expandRun r v).position := by
    rw [expandRun_eq, closeChunk_n, position_closeChunk hrow', placeRun_n hrow hfits hi.count]
  have hindex : (s.expandRun r v).k.toNat = s.k.toNat + 1 := by rw [expandRun_k, toNat_k_succ_of_byte hk]
  exact
    { frame := hi.frame.trans hframe
      index_le := by rw [hindex, hframe.alen]; exact hk
      count := hcount
      count_le := by rw [hcount, hpos, hframe.size]; exact position_add_run_le hrow hfits
      no_run := by rw [expandRun_eq, closeChunk_rl]; exact hi.no_run
      ready := by rw [expandRun_eq]; exact scanReady_closeChunk hrow' (fun _ => hi.no_run) ht'
      malformed := by
        rw [hindex, hframe.artList, expandRun_eq, fillChunks_closeChunk hrow' hw ht',
          sizesLeft_of_not_over (scanOver_of_inRow hrow' hw), placeRun_x hrow hfits, ← Nat.sub_sub]
        exact hmal }

/-- A step fails the operation, or consumes one byte and leaves a malformed rest. -/
theorem DecMalformed.next (ht : t0.tilew ≠ 0) :
    DecFails t0 s.decNext ∨ s.k.toNat < s.alen.toNat ∧ s.decNext.k.toNat = s.k.toNat + 1 ∧ DecMalformed t0 s.decNext := by
  have hsize := hi.frame.size
  by_cases hover : s.scanOver = true
  case pos =>
    obtain ⟨hn, hk⟩ := hi.excess hover
    have hnext : s.decNext = s.failDec .excess := by simp [State.decNext, State.decAtEnd, State.decEnd, hn, hk]
    rw [hnext]
    exact .inl ⟨⟨s, _, hi.frame, rfl, by decide⟩, nofun, fun _ => hn.trans hsize⟩
  case neg =>
    obtain ⟨hrow, hx⟩ := hi.inRow hover
    have hn : s.n.toNat < s.size := by rw [hi.count]; exact position_lt_size hrow hx
    by_cases hk : s.k = s.alen
    case pos =>
      have hnext : s.decNext = s.failDec .exhausted := by
        simp [State.decNext, State.decAtEnd, State.decEnd, hk, Nat.ne_of_lt hn]
      rw [hnext]
      exact .inl ⟨⟨s, _, hi.frame, rfl, by decide⟩, fun _ => hsize ▸ hn, nofun⟩
    case neg =>
      have hbyte : s.decAtEnd = false := (decAtEnd_eq_false_iff s).mpr ⟨Nat.ne_of_lt hn, hk⟩
      have hlt : s.k.toNat < s.alen.toNat :=
        lt_of_le_of_ne hi.index_le fun heq => hk (BitVec.eq_of_toNat_eq heq)
      by_cases hfits : s.x.toNat + runLengthOf s.fetchRunByte ≤ s.cend.toNat
      · rw [decNext_of_byte hbyte hfits]
        exact .inr ⟨hlt, by rw [expandRun_k, toNat_k_succ_of_byte hlt], hi.expandRun hrow hx ht hlt (by omega)⟩
      · have hnext : s.decNext = s.failDec .overrun := by simp [State.decNext, hbyte, Nat.lt_of_not_le hfits]
        rw [hnext]
        exact .inl ⟨⟨s, _, hi.frame, rfl, by decide⟩, nofun, nofun⟩

end

/-! ### The whole operation -/

theorem decMalformed_decInit {s : State} (ht : s.tilew ≠ 0)
    (hq : decodeBuffer s.artList s.w.toNat s.h.toNat s.tilew.toNat = none) : DecMalformed s.decInit s.decInit where
  frame := rfl
  index_le := Nat.zero_le _
  count := by simp [State.position, State.decInit]
  count_le := Nat.zero_le _
  no_run := rfl
  ready := decInit_ready ht
  malformed := by
    rw [sizesLeft_at_row_start (s := s.decInit) ht rfl (decInit_cend s) (Nat.zero_le _)]
    exact hq

/-- With `m` bytes left, DEC fails within `m + 1` steps. -/
theorem DecMalformed.ends {t0 : State} (ht : t0.tilew ≠ 0) (hst : t0.st = .decRun) (hs : t0.script = []) {m : Nat}
    {s : State} (hi : DecMalformed t0 s) (hm : s.k.toNat + m = t0.alen.toNat) :
    ∃ count t, 1 ≤ count ∧ count ≤ m + 1 ∧ Reaches count s t ∧ DecFails t0 t := by
  induction m generalizing s with
  | zero =>
    have hstep := step_of_decRun (hi.frame.st.trans hst) (hi.frame.script.trans hs)
    obtain hfail | ⟨hk, -⟩ := hi.next ht
    · exact ⟨1, _, le_rfl, le_rfl, reaches_succ hstep rfl, hfail⟩
    · rw [hi.frame.alen] at hk
      omega
  | succ m ih =>
    have hstep := step_of_decRun (hi.frame.st.trans hst) (hi.frame.script.trans hs)
    obtain hfail | ⟨-, hk, hi'⟩ := hi.next ht
    · exact ⟨1, _, le_rfl, by omega, reaches_succ hstep rfl, hfail⟩
    · obtain ⟨count, t, -, hcount, hrun, hfail⟩ := ih hi' (by omega)
      exact ⟨count + 1, t, by omega, by omega, reaches_succ hstep hrun, hfail⟩

/-- Settles O31: the bytes left count down, and the step that fails names its cause. -/
theorem decOfMalformedArtifactFails : Obligations.DecOfMalformedArtifactFails := by
  intro s hst hs ht hcap hart hq
  obtain ⟨count, t, hpos, hcount, hrun, ⟨u, c, hframe, rfl, hcode⟩, hexhausted, hexcess⟩ :=
    (decMalformed_decInit ht hq).ends (t0 := s.decInit) (m := s.alen.toNat) ht rfl hs (Nat.zero_add _)
  have hsize : u.size = s.size := hframe.size
  refine ⟨s.decInit, _, count, exec_dec_of_checks hst ht hcap hart, hpos, hcount, hrun, ?frame, ?code, ?expect,
    hexhausted, hexcess⟩
  case frame =>
    have hexpect : (u.failDec c).errExpect = BitVec.ofNat 32 s.size := congrArg (BitVec.ofNat 32) hsize
    rw [hexpect]
    exact failDec_frame hframe c
  case code => exact hcode
  case expect => exact (size_ofNat_toNat u).trans hsize

end Sys2Proof.Machine
end

section
/-! PROOFS. How the cursors of ENC, COUNT and DEC move over a chunk (spec/41_rle_encoder.md R91, R96, R97, spec/42_rle_decoder.md
R114, R115): the three commands share the cursors, and one lemma says what closing a chunk does to them. -/

namespace Sys2Proof.Machine

/-! ### Moving on by some columns -/

/-- With `r` columns consumed and the chunk closed where it is full, the cursors stand where R97 puts them. -/
theorem cursorsMoved_closeChunk {s u : State} {r : Nat} (hw : u.w = s.w) (ht : u.tilew = s.tilew) (hy : u.y = s.y)
    (hcend : u.cend = s.cend) (hx : u.x.toNat = s.x.toNat + r) (hrow : s.y.toNat < s.h.toNat) :
    cursorsMoved r s u.closeChunk := by
  have hh := s.h.isLt
  have hw16 := s.w.isLt
  have hfull : u.x = u.cend ↔ s.x.toNat + r = s.cend.toNat := by rw [← hx, ← hcend, BitVec.toNat_eq]
  rw [← hw] at hw16
  obtain ⟨hne, h⟩ | ⟨heq, hxw, h⟩ | ⟨heq, hxw, h⟩ := closeChunk_cases u
  · have hopen := hne ∘ hfull.mpr
    rw [h]
    exact ⟨fun _ => ⟨hy, hx, hcend⟩, fun hc => absurd hc hopen, fun hc => absurd hc hopen⟩
  · have hclosed := hfull.mp heq
    rw [hx, hw] at hxw
    rw [h, hy, ht, hw, cursorsMoved, toCursor_toNat (show s.y.toNat + 1 < 2 ^ 17 by omega),
      toCursor_toNat (min_tilew_lt s)]
    exact ⟨fun hc => absurd hclosed hc, fun _ hc => absurd hxw hc, fun _ _ => ⟨rfl, rfl, rfl⟩⟩
  · have hclosed := hfull.mp heq
    have hend : (toCursor (min (u.x.toNat + u.tilew.toNat) u.w.toNat)).toNat = min (s.x.toNat + r + s.tilew.toNat) s.w.toNat := by
      rw [toCursor_toNat (by omega), hx, ht, hw]
    rw [hx, hw] at hxw
    rw [h]
    exact ⟨fun hc => absurd hclosed hc, fun _ _ => ⟨hy, hx, hend⟩, fun _ hc => absurd hc hxw⟩

/-! ### The open chunk of the invariant -/

/-- The open chunk while a sample is left (R91, R115): the cursors stand inside it, and it ends where a chunk of the row ends. -/
structure State.ChunkOpen (s : State) : Prop where
  row : s.y.toNat < s.h.toNat
  x_lt : s.x.toNat < s.cend.toNat
  cend_le : s.cend.toNat ≤ s.w.toNat
  cend_eq : s.cend.toNat = min ((s.x.toNat / s.tilew.toNat + 1) * s.tilew.toNat) s.w.toNat

theorem chunkOpen_of_cursorsOk {s : State} (h : s.cursorsOk) (hover : s.scanOver = false) : s.ChunkOpen := by
  obtain ⟨hy, hopen, -⟩ := h
  obtain ⟨hw, hne⟩ := (scanOver_eq_false_iff s).mp hover
  have hrow : s.y.toNat < s.h.toNat := lt_of_le_of_ne hy hne
  obtain ⟨hx, hcend, heq⟩ := hopen (fun h0 => by simp [h0] at hw) hrow
  exact ⟨hrow, hx, hcend, heq⟩

/-- A scan that is over stands behind the last sample exactly. -/
theorem position_eq_size_of_over {s : State} (h : s.cursorsOk) (hover : s.scanOver = true) : s.position = s.size := by
  obtain ⟨hy, -, hx⟩ := h
  have hx0 : s.x = 0 := hx (by simpa [State.scanOver] using hover)
  have hle := size_le_position hover
  have hrows : s.y.toNat * s.w.toNat ≤ s.h.toNat * s.w.toNat := Nat.mul_le_mul_right _ hy
  have hpos : s.position = s.y.toNat * s.w.toNat := by simp [State.position, hx0]
  rw [State.size, Nat.mul_comm] at hle ⊢
  omega

/-- Wherever the cursors move, the element they point to is the next one in the buffer. -/
theorem position_of_moved {s t : State} {r : Nat} (hm : cursorsMoved r s t) (hw : t.w = s.w) :
    t.position = s.position + r := by
  obtain ⟨hinside, hchunk, hrow⟩ := hm
  simp only [State.position, hw]
  by_cases hc : s.x.toNat + r = s.cend.toNat
  · by_cases hxw : s.x.toNat + r = s.w.toNat
    · obtain ⟨hy, hx, -⟩ := hrow hc hxw
      have hx0 : t.x.toNat = 0 := congrArg BitVec.toNat hx
      rw [hy, hx0, Nat.succ_mul, Nat.add_assoc _ _ r, hxw, Nat.add_zero]
    · obtain ⟨hy, hx, -⟩ := hchunk hc hxw
      rw [hy, hx, Nat.add_assoc]
  · obtain ⟨hy, hx, -⟩ := hinside hc
    rw [hy, hx, Nat.add_assoc]

section
variable {s t : State} {r : Nat} (ho : s.ChunkOpen) (hr : s.x.toNat + r ≤ s.cend.toNat)
include ho hr

theorem State.ChunkOpen.position_add_le : s.position + r ≤ s.size := by
  have hcend := ho.cend_le
  calc s.position + r ≤ (s.y.toNat + 1) * s.w.toNat := by rw [State.position, Nat.succ_mul]; omega
    _ ≤ s.h.toNat * s.w.toNat := Nat.mul_le_mul_right _ ho.row
    _ = s.size := Nat.mul_comm _ _

variable (hm : cursorsMoved r s t) (hw : t.w = s.w)
include hm hw

/-- The cursors stay in order: in the same chunk, at the start of the next one, or at the start of the next row. -/
theorem cursorsOk_of_moved (hh : t.h = s.h) (htile : t.tilew = s.tilew) (ht : s.tilew ≠ 0) : t.cursorsOk := by
  obtain ⟨hinside, hchunk, hnext⟩ := hm
  have ht1 := one_le_toNat_of_ne ht
  have hrow := ho.row
  have hxlt := ho.x_lt
  have hcend := ho.cend_le
  have heq := ho.cend_eq
  have hbelow := Nat.div_mul_le_self s.x.toNat s.tilew.toNat
  rw [Nat.succ_mul] at heq
  simp only [State.cursorsOk, hw, hh, htile]
  by_cases hc : s.x.toNat + r = s.cend.toNat
  case neg =>
    obtain ⟨hy, hx, hcend'⟩ := hinside hc
    have hsame : (s.x.toNat + r) / s.tilew.toNat = s.x.toNat / s.tilew.toNat :=
      Nat.div_eq_of_lt_le (by omega) (by rw [Nat.succ_mul]; omega)
    rw [hy, hx, hcend', hsame, Nat.succ_mul]
    refine ⟨hrow.le, fun _ _ => ⟨by omega, hcend, heq⟩, ?_⟩
    rintro (h0 | hlast)
    · have hw0 : s.w.toNat = 0 := congrArg BitVec.toNat h0
      omega
    · omega
  case pos =>
    by_cases hxw : s.x.toNat + r = s.w.toNat
    case pos =>
      obtain ⟨hy, hx, hcend'⟩ := hnext hc hxw
      have hx0 : t.x.toNat = 0 := congrArg BitVec.toNat hx
      rw [hy, hx0, hcend', Nat.zero_div, Nat.zero_add, Nat.one_mul]
      exact ⟨hrow, fun _ _ => ⟨by omega, min_le_right _ _, rfl⟩, fun _ => hx⟩
    case neg =>
      obtain ⟨hy, hx, hcend'⟩ := hchunk hc hxw
      have hstart : s.x.toNat + r = (s.x.toNat / s.tilew.toNat + 1) * s.tilew.toNat := by rw [Nat.succ_mul]; omega
      have hdiv : (s.x.toNat + r) / s.tilew.toNat = s.x.toNat / s.tilew.toNat + 1 := by
        rw [hstart, Nat.mul_div_cancel _ ht1]
      rw [hy, hx, hcend', hdiv, Nat.succ_mul (s.x.toNat / s.tilew.toNat + 1), ← hstart]
      refine ⟨hrow.le, fun _ _ => ⟨by omega, min_le_right _ _, rfl⟩, ?_⟩
      rintro (h0 | hlast)
      · have hw0 : s.w.toNat = 0 := congrArg BitVec.toNat h0
        omega
      · omega

end

end Sys2Proof.Machine
end

section
/-! PROOFS. The step of ENC and COUNT (spec/41_rle_encoder.md R96 to R98, R103): one sample, or the end. -/

namespace Sys2Proof.Machine

/-! ### One sample -/

/-- A scan step changes the cursors it moves, and `ART`. -/
theorem scanSample_update (store : Bool) (s : State) :
    s.scanSample store = { s with
      art := (s.scanSample store).art, k := (s.scanSample store).k, rl := (s.scanSample store).rl
      x := (s.scanSample store).x, y := (s.scanSample store).y, cend := (s.scanSample store).cend } := by
  have hclose : ∀ u : State, u.closeChunk
      = { u with x := u.closeChunk.x, y := u.closeChunk.y, cend := u.closeChunk.cend } := by
    intro u
    obtain ⟨-, h⟩ | ⟨-, -, h⟩ | ⟨-, -, h⟩ := closeChunk_cases u <;> rw [h]
  rw [scanSample_eq, hclose]
  by_cases hends : s.runEnds = true
  · rw [takeSample_of_ends store hends]
  · rw [takeSample_of_open store hends]

theorem scanSample_of_ends (store : Bool) {s : State} (h : s.runEnds = true) :
    (s.scanSample store).art = s.artAfterRun store ∧ (s.scanSample store).k = s.k + 1 ∧ (s.scanSample store).rl = 0 := by
  rw [scanSample_eq, closeChunk_art, closeChunk_k, closeChunk_rl, takeSample_of_ends store h]
  exact ⟨rfl, rfl, rfl⟩

theorem scanSample_of_open (store : Bool) {s : State} (h : ¬ s.runEnds = true) :
    (s.scanSample store).art = s.art ∧ (s.scanSample store).k = s.k
      ∧ (s.scanSample store).rl = BitVec.ofNat 5 (s.rl.toNat + 1) := by
  rw [scanSample_eq, closeChunk_art, closeChunk_k, closeChunk_rl, takeSample_of_open store h]
  exact ⟨rfl, rfl, rfl⟩

theorem scanSample_false_art (s : State) : (s.scanSample false).art = s.art := by
  by_cases hends : s.runEnds = true
  · exact (scanSample_of_ends false hends).1
  · exact (scanSample_of_open false hends).1

theorem inRow_of_chunkOpen {s : State} (ho : s.ChunkOpen) (hrl : s.rl.toNat ≤ 15) : s.InRow :=
  ⟨ho.row, ho.x_lt.le, ho.cend_le, hrl⟩

theorem scanSample_moved (store : Bool) {s : State} (ho : s.ChunkOpen) (hrl : s.rl.toNat ≤ 15) :
    cursorsMoved 1 s (s.scanSample store) := by
  rw [scanSample_eq]
  exact cursorsMoved_closeChunk (takeSample_w store s) (takeSample_tilew store s) (takeSample_y store s)
    (takeSample_cend store s) (takeSample_x (inRow_of_chunkOpen ho hrl) ho.x_lt store) ho.row

/-- With a sample left, the scan stands in an open chunk, and the next byte has room in `ART`. -/
theorem scanOk_of_not_over {s : State} (h : s.scanOk) (hover : s.scanOver = false) :
    s.ChunkOpen ∧ s.rl.toNat ≤ 15 ∧ s.k.toNat < s.size ∧ s.k.toNat < s.cap := by
  obtain ⟨-, hcap, -, hcursors, hrl, -, -, hk⟩ := h
  have ho := chunkOpen_of_cursorsOk hcursors hover
  have hlt := position_lt_size (inRow_of_chunkOpen ho hrl) ho.x_lt
  exact ⟨ho, hrl, by omega, by omega⟩

/-- The open run after one step: closed with the sample that ends it, else one sample longer. -/
theorem scanSample_run (store : Bool) {s : State} (h : s.scanOk) (hover : s.scanOver = false) :
    (sampleEndsRun s → (s.scanSample store).k.toNat = s.k.toNat + 1 ∧ (s.scanSample store).rl = 0)
      ∧ (¬ sampleEndsRun s → (s.scanSample store).k = s.k ∧ (s.scanSample store).rl.toNat = s.rl.toNat + 1) := by
  obtain ⟨ho, hrl, hk, -⟩ := scanOk_of_not_over h hover
  constructor
  · intro hends
    obtain ⟨-, hk', hrl'⟩ := scanSample_of_ends store ((runEnds_iff s).mpr hends)
    exact ⟨by rw [hk', toNat_k_succ hk], hrl'⟩
  · intro hopen
    obtain ⟨-, hk', hrl'⟩ := scanSample_of_open store (hopen ∘ (runEnds_iff s).mp)
    exact ⟨hk', by rw [hrl', toNat_rl_succ (inRow_of_chunkOpen ho hrl)]⟩

/-- The byte of a run that ends goes to `ART[k]`, and to no other element. -/
theorem read_artAfterRun_true {s : State} (hk : s.k.toNat < s.cap) (a : Nat) :
    (s.artAfterRun true).read a = if a = s.k.toNat then s.runByte else s.art.read a := by
  rw [State.artAfterRun, if_pos rfl, read_writeArt]
  simp [hk]

theorem step_of_sample {store : Bool} {s : State} (hst : s.st = scanSeq store) (hs : s.script = [])
    (hover : s.scanOver = false) : step s = .next (s.scanSample store) := by
  rw [step_of_scan hst hs, hover]
  rfl

/-- Settles O20: both commands take the same step, and ENC's alone stores the byte of a run that ends. -/
theorem scanStepConsumesOneSample : Obligations.ScanStepConsumesOneSample := by
  intro s hinv hs hw hy
  have hover : s.scanOver = false := (scanOver_eq_false_iff s).mpr ⟨one_le_toNat_of_ne hw, hy⟩
  obtain ⟨-, -, -, -, henc, hcount, -⟩ := hinv
  constructor
  case left =>
    intro hst
    obtain ⟨hscan, -⟩ := henc hst
    obtain ⟨ho, hrl, -, hk⟩ := scanOk_of_not_over hscan hover
    obtain ⟨hends, hopen⟩ := scanSample_run true hscan hover
    refine ⟨s.scanSample true, step_of_sample hst hs hover, scanSample_update true s, fun h => ?ends, fun h => ?runs,
      scanSample_moved true ho hrl⟩
    case ends =>
      obtain ⟨hart, -⟩ := scanSample_of_ends true ((runEnds_iff s).mpr h)
      rw [hart]
      exact ⟨(read_artAfterRun_true hk _).trans (if_pos rfl), fun a ha => (read_artAfterRun_true hk a).trans (if_neg ha),
        hends h⟩
    case runs => exact ⟨(scanSample_of_open true (h ∘ (runEnds_iff s).mp)).1, hopen h⟩
  case right =>
    intro hst
    obtain ⟨hscan, -⟩ := hcount hst
    obtain ⟨ho, hrl, -⟩ := scanOk_of_not_over hscan hover
    obtain ⟨hends, hopen⟩ := scanSample_run false hscan hover
    have hupdate := scanSample_update false s
    rw [scanSample_false_art] at hupdate
    exact ⟨s.scanSample false, step_of_sample hst hs hover, hupdate, hends, hopen, scanSample_moved false ho hrl⟩

/-! ### The end -/

/-- Settles O21: the scan is over, and its end writes the one result register. -/
theorem scanEndReportsTheCount : Obligations.ScanEndReportsTheCount := by
  intro s hs hend
  have hover : s.scanOver = true := by simpa [State.scanOver] using hend
  have hstep : ∀ store, s.st = scanSeq store → step s = .next (s.scanEnd store) := by
    intro store hst
    rw [step_of_scan hst hs, hover]
    rfl
  exact ⟨fun hst => ⟨s.scanEnd true, hstep true hst, rfl, fun a ha => s.art.read_keepBelow_of_lt ha⟩,
    fun hst => ⟨s.scanEnd false, hstep false hst, rfl⟩⟩

end Sys2Proof.Machine
end

section
/-! PROOFS. The step of DEC (spec/42_rle_decoder.md R114 to R117): the run byte at `ART[k]`, or one of the end tests. -/

namespace Sys2Proof.Machine

/-! ### The run byte -/

theorem execRunByte_of_byte {s : State} (hst : s.st = .decRun) (hn : s.n.toNat ≠ s.size) (hk : s.k ≠ s.alen) (r : Nat)
    (v : Nibble) :
    exec (.runByte r v) s
      = .next (if s.cend.toNat < s.x.toNat + r then s.failDec .overrun else s.expandRun r v) := by
  have hend : ¬ s.decAtEnd = true := Bool.eq_false_iff.mp ((decAtEnd_eq_false_iff s).mpr ⟨hn, hk⟩)
  refine (if_neg (not_not.mpr hst)).trans ((if_neg hend).trans ?_)
  split <;> rfl

/-- Settles O25. -/
theorem runByteIsDataOutsideDec : Obligations.RunByteIsDataOutsideDec :=
  fun _ _ _ hst => if_pos hst

/-- Settles O7: with a byte to read the DEC step is `exec` of what it decodes to. -/
theorem decStepRunsTheFetchedRunByte : Obligations.DecStepRunsTheFetchedRunByte := by
  intro s i hst hs hn hk hdecode
  obtain rfl : decodeRunByte s.fetchRunByte = i := by
    obtain ⟨hi, -⟩ := Prod.mk.inj (Except.ok.inj hdecode)
    exact hi
  have hend : ¬ s.decAtEnd = true := Bool.eq_false_iff.mp ((decAtEnd_eq_false_iff s).mpr ⟨hn, hk⟩)
  rw [step_of_script_nil hs, sequencerStep, hst]
  exact if_neg hend

/-! ### A run that fits -/

/-- With a sample missing, DEC stands in an open chunk. -/
theorem decOk_of_missing {s : State} (h : s.decOk) (hn : s.n.toNat ≠ s.size) : s.ChunkOpen := by
  obtain ⟨-, -, -, -, hcursors, hcount, -⟩ := h
  refine chunkOpen_of_cursorsOk hcursors (Bool.eq_false_iff.mpr fun hover => hn ?_)
  rw [hcount, position_eq_size_of_over hcursors hover]

theorem expandRun_update (s : State) (r : Nat) (v : Nibble) :
    s.expandRun r v = { s with
      idx := (s.expandRun r v).idx, x := (s.expandRun r v).x, y := (s.expandRun r v).y, cend := (s.expandRun r v).cend
      n := (s.expandRun r v).n, k := (s.expandRun r v).k } := by
  rw [expandRun_eq]
  obtain ⟨-, h⟩ | ⟨-, -, h⟩ | ⟨-, -, h⟩ := closeChunk_cases (s.placeRun r v) <;> rw [h] <;> rfl

theorem read_expandRun (s : State) (r : Nat) (v : Nibble) (a : Nat) :
    (s.expandRun r v).idx.read a
      = if s.position ≤ a ∧ a < s.position + r ∧ a < s.cap then v else s.idx.read a := by
  rw [expandRun_eq, closeChunk_idx]
  exact read_writeIdxRun s s.position a v r

section
variable {s : State} {r : Nat} (ho : s.ChunkOpen) (hr : s.x.toNat + r ≤ s.cend.toNat) (v : Nibble)
include ho hr

theorem expandRun_moved : cursorsMoved r s (s.expandRun r v) := by
  have hw := s.w.isLt
  have hcend := ho.cend_le
  have hx : (s.placeRun r v).x.toNat = s.x.toNat + r := toCursor_toNat (by omega)
  rw [expandRun_eq]
  exact cursorsMoved_closeChunk (u := s.placeRun r v) rfl rfl rfl rfl hx ho.row

theorem expandRun_n (hn : s.n.toNat = s.position) : (s.expandRun r v).n.toNat = s.n.toNat + r := by
  have hle := ho.position_add_le hr
  have hlt := size_lt s
  have hplaced : (s.expandRun r v).n = BitVec.ofNat 32 (s.n.toNat + r) := by rw [expandRun_eq, closeChunk_n]; rfl
  rw [hplaced, BitVec.toNat_ofNat]
  exact Nat.mod_eq_of_lt (by omega)

end

/-- Settles O22: the run fits the open chunk, so all of its elements exist. -/
theorem runByteExpandsARunThatFits : Obligations.RunByteExpandsARunThatFits := by
  intro s r v hinv hst hn hk _ _ hr
  obtain ⟨-, -, -, -, -, -, hdec⟩ := hinv
  have hok := hdec hst
  have ho := decOk_of_missing hok hn
  obtain ⟨-, hcap, -, -, -, hcount, -, hkle, -⟩ := hok
  have hle := ho.position_add_le hr
  have hklt : s.k.toNat < s.alen.toNat := lt_of_le_of_ne hkle fun heq => hk (BitVec.eq_of_toNat_eq heq)
  have hexec := execRunByte_of_byte hst hn hk r v
  rw [if_neg (Nat.not_lt.mpr hr)] at hexec
  refine ⟨s.expandRun r v, hexec, expandRun_update s r v, fun a hfrom hto => ?placed, fun a ha => ?kept,
    expandRun_n ho hr v hcount, ?index, expandRun_moved ho hr v⟩
  case placed =>
    have hto' : a < s.position + r := hto
    rw [read_expandRun, if_pos ⟨hfrom, hto, by omega⟩]
  case kept =>
    rw [read_expandRun, if_neg fun ⟨hfrom, hto, _⟩ => ha.elim (Nat.not_lt.mpr hfrom) (Nat.not_le.mpr hto)]
  case index => rw [expandRun_k, toNat_k_succ_of_byte hklt]

/-! ### The failures and the end -/

/-- After a failure of DEC every element of `IDX` is unspecified (R180). -/
theorem read_failDec (s : State) (c : ErrorCause) (a : Nat) :
    (s.failDec c).idx.read a = Config.unspecified 4 (s.idx.draw a + 1) a :=
  s.idx.read_forget a

theorem toNat_errExpect_failDec (s : State) (c : ErrorCause) : (s.failDec c).errExpect.toNat = s.size :=
  size_ofNat_toNat s

/-- Settles O23. -/
theorem runByteOverrunFailsTheDecode : Obligations.RunByteOverrunFailsTheDecode := by
  intro s r v hst hn hk hover
  have hexec := execRunByte_of_byte hst hn hk r v
  rw [if_pos hover] at hexec
  exact ⟨s.failDec .overrun, hexec, failDec_frame (t0 := s) rfl .overrun, toNat_errExpect_failDec s _, read_failDec s _⟩

/-- A failed end test, as the cause it raises. -/
theorem decNext_of_failure {s : State} {code : Byte}
    (h : s.n.toNat = s.size ∧ s.k ≠ s.alen ∧ code = 0x33 ∨ s.n.toNat ≠ s.size ∧ s.k = s.alen ∧ code = 0x13) :
    ∃ c : ErrorCause, c.code = code ∧ s.decNext = s.failDec c := by
  obtain ⟨hn, hk, rfl⟩ | ⟨hn, hk, rfl⟩ := h
  · exact ⟨.excess, rfl, by simp [State.decNext, State.decAtEnd, State.decEnd, hn, hk]⟩
  · exact ⟨.exhausted, rfl, by simp [State.decNext, State.decAtEnd, State.decEnd, hn, hk]⟩

/-- Settles O24: success keeps what the samples read, either failure is one `failDec`. -/
theorem decEndTests : Obligations.DecEndTests := by
  intro s hst hs
  have hstep := step_of_decRun hst hs
  refine ⟨fun hn hk => ?success, fun code hfail => ?failure⟩
  case success =>
    rw [decNext_of_success hn hk] at hstep
    refine ⟨_, hstep, rfl, size_ofNat_toNat s, fun a ha => s.idx.read_keepBelow_of_lt ?_⟩
    rwa [size_ofNat_toNat]
  case failure =>
    obtain ⟨c, rfl, hnext⟩ := decNext_of_failure hfail
    rw [hnext] at hstep
    exact ⟨_, hstep, failDec_frame (t0 := s) rfl c, toNat_errExpect_failDec s c, read_failDec s c⟩

end Sys2Proof.Machine
end

section
/-! PROOFS. What QUANT, ENC, COUNT and DEC do in the issuing step (spec/40_quantizer.md R83, spec/41_rle_encoder.md R94, R103,
spec/42_rle_decoder.md R113): the first failing check is raised, or the operation starts. -/

namespace Sys2Proof.Machine

/-! ### The checks -/

/-- The first check of QUANT that fails (R83). -/
def State.quantCause (s : State) : Option ErrorCause :=
  if s.levels.toNat < 2 ∨ 16 < s.levels.toNat then some .levels
  else if s.cap < s.size then some .capacity
  else if s.pixlen.toNat ≠ s.size then some .length
  else none

/-- The first check of DEC that fails (R113). -/
def State.decCause (s : State) : Option ErrorCause :=
  if s.tilew = 0 then some .tileWidth
  else if s.cap < s.size ∨ s.cap < s.alen.toNat then some .capacity
  else none

theorem quantCause_eq_none_iff (s : State) :
    s.quantCause = none
      ↔ (2 ≤ s.levels.toNat ∧ s.levels.toNat ≤ 16) ∧ s.size ≤ s.cap ∧ s.pixlen.toNat = s.size := by
  unfold State.quantCause
  split
  · next h => exact iff_of_false nofun (by omega)
  · split
    · next h => exact iff_of_false nofun (by omega)
    · split
      · next h => exact iff_of_false nofun fun ⟨_, _, hlen⟩ => h hlen
      · next h => exact iff_of_true rfl (by omega)

theorem decCause_eq_none_iff (s : State) :
    s.decCause = none ↔ s.tilew ≠ 0 ∧ s.size ≤ s.cap ∧ s.alen.toNat ≤ s.cap := by
  unfold State.decCause
  split
  · next h => exact iff_of_false nofun fun ⟨ht, _⟩ => ht h
  · next ht =>
    split
    · next h => exact iff_of_false nofun (by omega)
    · next h => exact iff_of_true rfl ⟨ht, by omega, by omega⟩

theorem quantStart_eq (s : State) :
    quantStart s
      = .next ((s.quantCause.map (s.raise .quant)).getD { s with idxlen := 0, i := 0, st := .quantRun }) := by
  unfold State.quantCause
  by_cases hlevels : s.levels.toNat < 2 ∨ 16 < s.levels.toNat
  · rw [if_pos hlevels]
    exact if_pos hlevels
  · rw [if_neg hlevels]
    refine (if_neg hlevels).trans ?_
    by_cases hcap : s.cap < s.size
    · rw [if_pos hcap]
      exact if_pos hcap
    · rw [if_neg hcap]
      refine (if_neg hcap).trans ?_
      by_cases hlen : s.pixlen.toNat ≠ s.size
      · rw [if_pos hlen]
        exact if_pos hlen
      · rw [if_neg hlen]
        exact if_neg hlen

theorem decStart_eq (s : State) :
    decStart s
      = .next ((s.decCause.map (s.raise .dec)).getD
          { ({ s with idxlen := 0 } : State).startScan with n := 0, st := .decRun }) := by
  unfold State.decCause
  by_cases ht : s.tilew = 0
  · rw [if_pos ht]
    exact if_pos ht
  · rw [if_neg ht]
    refine (if_neg ht).trans ?_
    by_cases hcap : s.cap < s.size ∨ s.cap < s.alen.toNat
    · rw [if_pos hcap]
      exact if_pos hcap
    · rw [if_neg hcap]
      exact if_neg hcap

/-! ### The issuing step -/

/-- Raising clears the command's result anyway, so that it was cleared before the checks does not show. -/
theorem scanCleared_raise (store : Bool) (s : State) (c : ErrorCause) :
    (s.scanCleared store).raise (scanOp store) c = s.beginCommand.raise (scanOp store) c := by
  cases store <;> rfl

section
variable {s : State} (hst : s.st = .idle)
include hst

theorem exec_quant_eq :
    exec .quant s = .next ((s.quantCause.map (s.beginCommand.raise .quant)).getD s.quantInit) :=
  (exec_of_idle rfl hst).trans (quantStart_eq s.beginCommand)

theorem exec_dec_eq : exec .dec s = .next ((s.decCause.map (s.beginCommand.raise .dec)).getD s.decInit) :=
  (exec_of_idle rfl hst).trans (decStart_eq s.beginCommand)

theorem exec_scan_eq (store : Bool) :
    exec (scanInstr store) s
      = .next ((s.scanCause.map (s.beginCommand.raise (scanOp store))).getD (s.scanInit store)) := by
  rw [exec_scanInstr hst, funext (scanCleared_raise store s)]

theorem exec_scan_of_cause (store : Bool) {c : ErrorCause} (hc : s.scanCause = some c) :
    exec (scanInstr store) s = .next (s.beginCommand.raise (scanOp store) c) := by
  rw [exec_scan_eq hst, hc]
  rfl

end

/-! ### Starting -/

theorem sameMemory_of_eq {s t : State} (hpix : t.pix = s.pix) (hidx : t.idx = s.idx) (hart : t.art = s.art) :
    sameMemory s t := by
  rw [sameMemory, hpix, hidx, hart]
  exact ⟨fun _ => rfl, fun _ => rfl, fun _ => rfl⟩

theorem scanInit_sameMemory (store : Bool) (s : State) : sameMemory s (s.scanInit store) :=
  sameMemory_of_eq (by cases store <;> rfl) (scanInit_idx store s) (scanInit_art store s)

/-- Settles O12. -/
theorem quantStartsWhenItsChecksHold : Obligations.QuantStartsWhenItsChecksHold := by
  intro s hst hmin hmax hcap hlen
  exact ⟨s.quantInit, exec_quant_of_checks hst hmin hmax hcap hlen, rfl, sameMemory_of_eq rfl rfl rfl⟩

/-- Settles O13: the two commands start the same scan. -/
theorem encAndCountStartWhenTheirChecksHold : Obligations.EncAndCountStartWhenTheirChecksHold := by
  intro s hst ht hcap hlen
  exact ⟨⟨s.scanInit true, exec_enc_of_checks hst ht hcap hlen, rfl, scanInit_cend true s, scanInit_sameMemory true s⟩,
    s.scanInit false, exec_count_of_checks hst ht hcap hlen, rfl, scanInit_cend false s, scanInit_sameMemory false s⟩

/-- Settles O15. -/
theorem decStartsWhenItsChecksHold : Obligations.DecStartsWhenItsChecksHold := by
  intro s hst ht hcap hart
  exact ⟨s.decInit, exec_dec_of_checks hst ht hcap hart, rfl, decInit_cend s, sameMemory_of_eq rfl rfl rfl⟩

/-! ### Rejecting -/

/-- The checks of QUANT in their order, with the codes of R150. -/
theorem quantCause_of_code {s : State} {code : Byte}
    (h : (s.levels.toNat < 2 ∨ 16 < s.levels.toNat) ∧ code = 0x11
      ∨ (2 ≤ s.levels.toNat ∧ s.levels.toNat ≤ 16) ∧ s.cap < s.size ∧ code = 0x22
      ∨ (2 ≤ s.levels.toNat ∧ s.levels.toNat ≤ 16) ∧ s.size ≤ s.cap ∧ s.pixlen.toNat ≠ s.size ∧ code = 0x12) :
    ∃ c, s.quantCause = some c ∧ c.code = code := by
  unfold State.quantCause
  obtain ⟨hlevels, rfl⟩ | ⟨hlevels, hcap, rfl⟩ | ⟨hlevels, hcap, hlen, rfl⟩ := h
  · exact ⟨.levels, if_pos hlevels, rfl⟩
  · exact ⟨.capacity, (if_neg (by omega)).trans (if_pos hcap), rfl⟩
  · exact ⟨.length, (if_neg (by omega)).trans ((if_neg (Nat.not_lt.mpr hcap)).trans (if_pos hlen)), rfl⟩

/-- Those of ENC and COUNT. -/
theorem scanCause_of_code {s : State} {code : Byte}
    (h : s.tilew = 0 ∧ code = 0x21 ∨ s.tilew ≠ 0 ∧ s.cap < s.size ∧ code = 0x22
      ∨ s.tilew ≠ 0 ∧ s.size ≤ s.cap ∧ s.idxlen.toNat ≠ s.size ∧ code = 0x12) :
    ∃ c, s.scanCause = some c ∧ c.code = code := by
  unfold State.scanCause
  obtain ⟨ht, rfl⟩ | ⟨ht, hcap, rfl⟩ | ⟨ht, hcap, hlen, rfl⟩ := h
  · exact ⟨.tileWidth, if_pos ht, rfl⟩
  · exact ⟨.capacity, (if_neg ht).trans (if_pos hcap), rfl⟩
  · exact ⟨.length, (if_neg ht).trans ((if_neg (Nat.not_lt.mpr hcap)).trans (if_pos hlen)), rfl⟩

/-- Those of DEC. -/
theorem decCause_of_code {s : State} {code : Byte}
    (h : s.tilew = 0 ∧ code = 0x21 ∨ s.tilew ≠ 0 ∧ (s.cap < s.size ∨ s.cap < s.alen.toNat) ∧ code = 0x22) :
    ∃ c, s.decCause = some c ∧ c.code = code := by
  unfold State.decCause
  obtain ⟨ht, rfl⟩ | ⟨ht, hcap, rfl⟩ := h
  · exact ⟨.tileWidth, if_pos ht, rfl⟩
  · exact ⟨.capacity, (if_neg ht).trans (if_pos hcap), rfl⟩

/-- Settles O14: the first failing check is the cause that is raised, and raising clears the command's own results alone. -/
theorem startRejectionsAndTheirPriority : Obligations.StartRejectionsAndTheirPriority := by
  intro s hst code
  refine ⟨fun h => ?quant, fun h => ?scan, fun h => ?dec⟩
  case quant =>
    obtain ⟨c, hcause, rfl⟩ := quantCause_of_code h
    have hexec := exec_quant_eq hst
    rw [hcause] at hexec
    exact ⟨_, hexec, rfl, fun _ => rfl, fun _ => rfl, s.idx.read_forget⟩
  case scan =>
    obtain ⟨c, hcause, rfl⟩ := scanCause_of_code h
    exact ⟨⟨_, exec_scan_of_cause hst true hcause, rfl, fun _ => rfl, fun _ => rfl, s.art.read_forget⟩,
      _, exec_scan_of_cause hst false hcause, rfl, sameMemory_of_eq rfl rfl rfl⟩
  case dec =>
    obtain ⟨c, hcause, rfl⟩ := decCause_of_code h
    have hexec := exec_dec_eq hst
    rw [hcause] at hexec
    exact ⟨_, hexec, rfl, fun _ => rfl, fun _ => rfl, s.idx.read_forget⟩

end Sys2Proof.Machine
end

section
/-! PROOFS. What BBOX and IRECT do in the issuing step (spec/43_geometry.md R129, R135, R136): reject a zero dimension, fault
where U4 says so, else store their results. -/

namespace Sys2Proof.Machine

section
variable {s : State} (hst : s.st = .idle) (hzero : s.w = 0 ∨ s.h = 0)
include hst hzero

theorem exec_bbox_of_zero : exec .bbox s = .next (s.beginCommand.raise .bbox .zeroDimension) :=
  (exec_of_idle rfl hst).trans (if_pos hzero)

theorem exec_irect_of_zero : exec .irect s = .next (s.beginCommand.raise .irect .zeroDimension) :=
  (exec_of_idle rfl hst).trans (if_pos hzero)

end

/-- Settles O17: the one check stands before the angle is looked at. -/
theorem geometryRejectsZeroDimensions : Obligations.GeometryRejectsZeroDimensions := by
  intro s hst hzero
  exact ⟨⟨_, exec_bbox_of_zero hst hzero, rfl, sameMemory_of_eq rfl rfl rfl⟩,
    _, exec_irect_of_zero hst hzero, rfl, sameMemory_of_eq rfl rfl rfl⟩

theorem fitsResult_iff (p : Nat × Nat) : fitsResult p = true ↔ p.1 < 2 ^ 32 ∧ p.2 < 2 ^ 32 := by
  rw [fitsResult, Bool.and_eq_true, decide_eq_true_iff, decide_eq_true_iff]

/-- Numbers that fit the 32-bit registers read back from them. -/
theorem toNat_ofNat_of_fits {p : Nat × Nat} (h : fitsResult p = true) :
    ((BitVec.ofNat 32 p.1).toNat, (BitVec.ofNat 32 p.2).toNat) = p := by
  obtain ⟨h1, h2⟩ := (fitsResult_iff p).mp h
  rw [BitVec.toNat_ofNat, BitVec.toNat_ofNat, Nat.mod_eq_of_lt h1, Nat.mod_eq_of_lt h2]

/-- What the block's `Trig` answers at the angle in `ANGLE`. -/
def State.trigValue (s : State) : TrigValue :=
  trigOf Config.trig s.angle

/-- What IRECT makes of a result: a fault at a zero divisor, the registers where it fits, a fault where it does not. -/
def State.storeRect (s : State) : Option (Nat × Nat) → Result
  | none => .fault .divisorZero
  | some p => if fitsResult p then .next (s.setRect p).finish else .fault .resultTooWide

section
variable {s : State} (hst : s.st = .idle) (hw : s.w ≠ 0) (hh : s.h ≠ 0)
include hst hw hh

/-- BBOX with an area: its results stored, or a fault. -/
theorem exec_bbox_of_area {box : Nat × Nat} (hbox : s.trigValue.bbox s.w.toNat s.h.toNat = box) :
    exec .bbox s = if fitsResult box then .next (s.beginCommand.setBox box).finish else .fault .resultTooWide := by
  subst hbox
  exact (exec_of_idle rfl hst).trans (if_neg (not_or.mpr ⟨hw, hh⟩))

theorem exec_irect_of_area : exec .irect s = s.beginCommand.storeRect (s.trigValue.irect s.w.toNat s.h.toNat) :=
  (exec_of_idle rfl hst).trans (if_neg (not_or.mpr ⟨hw, hh⟩))

/-- BBOX stores results that fit, and changes nothing else but the status. -/
theorem exec_bbox_of_fits {box : Nat × Nat} (hbox : s.trigValue.bbox s.w.toNat s.h.toNat = box) (hfits : fitsResult box = true) :
    ∃ t, exec .bbox s = .next t ∧ sameButCursors t { statusCleared s with done := true, bw := t.bw, bh := t.bh }
      ∧ (t.bw.toNat, t.bh.toNat) = box ∧ sameMemory s t := by
  have hidle : statusCleared s = { statusCleared s with st := .idle } := by rw [← hst]
  rw [exec_bbox_of_area hst hw hh hbox, if_pos hfits, hidle]
  exact ⟨_, rfl, rfl, toNat_ofNat_of_fits hfits, sameMemory_of_eq rfl rfl rfl⟩

/-- IRECT, likewise. -/
theorem exec_irect_of_fits {rect : Nat × Nat} (hrect : s.trigValue.irect s.w.toNat s.h.toNat = some rect)
    (hfits : fitsResult rect = true) :
    ∃ t, exec .irect s = .next t ∧ sameButCursors t { statusCleared s with done := true, iw := t.iw, ih := t.ih }
      ∧ (t.iw.toNat, t.ih.toNat) = rect ∧ sameMemory s t := by
  have hidle : statusCleared s = { statusCleared s with st := .idle } := by rw [← hst]
  rw [exec_irect_of_area hst hw hh, hrect, hidle]
  exact ⟨_, if_pos hfits, rfl, toNat_ofNat_of_fits hfits, sameMemory_of_eq rfl rfl rfl⟩

end

theorem fitsResult_eq_false {p : Nat × Nat} (h : 2 ^ 32 ≤ p.1 ∨ 2 ^ 32 ≤ p.2) : ¬ fitsResult p = true := by
  intro hfits
  obtain ⟨h1, h2⟩ := (fitsResult_iff p).mp hfits
  omega

/-- Settles O16: on the unit circle both results are there, and fit. -/
theorem geometryCompletesOnUnitTrig : Obligations.GeometryCompletesOnUnitTrig := by
  intro s hst hw hh hunit
  constructor
  · exact exec_bbox_of_fits hst hw hh rfl (fitsResult_bbox hunit)
  · obtain ⟨p, hp, hfits⟩ := exists_irect_fits hunit hw hh
    obtain ⟨t, ht, hframe, hres, hmem⟩ := exec_irect_of_fits hst hw hh hp hfits
    exact ⟨t, ht, hframe, by rw [hres, hp], hmem⟩

/-- `irect` has no value exactly at a zero divisor of the thin branch (R131, R136). -/
theorem irectReal_eq_none_iff (w h : ℕ) (s c : ℝ) : irectReal w h s c = none ↔ ThinReal w h s c ∧ (s = 0 ∨ c = 0) := by
  by_cases hthin : ThinReal w h s c
  · by_cases hz : s = 0 ∨ c = 0
    · exact iff_of_true (irectReal_of_zero hthin hz) ⟨hthin, hz⟩
    · refine iff_of_false ?_ fun hboth => hz hboth.2
      obtain hle | hlt := le_or_gt h w
      · rw [irectReal_of_thin_le hthin hz hle]
        nofun
      · rw [irectReal_of_thin_lt hthin hz hlt]
        nofun
  · rw [irectReal_of_not_thin hthin]
    exact iff_of_false nofun fun hboth => hthin hboth.1

/-- Settles O18: the results are those over the real numbers, and the faults the two of U4. -/
theorem geometryFaultsExactlyOnUFour : Obligations.GeometryFaultsExactlyOnUFour := by
  intro s hst hw hh si co box
  have hbox : s.trigValue.bbox s.w.toNat s.h.toNat = box := TrigValue.bbox_eq_bboxReal _ _ _
  have hrect : s.trigValue.irect s.w.toNat s.h.toNat = irectReal s.w.toNat s.h.toNat si co :=
    TrigValue.irect_eq_irectReal _ _ _
  have hnone := irectReal_eq_none_iff s.w.toNat s.h.toNat si co
  refine ⟨⟨fun hfits => ?box, fun hwide => ?boxFault⟩, fun hzero => ?divisor, fun hnz => ?rect⟩
  case box => exact exec_bbox_of_fits hst hw hh hbox ((fitsResult_iff _).mpr hfits)
  case boxFault => rw [exec_bbox_of_area hst hw hh hbox, if_neg (fitsResult_eq_false hwide)]
  case divisor => rw [exec_irect_of_area hst hw hh, hrect, hnone.mpr hzero, State.storeRect]
  case rect =>
    obtain ⟨rect, hsome⟩ := Option.ne_none_iff_exists'.mp (hnz ∘ hnone.mp)
    refine ⟨rect, hsome, fun hfits => ?fits, fun hwide => ?wide⟩
    case fits => exact exec_irect_of_fits hst hw hh (hrect.trans hsome) ((fitsResult_iff _).mpr hfits)
    case wide =>
      rw [exec_irect_of_area hst hw hh, hrect, hsome]
      exact if_neg (fitsResult_eq_false hwide)

end Sys2Proof.Machine
end

section
/-! PROOFS. What a command leads to, said once (spec/44_control.md R140 to R144): every instruction executed in `IDLE` ends in one
of the states listed here, or faults. -/

namespace Sys2Proof.Machine

/-- The states a command executed in `IDLE` can answer. -/
inductive CommandResult (s : State) : State → Prop
  /-- A run byte, which no command is. -/
  | data : CommandResult s s
  /-- CLR. -/
  | cleared : CommandResult s s.beginCommand
  /-- A failed check, or a reserved byte. -/
  | raised (op : Op) (c : ErrorCause) : CommandResult s (s.beginCommand.raise op c)
  /-- BBOX. -/
  | box (p : Nat × Nat) : CommandResult s (s.beginCommand.setBox p).finish
  /-- IRECT. -/
  | rect (p : Nat × Nat) : CommandResult s (s.beginCommand.setRect p).finish
  | quant (h : s.quantCause = none) : CommandResult s s.quantInit
  /-- ENC (`store`) or COUNT. -/
  | scan (store : Bool) (h : s.scanCause = none) : CommandResult s (s.scanInit store)
  | dec (h : s.decCause = none) : CommandResult s s.decInit

section
variable {s t : State} (hst : s.st = .idle)
include hst

theorem commandResult_bbox (hexec : exec .bbox s = .next t) : CommandResult s t := by
  by_cases hzero : s.w = 0 ∨ s.h = 0
  · cases (exec_bbox_of_zero hst hzero).symm.trans hexec
    exact .raised .bbox .zeroDimension
  · obtain ⟨hw, hh⟩ := not_or.mp hzero
    rw [exec_bbox_of_area hst hw hh rfl] at hexec
    split at hexec
    · cases hexec
      exact .box _
    · cases hexec

theorem commandResult_irect (hexec : exec .irect s = .next t) : CommandResult s t := by
  by_cases hzero : s.w = 0 ∨ s.h = 0
  · cases (exec_irect_of_zero hst hzero).symm.trans hexec
    exact .raised .irect .zeroDimension
  · obtain ⟨hw, hh⟩ := not_or.mp hzero
    rw [exec_irect_of_area hst hw hh] at hexec
    unfold State.storeRect at hexec
    split at hexec
    · cases hexec
    · split at hexec
      · cases hexec
        exact .rect _
      · cases hexec

omit hst in
/-- The first failing check raised, or the operation started. -/
theorem commandResult_of_cause (op : Op) {cause : Option ErrorCause} {start : State}
    (hstart : cause = none → CommandResult s start) :
    CommandResult s ((cause.map (s.beginCommand.raise op)).getD start) := by
  cases cause with
  | none => exact hstart rfl
  | some c => exact .raised op c

theorem commandResult_of_exec {i : Instr} (hexec : exec i s = .next t) : CommandResult s t := by
  cases i with
  | quant =>
    cases (exec_quant_eq hst).symm.trans hexec
    exact commandResult_of_cause .quant .quant
  | dec =>
    cases (exec_dec_eq hst).symm.trans hexec
    exact commandResult_of_cause .dec .dec
  | enc =>
    cases (exec_scan_eq hst true).symm.trans hexec
    exact commandResult_of_cause .enc (.scan true)
  | count =>
    cases (exec_scan_eq hst false).symm.trans hexec
    exact commandResult_of_cause .count (.scan false)
  | bbox => exact commandResult_bbox hst hexec
  | irect => exact commandResult_irect hst hexec
  | clr =>
    cases (exec_of_idle rfl hst).symm.trans hexec
    exact .cleared
  | reserved07 | reserved08 _ | reserved10 _ | reserved20 _ | reserved40 _ | reserved80 _ =>
    cases (exec_of_idle rfl hst).symm.trans hexec
    exact .raised .reserved .reservedByte
  | runByte run value =>
    cases (exec_runByte_of_idle hst run value).symm.trans hexec
    exact .data

end

end Sys2Proof.Machine
end

section
/-! PROOFS. The parts of the invariant that every state keeps, running or not (spec/10_state.md R25 to R28, spec/20_memory.md R40,
R46): the flags and error registers agree, and the memories are in order. -/

namespace Sys2Proof.Machine

/-! ### The flags -/

/-- After the common start actions the flags agree (R142). -/
theorem flagsOk_of_cleared {s : State} (hdone : s.done = false) (herr : s.err = false) (hcode : s.errcode = 0)
    (hexpect : s.errExpect = 0) (hactual : s.errActual = 0) : s.flagsOk := by
  rw [State.flagsOk, hdone, herr, hcode, hexpect, hactual]
  exact ⟨nofun, fun _ => rfl, iff_of_true rfl rfl, by decide, fun _ => ⟨rfl, rfl⟩, le_rfl⟩

/-- `finish()` touches `DONE` and the sequencer only (R146). -/
theorem flagsOk_finish {s : State} (h : s.flagsOk) : s.finish.flagsOk := by
  obtain ⟨-, -, hcode⟩ := h
  exact ⟨fun _ => rfl, nofun, hcode⟩

theorem code_legal (c : ErrorCause) : c.code ∈ legalErrcodes ∧ c.code ≠ 0 := by
  cases c <;> decide

/-- Error entry sets `ERRCODE`, `ERR` and `DONE` together; the two counts are 0 unless DEC reports them (R158). -/
theorem flagsOk_of_error {s : State} {c : ErrorCause} (hdone : s.done = true) (herr : s.err = true) (hst : s.st = .idle)
    (hcode : s.errcode = c.code) (hcounts : c.code ∉ streamErrcodes → s.errExpect = 0 ∧ s.errActual = 0)
    (hle : s.errActual.toNat ≤ s.errExpect.toNat) : s.flagsOk := by
  obtain ⟨hlegal, hne⟩ := code_legal c
  have hbusy : s.busy = false := (busy_eq_false_iff s).mpr hst
  rw [State.flagsOk, hdone, herr, hcode, hbusy]
  exact ⟨fun _ => rfl, nofun, iff_of_false hne nofun, hlegal, hcounts, hle⟩

theorem flagsOk_raise {s : State} (hexpect : s.errExpect = 0) (hactual : s.errActual = 0) (op : Op) (c : ErrorCause) :
    (s.raise op c).flagsOk :=
  flagsOk_of_error (raise_done s op c) (raise_err s op c) (raise_st s op c) (raise_errcode s op c)
    (fun _ => ⟨(raise_errExpect s op c).trans hexpect, (raise_errActual s op c).trans hactual⟩)
    (by rw [raise_errExpect, raise_errActual, hexpect, hactual])

/-- DEC reports at most as many samples as it was to place (R117). -/
theorem flagsOk_failDec {s : State} {c : ErrorCause} (hc : c.code ∈ streamErrcodes) (hn : s.n.toNat ≤ s.size) :
    (s.failDec c).flagsOk :=
  flagsOk_of_error (failDec_done s c) (failDec_err s c) (failDec_st s c) (failDec_errcode s c) (fun h => absurd hc h)
    (by rwa [failDec_errExpect, failDec_errActual, size_ofNat_toNat])

/-! ### The memories -/

theorem memoriesOk_setPixlen {s : State} (v : Len) (h : s.memoriesOk) : (s.setPixlen v).memoriesOk := by
  obtain ⟨hpix, hidx, hart, hpixb, hidxb, hartb⟩ := h
  exact ⟨Memory.wf_keepBelow _ hpix, hidx, hart, Memory.below_keepBelow _ hpixb, hidxb, hartb⟩

theorem memoriesOk_setIdxlen {s : State} (v : Len) (h : s.memoriesOk) : (s.setIdxlen v).memoriesOk := by
  obtain ⟨hpix, hidx, hart, hpixb, hidxb, hartb⟩ := h
  exact ⟨hpix, Memory.wf_keepBelow _ hidx, hart, hpixb, Memory.below_keepBelow _ hidxb, hartb⟩

theorem memoriesOk_setAlen {s : State} (v : Len) (h : s.memoriesOk) : (s.setAlen v).memoriesOk := by
  obtain ⟨hpix, hidx, hart, hpixb, hidxb, hartb⟩ := h
  exact ⟨hpix, hidx, Memory.wf_keepBelow _ hart, hpixb, hidxb, Memory.below_keepBelow _ hartb⟩

theorem memoriesOk_raise {s : State} (op : Op) (c : ErrorCause) (h : s.memoriesOk) : (s.raise op c).memoriesOk := by
  cases op with
  | quant | dec => exact memoriesOk_setIdxlen 0 h
  | enc => exact memoriesOk_setAlen 0 h
  | count | bbox | irect | reserved => exact h

theorem memoriesOk_resetEvent {s : State} (h : s.memoriesOk) : s.resetEvent.memoriesOk := by
  obtain ⟨hpix, hidx, hart, -⟩ := h
  exact ⟨Memory.wf_forget hpix, Memory.wf_forget hidx, Memory.wf_forget hart, Memory.below_forget _ _,
    Memory.below_forget _ _, Memory.below_forget _ _⟩

theorem memoriesOk_closeChunk {s : State} (h : s.memoriesOk) : s.closeChunk.memoriesOk := by
  rw [State.memoriesOk, closeChunk_pix, closeChunk_idx, closeChunk_art, closeChunk_cap]
  exact h

theorem memoriesOk_takeSample (store : Bool) {s : State} (h : s.memoriesOk) : (s.takeSample store).memoriesOk := by
  by_cases hends : s.runEnds = true
  · rw [takeSample_of_ends store hends]
    cases store with
    | true =>
      have hstored := memoriesOk_writeArt s.k.toNat s.runByte h
      rw [State.memoriesOk, writeArt_pix, writeArt_idx, writeArt_cap] at hstored
      exact hstored
    | false => exact h
  · rw [takeSample_of_open store hends]
    exact h

theorem memoriesOk_scanSample (store : Bool) {s : State} (h : s.memoriesOk) : (s.scanSample store).memoriesOk := by
  rw [scanSample_eq]
  exact memoriesOk_closeChunk (memoriesOk_takeSample store h)

theorem memoriesOk_quantStep {s : State} (h : s.memoriesOk) : (quantStep s).memoriesOk := by
  unfold quantStep
  split
  · exact memoriesOk_setIdxlen _ h
  · exact memoriesOk_writeIdx _ _ h

theorem memoriesOk_expandRun {s : State} (run : Nat) (value : Nibble) (h : s.memoriesOk) :
    (s.expandRun run value).memoriesOk :=
  memoriesOk_closeChunk (memoriesOk_writeIdxRun s.position value run h)

end Sys2Proof.Machine
end

section
/-! PROOFS. What the invariant says of a running operation is kept by its steps (spec/40_quantizer.md R84, spec/41_rle_encoder.md
R96, spec/42_rle_decoder.md R115). -/

namespace Sys2Proof.Machine

/-! ### The parts of the invariant -/

/-- What the invariant says of every state. -/
def State.restOk (s : State) : Prop :=
  1 ≤ s.cap ∧ s.flagsOk ∧ s.memoriesOk

/-- What the invariant says of the operation that runs. -/
def State.runOk (s : State) : Prop :=
  match s.st with
  | .idle => True
  | .quantRun => s.quantOk
  | .encRun => s.scanOk ∧ s.alen = 0
  | .countRun => s.scanOk ∧ s.rcount = 0
  | .decRun => s.decOk

theorem inv_iff (s : State) : s.Inv ↔ s.restOk ∧ s.runOk := by
  constructor
  · rintro ⟨hcap, hflags, hmem, hquant, henc, hcount, hdec⟩
    refine ⟨⟨hcap, hflags, hmem⟩, ?_⟩
    unfold State.runOk
    split
    · exact trivial
    · next hst => exact hquant hst
    · next hst => exact henc hst
    · next hst => exact hcount hst
    · next hst => exact hdec hst
  · rintro ⟨⟨hcap, hflags, hmem⟩, hrun⟩
    unfold State.runOk at hrun
    refine ⟨hcap, hflags, hmem, fun hst => ?_, fun hst => ?_, fun hst => ?_, fun hst => ?_⟩ <;>
      (rw [hst] at hrun; exact hrun)

theorem runOk_of_idle {s : State} (hst : s.st = .idle) : s.runOk := by
  rw [State.runOk, hst]
  exact trivial

theorem inv_of_idle {s : State} (hst : s.st = .idle) (h : s.restOk) : s.Inv :=
  (inv_iff s).mpr ⟨h, runOk_of_idle hst⟩

/-- Ending an operation without an error. -/
theorem inv_finish {s : State} (h : s.restOk) : s.finish.Inv := by
  obtain ⟨hcap, hflags, hmem⟩ := h
  exact inv_of_idle rfl ⟨hcap, flagsOk_finish hflags, hmem⟩

/-! ### QUANT -/

theorem quantOk_quantStep {s : State} (h : s.quantOk) (hleft : s.i.toNat ≠ s.size) : (quantStep s).quantOk := by
  obtain ⟨hmin, hmax, hcap, hlen, hidxlen, hi⟩ := h
  have hi' : (s.i + 1).toNat = s.i.toNat + 1 := toNat_index_succ (by omega)
  have hle : (s.i + 1).toNat ≤ s.size := by omega
  rw [quantStep_of_sample hleft]
  exact ⟨hmin, hmax, hcap, hlen, hidxlen, hle⟩

/-! ### ENC and COUNT -/

/-- The columns of the open run stand in the open chunk: one more sample keeps the chunk. -/
theorem mod_succ_of_lt_cend {s : State} (ho : s.ChunkOpen) (hx : s.x.toNat + 1 < s.cend.toNat) :
    (s.x.toNat + 1) % s.tilew.toNat = s.x.toNat % s.tilew.toNat + 1 := by
  have heq := ho.cend_eq
  have hdiv := Nat.div_add_mod s.x.toNat s.tilew.toNat
  rw [Nat.succ_mul] at heq
  rw [Nat.mul_comm] at hdiv
  have hlt : s.x.toNat % s.tilew.toNat + 1 < s.tilew.toNat := by omega
  rw [Nat.add_mod_of_add_mod_lt (by rwa [Nat.one_mod_eq_one.mpr (by omega)]), Nat.one_mod_eq_one.mpr (by omega)]

/-- Scan states with the same sizes and one sample more behind the cursors. -/
theorem scanOk_scanSample (store : Bool) {s : State} (h : s.scanOk) (hover : s.scanOver = false) :
    (s.scanSample store).scanOk := by
  obtain ⟨ho, hrl, -, -⟩ := scanOk_of_not_over h hover
  obtain ⟨hends, hopen⟩ := scanSample_run store h hover
  obtain ⟨ht, hcap, hlen, -, -, hrlx, hsame, hk⟩ := h
  have hframe := scanSample_frame store s
  have hw := hframe.w
  have htile := hframe.tilew
  have hh : (s.scanSample store).h = s.h := (congrArg State.h hframe :)
  have hidx : (s.scanSample store).idx = s.idx := (congrArg State.idx hframe :)
  have hidxlen : (s.scanSample store).idxlen = s.idxlen := (congrArg State.idxlen hframe :)
  have hmoved := scanSample_moved store ho hrl
  have hpos : (s.scanSample store).position = s.position + 1 := position_of_moved hmoved hw
  have hcursors := cursorsOk_of_moved ho ho.x_lt hmoved hw hh htile ht
  refine ⟨by rwa [htile], by rwa [hframe.size, hframe.cap], by rwa [hidxlen, hframe.size], hcursors, ?_⟩
  rw [hpos, hidx, htile]
  by_cases hrun : sampleEndsRun s
  case pos =>
    obtain ⟨hk', hrl'⟩ := hends hrun
    rw [hk', hrl']
    exact ⟨Nat.zero_le _, Nat.zero_le _, nofun, by change s.k.toNat + 1 + 0 ≤ _; omega⟩
  case neg =>
    obtain ⟨hk', hrl'⟩ := hopen hrun
    obtain ⟨hchunk, hfull, hnext⟩ : s.x.toNat + 1 ≠ s.cend.toNat ∧ s.rl.toNat + 1 ≠ 16
        ∧ s.idx.read (s.position + 1) = s.idx.read s.position := by
      simpa only [sampleEndsRun, not_or, not_not] using hrun
    have hxlt := ho.x_lt
    obtain ⟨-, hx, -⟩ := hmoved.1 hchunk
    rw [hk', hrl', hx, mod_succ_of_lt_cend ho (by omega), hnext]
    refine ⟨by omega, by omega, fun j hj => ?_, by omega⟩
    match j with
    | 0 => rfl
    | j + 1 =>
      rw [← hsame j (by omega)]
      congr 1
      omega

/-! ### DEC -/

theorem decOk_expandRun {s : State} {r : Nat} (v : Nibble) (h : s.decOk) (hn : s.n.toNat ≠ s.size) (hk : s.k ≠ s.alen)
    (hpos : 1 ≤ r) (hr : s.x.toNat + r ≤ s.cend.toNat) : (s.expandRun r v).decOk := by
  have ho := decOk_of_missing h hn
  obtain ⟨ht, hcap, hart, hidxlen, -, hcount, -, hkle, hkn⟩ := h
  have hle := ho.position_add_le hr
  have hframe := expandRun_frame s r v
  have hw : (s.expandRun r v).w = s.w := (congrArg State.w hframe :)
  have hh : (s.expandRun r v).h = s.h := (congrArg State.h hframe :)
  have hidxlen' : (s.expandRun r v).idxlen = s.idxlen := (congrArg State.idxlen hframe :)
  have hmoved := expandRun_moved ho hr v
  have hn' := expandRun_n ho hr v hcount
  have hklt : s.k.toNat < s.alen.toNat := lt_of_le_of_ne hkle fun heq => hk (BitVec.eq_of_toNat_eq heq)
  have hk' : (s.expandRun r v).k.toNat = s.k.toNat + 1 := by rw [expandRun_k, toNat_k_succ_of_byte hklt]
  refine ⟨by rwa [hframe.tilew], by rwa [hframe.size, hframe.cap], by rwa [hframe.alen, hframe.cap],
    hidxlen'.trans hidxlen, cursorsOk_of_moved ho hr hmoved hw hh hframe.tilew ht, ?_⟩
  rw [position_of_moved hmoved hw, hn', hk', hframe.size, hframe.alen]
  exact ⟨by omega, by omega, by omega, by omega⟩

end Sys2Proof.Machine
end

section
/-! PROOFS. Every step keeps the invariant: the sequencer's steps, the commands, the host's accesses and reset. -/

namespace Sys2Proof.Machine

/-! ### The sequencer's steps -/

theorem inv_quantStep {s : State} (hst : s.st = .quantRun) (h : s.restOk) (hrun : s.quantOk) : (quantStep s).Inv := by
  obtain ⟨hcap, hflags, hmem⟩ := h
  have hmem' := memoriesOk_quantStep hmem
  by_cases hend : s.i.toNat = s.size
  · rw [quantStep_of_end hend]
    exact inv_finish ⟨hcap, hflags, memoriesOk_setIdxlen _ hmem⟩
  · have hrun' := quantOk_quantStep hrun hend
    rw [quantStep_of_sample hend] at hmem' hrun' ⊢
    refine (inv_iff _).mpr ⟨⟨hcap, hflags, hmem'⟩, ?_⟩
    simp only [State.runOk, hst]
    exact hrun'

/-- One step of ENC or COUNT, the result register of the command staying 0 until the end. -/
theorem inv_scanStep (store : Bool) {s : State} (hst : s.st = scanSeq store) (h : s.Inv) :
    (if s.scanOver then s.scanEnd store else s.scanSample store : State).Inv := by
  obtain ⟨⟨hcap, hflags, hmem⟩, hrun⟩ := (inv_iff s).mp h
  split
  case isTrue =>
    cases store with
    | true => exact inv_finish ⟨hcap, hflags, memoriesOk_setAlen _ hmem⟩
    | false => exact inv_finish ⟨hcap, hflags, hmem⟩
  case isFalse hover =>
    have hover' := Bool.eq_false_iff.mpr hover
    have hmem' := memoriesOk_scanSample store hmem
    have hrest : (s.scanSample store).restOk := by
      refine ⟨?_, ?_, hmem'⟩ <;> rw [scanSample_update]
      · exact hcap
      · exact hflags
    have hframe := scanSample_frame store s
    refine (inv_iff _).mpr ⟨hrest, ?_⟩
    simp only [State.runOk, hframe.st, hst] at hrun ⊢
    cases store with
    | true => exact ⟨scanOk_scanSample true hrun.1 hover', (congrArg State.alen hframe :).trans hrun.2⟩
    | false => exact ⟨scanOk_scanSample false hrun.1 hover', (congrArg State.rcount hframe :).trans hrun.2⟩

theorem inv_failDec {s : State} {c : ErrorCause} (h : s.restOk) (hc : c.code ∈ streamErrcodes) (hn : s.n.toNat ≤ s.size) :
    (s.failDec c).Inv := by
  obtain ⟨hcap, -, hmem⟩ := h
  exact inv_of_idle rfl ⟨hcap, flagsOk_failDec hc hn, memoriesOk_setIdxlen 0 hmem⟩

theorem inv_decNext {s : State} (hst : s.st = .decRun) (h : s.restOk) (hrun : s.decOk) : s.decNext.Inv := by
  have ⟨_, _, _, _, _, _, hn, _, _⟩ := hrun
  have ⟨hcap, hflags, hmem⟩ := h
  unfold State.decNext
  split
  case isTrue =>
    unfold State.decEnd
    split
    · split
      · exact inv_finish ⟨hcap, hflags, memoriesOk_setIdxlen _ hmem⟩
      · exact inv_failDec h (by decide) hn
    · exact inv_failDec h (by decide) hn
  case isFalse hend =>
    split
    case isTrue => exact inv_failDec h (by decide) hn
    case isFalse hfits =>
      obtain ⟨hmissing, hk⟩ := (decAtEnd_eq_false_iff s).mp (Bool.eq_false_iff.mpr hend)
      set r := runLengthOf s.fetchRunByte
      set v := runValueOf s.fetchRunByte
      have hmem' := memoriesOk_expandRun r v hmem
      have hrest : (s.expandRun r v).restOk := by
        refine ⟨?_, ?_, hmem'⟩ <;> rw [expandRun_update]
        · exact hcap
        · exact hflags
      refine (inv_iff _).mpr ⟨hrest, ?_⟩
      simp only [State.runOk, (expandRun_frame s r v).st, hst]
      exact decOk_expandRun v hrun hmissing hk (one_le_runLengthOf _) (Nat.le_of_not_lt hfits)

theorem inv_sequencerStep {s t : State} (h : s.Inv) (hstep : sequencerStep s = .next t) : t.Inv := by
  obtain ⟨hrest, hrun⟩ := (inv_iff s).mp h
  cases hst : s.st with
  | idle =>
    cases (sequencerStep_idle hst).symm.trans hstep
    exact h
  | quantRun =>
    cases (sequencerStep_quant hst).symm.trans hstep
    rw [State.runOk, hst] at hrun
    exact inv_quantStep hst hrest hrun
  | encRun =>
    cases (sequencerStep_enc hst).symm.trans hstep
    exact inv_scanStep true hst h
  | countRun =>
    cases (sequencerStep_count hst).symm.trans hstep
    exact inv_scanStep false hst h
  | decRun =>
    cases (sequencerStep_decRun hst).symm.trans hstep
    rw [State.runOk, hst] at hrun
    exact inv_decNext hst hrest hrun

/-! ### The commands -/

theorem restOk_beginCommand {s : State} (h : s.restOk) : s.beginCommand.restOk := by
  obtain ⟨hcap, -, hmem⟩ := h
  exact ⟨hcap, flagsOk_of_cleared rfl rfl rfl rfl rfl, hmem⟩

theorem inv_raise {s : State} (h : s.restOk) (op : Op) (c : ErrorCause) : (s.beginCommand.raise op c).Inv := by
  obtain ⟨hcap, -, hmem⟩ := h
  exact inv_of_idle (raise_st _ _ _) ⟨by rwa [raise_cap], flagsOk_raise rfl rfl op c, memoriesOk_raise op c hmem⟩

/-- The cursor start of R95 is in order. -/
theorem cursorsOk_of_start {s : State} (ht : s.tilew ≠ 0) (hy : s.y = 0) (hx : s.x = 0)
    (hcend : s.cend.toNat = min s.tilew.toNat s.w.toNat) : s.cursorsOk := by
  have ht1 := one_le_toNat_of_ne ht
  have hx0 : s.x.toNat = 0 := congrArg BitVec.toNat hx
  have hy0 : s.y.toNat = 0 := congrArg BitVec.toNat hy
  rw [State.cursorsOk, hx0, hy0, hcend, Nat.zero_div, Nat.zero_add, Nat.one_mul]
  refine ⟨Nat.zero_le _, fun hw _ => ⟨?_, min_le_right _ _, rfl⟩, fun _ => hx⟩
  have hw1 := one_le_toNat_of_ne hw
  omega

section
variable {s : State} (h : s.restOk)
include h

theorem inv_quantInit (hcause : s.quantCause = none) : s.quantInit.Inv := by
  obtain ⟨⟨hmin, hmax⟩, hcap, hlen⟩ := (quantCause_eq_none_iff s).mp hcause
  obtain ⟨hone, -, hmem⟩ := h
  have hrun : s.quantInit.quantOk := ⟨hmin, hmax, hcap, hlen, rfl, Nat.zero_le _⟩
  exact (inv_iff _).mpr ⟨⟨hone, flagsOk_of_cleared rfl rfl rfl rfl rfl, hmem⟩, hrun⟩

theorem restOk_scanInit (store : Bool) : (s.scanInit store).restOk := by
  obtain ⟨hcap, hflags, hmem⟩ := restOk_beginCommand h
  cases store
  · exact ⟨hcap, flagsOk_of_cleared rfl rfl rfl rfl rfl, hmem⟩
  · exact ⟨hcap, flagsOk_of_cleared rfl rfl rfl rfl rfl, hmem⟩

theorem inv_scanInit (store : Bool) (hcause : s.scanCause = none) : (s.scanInit store).Inv := by
  obtain ⟨ht, hcap, hlen⟩ := (scanCause_eq_none_iff s).mp hcause
  have hcend := scanInit_cend store s
  have hscan : (s.scanInit store).scanOk := by
    refine ⟨by rwa [scanInit_tilew], by rwa [scanInit_size, scanInit_cap], ?_, ?_, Nat.zero_le _, Nat.zero_le _, nofun,
      Nat.zero_le _⟩
    · rw [scanInit_size]
      cases store <;> exact hlen
    · exact cursorsOk_of_start (by rwa [scanInit_tilew]) rfl rfl (by rwa [scanInit_tilew, scanInit_w])
  refine (inv_iff _).mpr ⟨restOk_scanInit h store, ?_⟩
  cases store <;> exact ⟨hscan, rfl⟩

theorem inv_decInit (hcause : s.decCause = none) : s.decInit.Inv := by
  obtain ⟨ht, hcap, hart⟩ := (decCause_eq_none_iff s).mp hcause
  obtain ⟨hone, -, hmem⟩ := h
  have hpos : s.decInit.n.toNat = s.decInit.position := by simp [State.position, State.decInit]
  have hrun : s.decInit.decOk :=
    ⟨ht, hcap, hart, rfl, cursorsOk_of_start ht rfl rfl (decInit_cend s), hpos, Nat.zero_le _, Nat.zero_le _, Nat.zero_le _⟩
  exact (inv_iff _).mpr ⟨⟨hone, flagsOk_of_cleared rfl rfl rfl rfl rfl, hmem⟩, hrun⟩

theorem inv_of_commandResult {t : State} (hst : s.st = .idle) (hresult : CommandResult s t) : t.Inv := by
  have hcleared := restOk_beginCommand h
  cases hresult with
  | data => exact inv_of_idle hst h
  | cleared => exact inv_of_idle hst hcleared
  | raised op c => exact inv_raise h op c
  | box p | rect p => exact inv_finish hcleared
  | quant hcause => exact inv_quantInit h hcause
  | scan store hcause => exact inv_scanInit h store hcause
  | dec hcause => exact inv_decInit h hcause

end

/-! ### The host -/

theorem restOk_resetEvent {s : State} (h : s.restOk) : s.resetEvent.restOk := by
  obtain ⟨hcap, -, hmem⟩ := h
  exact ⟨hcap, flagsOk_of_cleared rfl rfl rfl rfl rfl, memoriesOk_resetEvent hmem⟩

theorem restOk_writeReg {s : State} (n v : Nat) (h : s.restOk) : (s.writeReg n v).restOk := by
  have ⟨hcap, hflags, hmem⟩ := h
  match n with
  | 0 | 1 | 2 | 3 | 4 | 5 | _ + 9 => exact h
  | 6 => exact ⟨hcap, hflags, memoriesOk_setPixlen _ hmem⟩
  | 7 => exact ⟨hcap, hflags, memoriesOk_setIdxlen _ hmem⟩
  | 8 => exact ⟨hcap, hflags, memoriesOk_setAlen _ hmem⟩

/-- The element stored, without the test that the block has it. -/
def State.storeBuf (s : State) (b : Buf) (a v : Nat) : State :=
  match b with
  | .pix => { s with pix := s.pix.write a (BitVec.ofNat 24 v) }
  | .idx => { s with idx := s.idx.write a (BitVec.ofNat 4 v) }
  | .art => { s with art := s.art.write a (BitVec.ofNat 8 v) }

theorem writeBuf_of_lt {s : State} {a : Nat} (h : a < s.cap) (b : Buf) (v : Nat) : s.writeBuf b a v = s.storeBuf b a v := by
  cases b <;> exact if_pos h

/-- At or beyond `CAP` a write has no effect (U9). -/
theorem writeBuf_of_le {s : State} {a : Nat} (h : s.cap ≤ a) (b : Buf) (v : Nat) : s.writeBuf b a v = s := by
  cases b <;> exact if_neg (Nat.not_lt.mpr h)

/-- A buffer write changes the memories only. -/
theorem writeBuf_update (s : State) (b : Buf) (a v : Nat) :
    s.writeBuf b a v = { s with
      pix := (s.writeBuf b a v).pix, idx := (s.writeBuf b a v).idx, art := (s.writeBuf b a v).art } := by
  obtain h | h := Nat.lt_or_ge a s.cap
  · rw [writeBuf_of_lt h]
    cases b <;> rfl
  · rw [writeBuf_of_le h]

theorem restOk_writeBuf {s : State} (b : Buf) (a v : Nat) (h : s.restOk) : (s.writeBuf b a v).restOk := by
  obtain ⟨hcap, hflags, hmem⟩ := h
  refine ⟨?_, ?_, memoriesOk_writeBuf b a v hmem⟩ <;> rw [writeBuf_update]
  · exact hcap
  · exact hflags

theorem inv_busyHostStep {s t : State} {a : HostAction} (h : s.Inv) (hstep : busyHostStep a s = .next t) : t.Inv := by
  cases a with
  | wait | pass => exact inv_sequencerStep (by exact h) hstep
  | reset =>
    cases hstep
    exact inv_of_idle rfl (restOk_resetEvent ((inv_iff s).mp h).1)
  | regWrite _ _ | angleWrite _ | bufWrite _ _ _ | regRead _ | bufRead _ _ =>
    cases hstep
    exact h

theorem inv_idleHostStep {s t : State} {a : HostAction} (hst : s.st = .idle) (h : s.restOk)
    (hstep : idleHostStep a s = .next t) : t.Inv := by
  cases a with
  | regWrite n v =>
    by_cases hn : n = 14
    · rw [idleHostStep, if_pos hn] at hstep
      exact inv_of_commandResult h hst (commandResult_of_exec hst hstep)
    · rw [idleHostStep, if_neg hn] at hstep
      cases hstep
      exact inv_of_idle ((writeReg_st s n v).trans hst) (restOk_writeReg n v h)
  | bufWrite b i v =>
    cases hstep
    exact inv_of_idle ((writeBuf_st s b i v).trans hst) (restOk_writeBuf b i v h)
  | reset =>
    cases hstep
    exact inv_of_idle rfl (restOk_resetEvent h)
  | angleWrite _ | regRead _ | bufRead _ _ | wait | pass =>
    cases hstep
    exact inv_of_idle hst h

/-- Settles O36: by whose step it is, and in which state. -/
theorem everyStepKeepsTheInvariant : Obligations.EveryStepKeepsTheInvariant := by
  intro s t h hstep
  match hs : s.script with
  | [] =>
    rw [step_of_script_nil hs] at hstep
    exact inv_sequencerStep h hstep
  | a :: rest =>
    have h' : State.Inv { s with script := rest } := h
    by_cases hst : s.st = .idle
    · rw [step_of_idle hst hs] at hstep
      exact inv_idleHostStep (s := { s with script := rest }) hst ((inv_iff _).mp h').1 hstep
    · rw [step_of_busy hst hs] at hstep
      exact inv_busyHostStep h' hstep

end Sys2Proof.Machine
end

section
/-! PROOFS. The reset state has the invariant, and what the invariant says of `STATUS` (spec/10_state.md R25, R38,
spec/30_encoding.md R65). -/

namespace Sys2Proof.Machine

/-- Settles O37: no flag is set, no memory lists an element, no operation runs. -/
theorem resetStateHasTheInvariant : Obligations.ResetStateHasTheInvariant := by
  obtain ⟨hpix, hidx, hart⟩ := reset_memories_wf
  have hmem : State.reset.memoriesOk := ⟨hpix, hidx, hart, nofun, nofun, nofun⟩
  exact inv_of_idle rfl ⟨Nat.le_add_left 1 _, flagsOk_of_cleared rfl rfl rfl rfl rfl, hmem⟩

/-- Bit 0 of `STATUS` is `BUSY` (R65). -/
theorem status_bit_zero (s : State) : s.status.getLsbD 0 = s.busy := by
  unfold State.status
  cases s.err <;> cases s.done <;> cases s.busy <;> rfl

/-- An error is reported with `DONE`, and `DONE` only after the operation has ended: of the eight values four are left. -/
theorem status_of_flagsOk {s : State} (h : s.flagsOk) :
    s.status = 0 ∨ s.status = 1 ∨ s.status = 2 ∨ s.status = 6 := by
  obtain ⟨herr, hbusy, -⟩ := h
  unfold State.status
  cases hb : s.busy with
  | true =>
    have hdone := hbusy hb
    have hnoerr : s.err = false := Bool.eq_false_iff.mpr fun he => by
      rw [herr he] at hdone
      cases hdone
    rw [hnoerr, hdone]
    exact .inr (.inl rfl)
  | false =>
    cases he : s.err with
    | true =>
      rw [herr he]
      exact .inr (.inr (.inr rfl))
    | false =>
      cases s.done with
      | true => exact .inr (.inr (.inl rfl))
      | false => exact .inl rfl

/-- Settles O38. -/
theorem statusTakesFourValues : Obligations.StatusTakesFourValues := by
  intro s hinv
  obtain ⟨-, hflags, -⟩ := hinv
  refine ⟨status_of_flagsOk hflags, ?_⟩
  rw [status_bit_zero, busy_iff]

end Sys2Proof.Machine
end

section
/-! PROOFS. What a step of the sequencer leads to, said once (spec/40_quantizer.md R84, spec/41_rle_encoder.md R96, R103,
spec/42_rle_decoder.md R114), and the whole-machine rules that follow: who writes the operand registers, which memory a step
writes, and when the cursors move. -/

namespace Sys2Proof.Machine

/-- The states a sequencer step can answer, by the operation that runs. -/
inductive SequencerResult (s : State) : State → Prop
  /-- Nothing runs. -/
  | rest (hst : s.st = .idle) : SequencerResult s s
  | quantEnd (hst : s.st = .quantRun) : SequencerResult s (s.setIdxlen (BitVec.ofNat 32 s.size)).finish
  | quantSample (hst : s.st = .quantRun) (hleft : s.i.toNat ≠ s.size) : SequencerResult s (quantStep s)
  /-- ENC (`store`) or COUNT. -/
  | scanEnd (store : Bool) (hst : s.st = scanSeq store) : SequencerResult s (s.scanEnd store)
  | scanSample (store : Bool) (hst : s.st = scanSeq store) : SequencerResult s (s.scanSample store)
  | decSuccess (hst : s.st = .decRun) : SequencerResult s (s.setIdxlen (BitVec.ofNat 32 s.size)).finish
  | decFailure (hst : s.st = .decRun) (c : ErrorCause) : SequencerResult s (s.failDec c)
  | decByte (hst : s.st = .decRun) (run : Nat) (value : Nibble) : SequencerResult s (s.expandRun run value)

section
variable {s t : State}

theorem sequencerResult_scan {store : Bool} (hst : s.st = scanSeq store) :
    SequencerResult s (if s.scanOver then s.scanEnd store else s.scanSample store) := by
  split
  · exact .scanEnd store hst
  · exact .scanSample store hst

theorem sequencerResult_dec (hst : s.st = .decRun) : SequencerResult s s.decNext := by
  unfold State.decNext State.decEnd
  split
  · split
    · split
      · exact .decSuccess hst
      · exact .decFailure hst _
    · exact .decFailure hst _
  · split
    · exact .decFailure hst _
    · exact .decByte hst _ _

theorem sequencerResult_of_step (hstep : sequencerStep s = .next t) : SequencerResult s t := by
  cases hst : s.st with
  | idle =>
    cases (sequencerStep_idle hst).symm.trans hstep
    exact .rest hst
  | quantRun =>
    cases (sequencerStep_quant hst).symm.trans hstep
    by_cases hend : s.i.toNat = s.size
    · rw [quantStep_of_end hend]
      exact .quantEnd hst
    · exact .quantSample hst hend
  | encRun =>
    cases (sequencerStep_enc hst).symm.trans hstep
    exact sequencerResult_scan (store := true) hst
  | countRun =>
    cases (sequencerStep_count hst).symm.trans hstep
    exact sequencerResult_scan (store := false) hst
  | decRun =>
    cases (sequencerStep_decRun hst).symm.trans hstep
    exact sequencerResult_dec hst

/-! ### The operand registers -/

theorem sameOperands_of_sequencerResult (h : SequencerResult s t) : sameOperands s t := by
  cases h with
  | rest | quantEnd | decSuccess | decFailure => exact ⟨rfl, rfl, rfl, rfl, rfl, rfl, rfl, rfl⟩
  | quantSample hst hleft =>
    rw [quantStep_frame hleft]
    exact ⟨rfl, rfl, rfl, rfl, rfl, rfl, rfl, rfl⟩
  | scanEnd store => cases store <;> exact ⟨rfl, rfl, rfl, rfl, rfl, rfl, rfl, rfl⟩
  | scanSample store =>
    rw [scanSample_update]
    exact ⟨rfl, rfl, rfl, rfl, rfl, rfl, rfl, rfl⟩
  | decByte _ run value =>
    rw [expandRun_update]
    exact ⟨rfl, rfl, rfl, rfl, rfl, rfl, rfl, rfl⟩

theorem sameOperands_of_commandResult (h : CommandResult s t) : sameOperands s t := by
  cases h with
  | data | cleared | raised op c | box p | rect p => simp [sameOperands]
  | quant => simp [sameOperands, State.quantInit]
  | scan store => cases store <;> simp [sameOperands, State.scanInit, State.scanCleared]
  | dec => simp [sameOperands, State.decInit]

/-- A register write leaves the operands alone unless it names one of registers 0 to 6. -/
theorem sameOperands_writeReg {n : Nat} (hn : 6 < n) (v : Nat) : sameOperands s (s.writeReg n v) := by
  obtain ⟨n, rfl⟩ : ∃ m, n = m + 7 := ⟨n - 7, by omega⟩
  match n with
  | 0 | 1 | _ + 2 => exact ⟨rfl, rfl, rfl, rfl, rfl, rfl, rfl, rfl⟩

/-- The host actions that may change an operand register, in a state that is idle or not. -/
def HostAction.writesOperand (a : HostAction) (idle : Prop) : Prop :=
  a = .reset ∨ idle ∧ ((∃ n v, a = .regWrite n v ∧ n ≤ 6) ∨ ∃ v, a = .angleWrite v)

/-- `s` with the host in `WAIT`: `STATUS` read, and the wait still to be done (log 7). -/
def State.waiting (s : State) : State :=
  { s.answer (s.readReg 15) with script := .wait :: s.script }

theorem sameOperands_of_busy {a : HostAction} (ha : a ≠ .reset) (hstep : busyHostStep a s = .next t) :
    sameOperands s t := by
  cases a with
  | wait => exact sameOperands_of_sequencerResult (s := s.waiting) (sequencerResult_of_step hstep)
  | pass => exact sameOperands_of_sequencerResult (sequencerResult_of_step hstep)
  | reset => exact absurd rfl ha
  | regWrite _ _ | angleWrite _ | bufWrite _ _ _ | regRead _ | bufRead _ _ =>
    cases hstep
    exact ⟨rfl, rfl, rfl, rfl, rfl, rfl, rfl, rfl⟩

theorem sameOperands_of_idle {a : HostAction} (hst : s.st = .idle) (ha : ¬ a.writesOperand True)
    (hstep : idleHostStep a s = .next t) : sameOperands s t := by
  cases a with
  | regWrite n v =>
    by_cases hn : n = 14
    · rw [idleHostStep, if_pos hn] at hstep
      exact sameOperands_of_commandResult (commandResult_of_exec hst hstep)
    · rw [idleHostStep, if_neg hn] at hstep
      cases hstep
      exact sameOperands_writeReg (Nat.lt_of_not_le fun h => ha (.inr ⟨trivial, .inl ⟨n, v, rfl, h⟩⟩)) v
  | angleWrite v => exact absurd (.inr ⟨trivial, .inr ⟨v, rfl⟩⟩) ha
  | bufWrite b i v =>
    cases hstep
    rw [writeBuf_update]
    exact ⟨rfl, rfl, rfl, rfl, rfl, rfl, rfl, rfl⟩
  | reset => exact absurd (.inl rfl) ha
  | regRead _ | bufRead _ _ | wait | pass =>
    cases hstep
    exact ⟨rfl, rfl, rfl, rfl, rfl, rfl, rfl, rfl⟩

end

/-- Settles O39: whatever else a step is, it keeps the operand registers. -/
theorem onlyTheHostWritesOperandRegisters : Obligations.OnlyTheHostWritesOperandRegisters := by
  intro s t hstep hchanged
  match hs : s.script with
  | [] =>
    rw [step_of_script_nil hs] at hstep
    exact absurd (sameOperands_of_sequencerResult (sequencerResult_of_step hstep)) hchanged
  | a :: rest =>
    refine ⟨a, rest, rfl, ?_⟩
    by_cases hst : s.st = .idle
    · rw [step_of_idle hst hs] at hstep
      by_contra ha
      have hno : ¬ a.writesOperand True := fun h => ha (h.imp_right (And.imp_left fun _ => hst))
      exact hchanged (sameOperands_of_idle (s := { s with script := rest }) hst hno hstep)
    · rw [step_of_busy hst hs] at hstep
      by_contra ha
      exact hchanged (sameOperands_of_busy (s := { s with script := rest }) (fun hreset => ha (.inl hreset)) hstep)

/-! ### The cursors -/

/-- Every cursor holds what it held (R31). -/
def sameCursors (s t : State) : Prop :=
  t.y = s.y ∧ t.x = s.x ∧ t.cend = s.cend ∧ t.rl = s.rl ∧ t.k = s.k ∧ t.n = s.n ∧ t.i = s.i

theorem sameCursors.refl (s : State) : sameCursors s s := ⟨rfl, rfl, rfl, rfl, rfl, rfl, rfl⟩

section
variable {s t : State}

/-- A step that ends an operation moves no cursor (log 6). -/
theorem sameCursors_of_sequencerResult (h : SequencerResult s t) (hend : t.st = .idle) : sameCursors s t := by
  cases h with
  | rest | quantEnd | decSuccess | decFailure => exact .refl s
  | scanEnd store => cases store <;> exact .refl s
  | quantSample hst hleft =>
    rw [quantStep_frame hleft] at hend
    cases hst.symm.trans hend
  | scanSample store hst =>
    rw [(scanSample_frame store s).st, hst] at hend
    cases store <;> cases hend
  | decByte hst run value =>
    rw [(expandRun_frame s run value).st, hst] at hend
    cases hend

/-- A command that ends in the issuing step moves no cursor. -/
theorem sameCursors_of_commandResult (h : CommandResult s t) (hend : t.st = .idle) : sameCursors s t := by
  cases h with
  | data | cleared | raised op c | box p | rect p => simp [sameCursors]
  | scan store => cases store <;> cases hend
  | quant | dec => cases hend

theorem sameCursors_writeReg (n v : Nat) : sameCursors s (s.writeReg n v) := by
  unfold State.writeReg
  split <;> exact .refl s

theorem sameCursors_of_busy {a : HostAction} (hst : s.st ≠ .idle) (ha : a ≠ .reset)
    (hstep : busyHostStep a s = .next t) (hend : t.st = .idle) : sameCursors s t := by
  cases a with
  | wait => exact sameCursors_of_sequencerResult (s := s.waiting) (sequencerResult_of_step hstep) hend
  | pass => exact sameCursors_of_sequencerResult (sequencerResult_of_step hstep) hend
  | reset => exact absurd rfl ha
  | regWrite _ _ | angleWrite _ | bufWrite _ _ _ | regRead _ | bufRead _ _ =>
    cases hstep
    exact absurd hend hst

theorem sameCursors_of_idle {a : HostAction} (hst : s.st = .idle) (ha : a ≠ .reset)
    (hstep : idleHostStep a s = .next t) (hend : t.st = .idle) : sameCursors s t := by
  cases a with
  | regWrite n v =>
    by_cases hn : n = 14
    · rw [idleHostStep, if_pos hn] at hstep
      exact sameCursors_of_commandResult (commandResult_of_exec hst hstep) hend
    · rw [idleHostStep, if_neg hn] at hstep
      cases hstep
      exact sameCursors_writeReg n v
  | bufWrite b i v =>
    cases hstep
    rw [writeBuf_update]
    exact .refl s
  | reset => exact absurd rfl ha
  | angleWrite _ | regRead _ | bufRead _ _ | wait | pass =>
    cases hstep
    exact .refl s

end

/-- Settles O41. -/
theorem cursorsKeepTheirValuesInIdle : Obligations.CursorsKeepTheirValuesInIdle := by
  intro s t hstep hend hreset
  match hs : s.script with
  | [] =>
    rw [step_of_script_nil hs] at hstep
    exact sameCursors_of_sequencerResult (sequencerResult_of_step hstep) hend
  | a :: rest =>
    have ha : a ≠ .reset := fun h => hreset rest (h ▸ hs)
    by_cases hst : s.st = .idle
    · rw [step_of_idle hst hs] at hstep
      exact sameCursors_of_idle (s := { s with script := rest }) hst ha hstep hend
    · rw [step_of_busy hst hs] at hstep
      exact sameCursors_of_busy (s := { s with script := rest }) hst ha hstep hend

/-! ### The memories -/

/-- Settles O43: what each operation's step writes, by the states the sequencer's step can answer. -/
theorem sequencerWritesOnlyItsDestination : Obligations.SequencerWritesOnlyItsDestination := by
  intro s t hs hstep
  rw [step_of_script_nil hs] at hstep
  cases sequencerResult_of_step hstep with
  | rest => exact ⟨rfl, fun _ => rfl, fun _ => rfl, fun _ => ⟨rfl, rfl⟩⟩
  | quantEnd hst | decSuccess hst | decFailure hst =>
    rw [hst]
    exact ⟨rfl, fun _ => rfl, nofun, nofun⟩
  | quantSample hst hleft =>
    rw [hst, quantStep_frame hleft]
    exact ⟨rfl, fun _ => rfl, nofun, nofun⟩
  | scanEnd store hst =>
    rw [hst]
    cases store with
    | true => exact ⟨rfl, nofun, fun _ => rfl, nofun⟩
    | false => exact ⟨rfl, nofun, nofun, fun _ => ⟨rfl, rfl⟩⟩
  | scanSample store hst =>
    have hframe := scanSample_frame store s
    have hpix : (s.scanSample store).pix = s.pix := (congrArg State.pix hframe :)
    have hidx : (s.scanSample store).idx = s.idx := (congrArg State.idx hframe :)
    rw [hst]
    cases store with
    | true => exact ⟨hpix, nofun, fun _ => hidx, nofun⟩
    | false => exact ⟨hpix, nofun, nofun, fun _ => ⟨hidx, scanSample_false_art s⟩⟩
  | decByte hst run value =>
    rw [hst, expandRun_update]
    exact ⟨rfl, fun _ => rfl, nofun, nofun⟩

end Sys2Proof.Machine
end

section
/-! PROOFS. The host's reads while the block is idle (spec/10_state.md R13, R26, spec/20_memory.md R42, R52), and the reset event
(spec/70_reset_and_hazards.md R170 to R173). -/

namespace Sys2Proof.Machine

/-! ### Reads -/

section
variable {s : State} {rest : List HostAction} (hst : s.st = .idle)
include hst

theorem step_idle_regRead {n : Nat} (hs : s.script = .regRead n :: rest) :
    step s = .next { s with script := rest, reply := some (s.readReg n) } :=
  step_of_idle hst hs

theorem step_idle_bufRead {b : Buf} {a : Nat} (hs : s.script = .bufRead b a :: rest) :
    step s = .next { s with script := rest, reply := some (s.readBuf b a) } :=
  step_of_idle hst hs

end

/-- Below `CAP` and the length register a buffer read answers the element (R42). -/
theorem readBuf_of_lt {s : State} {b : Buf} {a : Nat} (hcap : a < s.cap) (hlen : a < s.lenOf b) :
    s.readBuf b a = .value (s.element b a) := by
  rw [State.readBuf, if_pos ⟨hcap, hlen⟩]

/-- Settles O45: what a read answers does not depend on the host's side, which is all that a read changes. -/
theorem hostReadsChangeNothing : Obligations.HostReadsChangeNothing := by
  intro s a rest hst ha hs
  obtain ⟨n, rfl⟩ | ⟨b, i, rfl, -⟩ := ha
  · exact ⟨_, step_idle_regRead hst hs, step_idle_regRead (s := s.withHost (.regRead n :: rest) (some (s.readReg n))) hst rfl⟩
  · exact ⟨_, step_idle_bufRead hst hs, step_idle_bufRead (s := s.withHost (.bufRead b i :: rest) (some (s.readBuf b i))) hst rfl⟩

/-- Numbers above 18 read 0 (R13). -/
theorem readReg_of_gt (s : State) {n : Nat} (h : 18 < n) : s.readReg n = .value 0 := by
  obtain ⟨n, rfl⟩ : ∃ m, n = m + 19 := ⟨n - 19, by omega⟩
  rfl

/-- Settles O46. -/
theorem hostReadsReturnRegistersAndElements : Obligations.HostReadsReturnRegistersAndElements := by
  constructor
  · intro s n rest hst hs
    refine ⟨s.readReg n, step_idle_regRead hst hs, ?_⟩
    refine ⟨?_, ?_, ?_, ?_, ?_, ?_, ?_, ?_, ?_, ?_, ?_, ?_, ?_, ?_, ?_, ?_, ?_, ?_, ?_, readReg_of_gt s⟩ <;>
      (rintro rfl; rfl)
  · intro s b a rest hst hs hcap hlen
    rw [step_idle_bufRead hst hs, readBuf_of_lt hcap hlen]

/-! ### Reset -/

/-- The reset event is taken in any state, running or not. -/
theorem step_reset {s : State} {rest : List HostAction} (hs : s.script = .reset :: rest) :
    step s = .next { s.resetEvent with script := rest } := by
  by_cases hst : s.st = .idle
  · exact step_of_idle hst hs
  · exact step_of_busy hst hs

/-- Every register reads as in the state after reset (R171). -/
theorem readReg_resetEvent (s : State) (n : Nat) : s.resetEvent.readReg n = State.reset.readReg n := rfl

/-- Settles O51. -/
theorem resetEventFromAnyState : Obligations.ResetEventFromAnyState := by
  intro s rest hs
  exact ⟨_, step_reset hs, rfl, readReg_resetEvent s, rfl, rfl, s.pix.read_forget, s.idx.read_forget, s.art.read_forget⟩

end Sys2Proof.Machine
end

section
/-! PROOFS. The host's writes while the block is idle (spec/10_state.md R13, R19, R37, spec/20_memory.md R42). -/

namespace Sys2Proof.Machine

/-! ### Register writes -/

theorem step_idle_regWrite {s : State} {n v : Nat} {rest : List HostAction} (hst : s.st = .idle)
    (hs : s.script = .regWrite n v :: rest) (hn : n ≠ 14) :
    step s = .next (State.writeReg { s with script := rest } n v) :=
  (step_of_idle hst hs).trans (if_neg hn)

section
variable (s : State) (n v : Nat)

/-- A register write changes the writable registers and, with a length, what stands beyond it. -/
theorem writeReg_update : s.writeReg n v = { s with
    w := (s.writeReg n v).w, h := (s.writeReg n v).h, tilew := (s.writeReg n v).tilew, levels := (s.writeReg n v).levels
    invert := (s.writeReg n v).invert, angle := (s.writeReg n v).angle, pixlen := (s.writeReg n v).pixlen
    idxlen := (s.writeReg n v).idxlen, alen := (s.writeReg n v).alen
    pix := (s.writeReg n v).pix, idx := (s.writeReg n v).idx, art := (s.writeReg n v).art } := by
  match n with
  | 0 | 1 | 2 | 3 | 4 | 5 | 6 | 7 | 8 | _ + 9 => rfl

/-- Numbers above 8 name no writable register. -/
theorem writeReg_of_gt {n : Nat} (h : 8 < n) : s.writeReg n v = s := by
  obtain ⟨n, rfl⟩ : ∃ m, n = m + 9 := ⟨n - 9, by omega⟩
  rfl

end

/-- Every other register reads as before. -/
theorem readReg_writeReg_of_ne (s : State) {n m : Nat} (v : Nat) (h : m ≠ n) :
    (s.writeReg n v).readReg m = s.readReg m := by
  match n with
  | 0 | 1 | 2 | 3 | 4 | 5 | 6 | 7 | 8 => unfold State.readReg; split <;> first | rfl | exact absurd rfl h
  | _ + 9 => rfl

/-- `v mod 2^k` zero-extended to 32 bits. -/
theorem setWidth_ofNat_eq (k v : Nat) : (BitVec.ofNat k v).setWidth 32 = BitVec.ofNat 32 (v % 2 ^ k) := by
  apply BitVec.eq_of_toNat_eq
  rw [BitVec.toNat_setWidth, BitVec.toNat_ofNat, BitVec.toNat_ofNat]

theorem ofNat_mod_eq (v : Nat) : BitVec.ofNat 32 v = BitVec.ofNat 32 (v % 2 ^ 32) := by
  rw [← setWidth_ofNat_eq, BitVec.setWidth_eq]

/-- A writable register reads `v mod 2^width`. -/
theorem readReg_writeReg_same (s : State) {n : Nat} (v : Nat) (hn : n ≤ 8) (hangle : n ≠ 5) :
    (s.writeReg n v).readReg n = .value (BitVec.ofNat 32 (v % 2 ^ regWidth n)) := by
  match n with
  | 0 | 1 | 2 => exact congrArg Reply.value (setWidth_ofNat_eq 16 v)
  | 3 => exact congrArg Reply.value (setWidth_ofNat_eq 5 v)
  | 4 => exact congrArg Reply.value (setWidth_ofNat_eq 1 v)
  | 5 => exact absurd rfl hangle
  | 6 | 7 | 8 => exact congrArg Reply.value (ofNat_mod_eq v)
  | _ + 9 => omega

/-- The buffer whose length register `n` is. -/
def isLengthOf (n : Nat) (b : Buf) : Prop :=
  n = 6 ∧ b = .pix ∨ n = 7 ∧ b = .idx ∨ n = 8 ∧ b = .art

/-- Elements below a length that is written read as before, and so do those of every other buffer (R37). -/
theorem element_writeReg (s : State) (n v : Nat) (b : Buf) (a : Nat)
    (h : ¬ (isLengthOf n b ∧ (s.writeReg n v).lenOf b ≤ a)) : (s.writeReg n v).element b a = s.element b a := by
  by_cases hlen : isLengthOf n b
  · have ha : a < (s.writeReg n v).lenOf b := Nat.lt_of_not_le fun hle => h ⟨hlen, hle⟩
    obtain ⟨rfl, rfl⟩ | ⟨rfl, rfl⟩ | ⟨rfl, rfl⟩ := hlen
    · exact congrArg (BitVec.setWidth 32) (s.pix.read_keepBelow_of_lt ha)
    · exact congrArg (BitVec.setWidth 32) (s.idx.read_keepBelow_of_lt ha)
    · exact congrArg (BitVec.setWidth 32) (s.art.read_keepBelow_of_lt ha)
  · match n, b with
    | 0, _ | 1, _ | 2, _ | 3, _ | 4, _ | 5, _ | _ + 9, _ => rfl
    | 6, .idx | 6, .art | 7, .pix | 7, .art | 8, .pix | 8, .idx => rfl
    | 6, .pix | 7, .idx | 8, .art => exact absurd (by simp [isLengthOf]) hlen

/-- Settles O44. -/
theorem regWriteStoresModuloItsWidth : Obligations.RegWriteStoresModuloItsWidth := by
  constructor
  · intro s n v rest hst hs hn
    refine ⟨_, step_idle_regWrite hst hs hn, writeReg_update _ n v, fun m hm => ?others, fun hle hangle => ?stored,
      ?angle, fun hgt => ?readonly, fun b a h => ?elements⟩
    case others => exact readReg_writeReg_of_ne { s with script := rest } v hm
    case stored => exact readReg_writeReg_same { s with script := rest } v hle hangle
    case angle =>
      rintro rfl
      exact ⟨angleOfNumber v, rfl, radiansOf_angleOfNumber v, fun h0 => if_pos h0⟩
    case readonly => exact writeReg_of_gt { s with script := rest } v hgt
    case elements => exact element_writeReg { s with script := rest } n v b a h
  · intro s a rest hst hs
    exact ⟨_, step_of_idle hst hs, rfl, rfl⟩

/-! ### Buffer writes -/

/-- The element written reads `v mod 2^e` (R42). -/
theorem element_storeBuf_same (s : State) (b : Buf) (a v : Nat) :
    (s.storeBuf b a v).element b a = BitVec.ofNat 32 (v % 2 ^ bufWidth b) := by
  cases b with
  | pix => exact (congrArg (BitVec.setWidth 32) (s.pix.read_write_same a _)).trans (setWidth_ofNat_eq 24 v)
  | idx => exact (congrArg (BitVec.setWidth 32) (s.idx.read_write_same a _)).trans (setWidth_ofNat_eq 4 v)
  | art => exact (congrArg (BitVec.setWidth 32) (s.art.read_write_same a _)).trans (setWidth_ofNat_eq 8 v)

theorem element_storeBuf_of_ne (s : State) (b : Buf) {a a' : Nat} (v : Nat) (h : a' ≠ a) :
    (s.storeBuf b a v).element b a' = s.element b a' := by
  cases b with
  | pix => exact congrArg (BitVec.setWidth 32) (s.pix.read_write_of_ne _ h)
  | idx => exact congrArg (BitVec.setWidth 32) (s.idx.read_write_of_ne _ h)
  | art => exact congrArg (BitVec.setWidth 32) (s.art.read_write_of_ne _ h)

theorem element_storeBuf_of_other (s : State) {b b' : Buf} (a v a' : Nat) (h : b' ≠ b) :
    (s.storeBuf b a v).element b' a' = s.element b' a' := by
  match b, b' with
  | .pix, .idx | .pix, .art | .idx, .pix | .idx, .art | .art, .pix | .art, .idx => rfl
  | .pix, .pix | .idx, .idx | .art, .art => exact absurd rfl h

/-- Settles O47: below `CAP` the element is stored, at or beyond it nothing happens. -/
theorem bufWriteStoresOneElement : Obligations.BufWriteStoresOneElement := by
  intro s b a v rest hst hs
  refine ⟨_, step_of_idle hst hs, writeBuf_update { s with script := rest } b a v, ?_⟩
  obtain hlt | hge := Nat.lt_or_ge a s.cap
  · rw [writeBuf_of_lt (s := { s with script := rest }) hlt]
    exact ⟨fun _ => element_storeBuf_same { s with script := rest } b a v, fun h => absurd hlt (Nat.not_lt.mpr h),
      fun a' h => element_storeBuf_of_ne { s with script := rest } b v h,
      fun b' a' h => element_storeBuf_of_other { s with script := rest } a v a' h⟩
  · rw [writeBuf_of_le (s := { s with script := rest }) hge]
    exact ⟨fun h => absurd h (Nat.not_lt.mpr hge), fun _ => rfl, fun _ _ => rfl, fun _ _ _ => rfl⟩

end Sys2Proof.Machine
end

section
/-! PROOFS. Whose turn it is under `pass` and `WAIT` (log 7). -/

namespace Sys2Proof.Machine

theorem sequencerStep_reply {s t : State} (h : sequencerStep s = .next t) : t.reply = s.reply := by
  have hsame : Host.Outcome.next t = .next (t.withHost s.script s.reply) :=
    h.symm.trans (sequencerStep_withHost h s.script s.reply)
  exact (congrArg State.reply (Host.Outcome.next.inj hsame) :)

/-- The step that the sequencer takes alone, and the same step with another host. -/
theorem step_alone (s : State) : ∃ t, step { s with script := [] } = .next t ∧ t.reply = s.reply
    ∧ ∀ script reply, sequencerStep (s.withHost script reply) = .next (t.withHost script reply) := by
  obtain ⟨t, ht, -⟩ := sequencerStep_cases { s with script := [] }
  exact ⟨t, (step_of_script_nil rfl).trans ht, sequencerStep_reply (s := { s with script := [] }) ht,
    sequencerStep_withHost (s := { s with script := [] }) ht⟩

/-- `pass` leaves the step to the sequencer, idle or not. -/
theorem step_pass {s : State} {rest : List HostAction} (hs : s.script = .pass :: rest) :
    step s = sequencerStep { s with script := rest } := by
  by_cases hst : s.st = .idle
  · exact (step_of_idle hst hs).trans (sequencerStep_idle (s := { s with script := rest }) hst).symm
  · exact step_of_busy hst hs

/-- Settles O49: the sequencer's step does not look at the host. -/
theorem passAndWaitGiveTheSequencerItsStep : Obligations.PassAndWaitGiveTheSequencerItsStep := by
  intro s rest
  obtain ⟨t, ht, hreply, hkept⟩ := step_alone s
  refine ⟨fun hs => ⟨t, ht, ?pass⟩, fun hs hst => ⟨t, ht, ?busy⟩, fun hs hst => ?idle⟩
  case pass =>
    calc step s = sequencerStep (s.withHost rest s.reply) := step_pass hs
      _ = .next (t.withHost rest s.reply) := hkept rest s.reply
      _ = .next { t with script := rest } := by rw [← hreply]; rfl
  case busy => exact (step_of_busy hst hs).trans (hkept (.wait :: rest) (some (.value (s.status.setWidth 32))))
  case idle => exact step_of_idle hst hs

end Sys2Proof.Machine
end


section
/-! PROOFS. The quantizer on one sample (spec/40_quantizer.md sections 2 and 5): the ranges of its quantities and their order,
its steps as rounded quotients, and what inversion does to a nibble. -/

namespace Sys2Proof.Machine

/-! ### Ranges and order -/

theorem intensity_le (p : Pixel) : intensity p ≤ 255 := by
  have hr : pixelR p < 256 := BitVec.isLt _
  have hg : pixelG p < 256 := BitVec.isLt _
  have hb : pixelB p < 256 := BitVec.isLt _
  unfold intensity
  omega

theorem levelOf_le {inten : Nat} (l : Nat) (h : inten ≤ 255) : levelOf inten l ≤ l - 1 := by
  have hmul : inten * (l - 1) ≤ 255 * (l - 1) := Nat.mul_le_mul_right _ h
  rw [levelOf, Nat.mul_assoc]
  omega

/-- With `D = L - 1` the rescale of a legal level is at most `31*D div 2*D = 15`. -/
theorem rescale_le {l level : Nat} (hl : 2 ≤ l) (hle : level ≤ l - 1) : rescale l level ≤ 15 := by
  rw [rescale, ← Nat.lt_succ_iff, Nat.div_lt_iff_lt_mul (by omega)]
  omega

theorem levelOf_mono {i j : Nat} (l : Nat) (h : i ≤ j) : levelOf i l ≤ levelOf j l :=
  Nat.div_le_div_right (Nat.add_le_add_right (Nat.mul_le_mul_right _ (Nat.mul_le_mul_left 2 h)) 255)

theorem rescale_mono (l : Nat) {i j : Nat} (h : i ≤ j) : rescale l i ≤ rescale l j :=
  Nat.div_le_div_right (Nat.add_le_add_right (Nat.mul_le_mul_left 30 h) _)

/-- The four bits of the nibble lose nothing. -/
theorem quantSample_toNat (p : Pixel) {l : Nat} (inv : Bool) (hl : 2 ≤ l) :
    (quantSample p l inv).toNat = rescale l (invertLevel (levelOf (intensity p) l) l inv) := by
  have hlevel : levelOf (intensity p) l ≤ l - 1 := levelOf_le l (intensity_le p)
  have hinv : invertLevel (levelOf (intensity p) l) l inv ≤ l - 1 := by
    unfold invertLevel
    split <;> omega
  exact Nat.mod_eq_of_lt (Nat.lt_succ_of_le (rescale_le hl hinv))

/-- Settles O52: each stage is monotone in its input, and inversion turns the order of the levels around. -/
theorem quantizerRangesAndMonotonicity : Obligations.QuantizerRangesAndMonotonicity := by
  refine ⟨intensity_le, fun inten l h _ _ => levelOf_le l h, fun level l hl _ h => rescale_le hl h,
    fun p p' l hl _ hsum => ?_⟩
  have hinten : intensity p ≤ intensity p' := by unfold intensity; omega
  have hlevel : levelOf (intensity p) l ≤ levelOf (intensity p') l := levelOf_mono l hinten
  simp only [quantSample_toNat _ _ hl]
  exact ⟨rescale_mono l hlevel, rescale_mono l (Nat.sub_le_sub_left hlevel (l - 1))⟩

/-! ### The steps as rounded quotients -/

/-- `(2*a + b) div 2*b` is `a / b` rounded to the nearest whole number, ties up. -/
theorem floor_div_add_half_toNat (a : Nat) {b : Nat} (hb : 0 < b) :
    ⌊(a : ℚ) / b + 1 / 2⌋.toNat = (2 * a + b) / (2 * b) := by
  have hb' : (b : ℚ) ≠ 0 := Nat.cast_ne_zero.mpr hb.ne'
  have hquot : (a : ℚ) / b + 1 / 2 = ((2 * a + b : ℕ) : ℚ) / ((2 * b : ℕ) : ℚ) := by
    push_cast
    field_simp
  rw [hquot, Rat.floor_natCast_div_natCast]
  rfl

/-- Settles O53. -/
theorem quantizerStepsRoundToNearest : Obligations.QuantizerStepsRoundToNearest := by
  refine ⟨fun p => ⟨?third, ?intensity⟩, fun inten l _ hl _ => ?level, fun level l hl _ _ => ?rescale⟩
  case third => unfold intensity; omega
  case intensity => exact (floor_div_add_half_toNat _ (b := 3) (by decide)).symm
  case level =>
    have hquot : (inten : ℚ) / 255 * ((l : ℚ) - 1) = ((inten * (l - 1) : ℕ) : ℚ) / (255 : ℕ) := by
      rw [Nat.cast_mul, Nat.cast_pred (by omega), div_mul_eq_mul_div, Nat.cast_ofNat]
    rw [hquot, floor_div_add_half_toNat _ (by decide), levelOf, Nat.mul_assoc]
  case rescale =>
    have hquot : (level : ℚ) / ((l : ℚ) - 1) * 15 = ((15 * level : ℕ) : ℚ) / (l - 1 : ℕ) := by
      rw [Nat.cast_mul, Nat.cast_pred (by omega), div_mul_eq_mul_div, mul_comm (level : ℚ), Nat.cast_ofNat]
    rw [hquot, floor_div_add_half_toNat _ (by omega), rescale, ← Nat.mul_assoc]

/-! ### Inversion -/

/-- Two numbers that add up to a multiple of `n`: the quotients lose one where there are remainders. -/
theorem div_add_div_of_add_eq {a b n k : Nat} (hn : 0 < n) (h : a + b = n * k) :
    a / n + b / n = if a % n = 0 then k else k - 1 := by
  have hk : (a + b) / n = k := by rw [h, Nat.mul_div_cancel_left k hn]
  have hmod : (a % n + b % n) % n = 0 := by rw [← Nat.add_mod, h, Nat.mul_mod_right]
  have ha : a % n < n := Nat.mod_lt a hn
  have hb : b % n < n := Nat.mod_lt b hn
  rw [Nat.add_div hn] at hk
  by_cases hzero : a % n = 0
  · rw [if_neg (by omega)] at hk
    rw [if_pos hzero, ← hk, Nat.add_zero]
  · have hcarry : n ≤ a % n + b % n := by
      by_contra hlt
      rw [Nat.mod_eq_of_lt (by omega)] at hmod
      omega
    rw [if_pos hcarry] at hk
    rw [if_neg hzero, ← hk, Nat.add_sub_cancel]

/-- `30*level + D` is a multiple of `2*D` exactly at the tie levels, and then `D` is even (R81). -/
theorem tie_iff {d level : Nat} (hd : 0 < d) :
    (30 * level + d) % (2 * d) = 0 ↔ (d + 1) % 2 = 1 ∧ 30 * level % (2 * d) = d := by
  have hlt : 30 * level % (2 * d) < 2 * d := Nat.mod_lt _ (by omega)
  have heven : 30 * level % (2 * d) % 2 = 30 * level % 2 := Nat.mod_mod_of_dvd _ (Nat.dvd_mul_right 2 d)
  rw [Nat.add_mod, Nat.mod_eq_of_lt (a := d) (by omega)]
  generalize 30 * level % (2 * d) = r at hlt heven
  obtain hr | rfl | hr := Nat.lt_trichotomy r d
  · rw [Nat.mod_eq_of_lt (by omega)]
    omega
  · rw [← Nat.two_mul, Nat.mod_self]
    omega
  · rw [Nat.mod_eq_sub_mod (by omega), Nat.mod_eq_of_lt (by omega)]
    omega

/-- Settles O54: with `D = L - 1` the two dividends add up to `32*D`, sixteen times the divisor `2*D`. -/
theorem invertSymmetry : Obligations.InvertSymmetry := by
  intro p l hl _
  have hlevel : levelOf (intensity p) l ≤ l - 1 := levelOf_le l (intensity_le p)
  obtain ⟨d, rfl⟩ : ∃ d, l = d + 1 := ⟨l - 1, by omega⟩
  have hd : 0 < d := by omega
  rw [quantSample_toNat p true hl, quantSample_toNat p false hl]
  simp only [invertLevel, rescale, if_true, Bool.false_eq_true, if_false, Nat.add_sub_cancel] at hlevel ⊢
  generalize levelOf (intensity p) (d + 1) = level at hlevel
  have hsum : 30 * level + d + (30 * (d - level) + d) = 2 * d * 16 := by omega
  rw [Nat.add_comm, div_add_div_of_add_eq (by omega) hsum]
  simp only [tie_iff hd]

end Sys2Proof.Machine
end


section
/-! PROOFS. The results of BBOX and IRECT over the real numbers (spec/43_geometry.md R131, R138): the formula of IRECT branch by
branch, and the bounds on the unit circle. -/

namespace Sys2Proof.Machine

/-- Settles O57: IRECT is `irectReal` of the angle's pair. -/
theorem irectIsTheExactFloor : Obligations.IrectIsTheExactFloor := by
  intro p w h a _ _ s c long short den
  have hreal : (trigOf p a).irect w h = irectReal w h s c := TrigValue.irect_eq_irectReal w h _
  rw [hreal]
  refine ⟨fun hthin => ⟨fun hz => ?zero, fun hs hc hle => ?wide, fun hs hc hlt => ?tall⟩, fun hthin => ?other⟩
  case zero => exact irectReal_of_zero hthin hz
  case wide => exact irectReal_of_thin_le hthin (not_or.mpr ⟨hs, hc⟩) hle
  case tall => exact irectReal_of_thin_lt hthin (not_or.mpr ⟨hs, hc⟩) hlt
  case other => exact irectReal_of_not_thin hthin

/-! ### Products of floors -/

theorem natAbs_floor_mul_le {x y : ℝ} {n : ℕ} (hx : 0 ≤ x) (hy : 0 ≤ y) (h : x * y ≤ n) :
    ⌊x⌋.natAbs * ⌊y⌋.natAbs ≤ n := by
  have hfloor {z : ℝ} (hz : 0 ≤ z) : (⌊z⌋.natAbs : ℝ) ≤ z := by
    rw [← Int.natCast_floor_eq_floor hz, Int.natAbs_natCast]
    exact Nat.floor_le hz
  have hprod : (⌊x⌋.natAbs : ℝ) * ⌊y⌋.natAbs ≤ n :=
    (mul_le_mul (hfloor hx) (hfloor hy) (Nat.cast_nonneg _) hx).trans h
  exact_mod_cast hprod

section
variable {w h : ℕ} {s c : ℝ} (hs : 0 ≤ s) (hc : 0 ≤ c) (hunit : s * s + c * c = 1)
include hs hc hunit

/-- A turned side squared: `(p*c + q*s)^2 + (p*s - q*c)^2 = p^2 + q^2` on the unit circle. -/
theorem natAbs_floor_mix_sq_le (p q : ℕ) : ⌊p * c + q * s⌋.natAbs * ⌊p * c + q * s⌋.natAbs ≤ p * p + q * q := by
  have hmix : 0 ≤ p * c + q * s := by positivity
  refine natAbs_floor_mul_le hmix hmix ?_
  push_cast
  calc (p * c + q * s) * (p * c + q * s) ≤ (p * c + q * s) * (p * c + q * s) + (p * s - q * c) * (p * s - q * c) :=
        le_add_of_nonneg_right (mul_self_nonneg _)
    _ = p * p + q * q := by linear_combination (p * p + q * q : ℝ) * hunit

theorem bboxReal_sq_le (w h : ℕ) : (bboxReal w h s c).1 * (bboxReal w h s c).1 ≤ w * w + h * h
    ∧ (bboxReal w h s c).2 * (bboxReal w h s c).2 ≤ w * w + h * h := by
  refine ⟨natAbs_floor_mix_sq_le hs hc hunit w h, ?_⟩
  rw [bboxReal, add_comm ((w : ℝ) * s), add_comm (w * w)]
  exact natAbs_floor_mix_sq_le hs hc hunit h w

/-! ### The second branch -/

/-- Where `s < c` neither side of the rectangle is longer than the source's. -/
theorem irectReal_le_of_lt (hlt : s < c) (hthin : ¬ ThinReal w h s c) {q : ℕ × ℕ} (hq : irectReal w h s c = some q) :
    q.1 ≤ w ∧ q.2 ≤ h := by
  obtain ⟨-, hwh, hhw⟩ := mul_le_of_not_thin hs hc hthin
  obtain rfl := Option.some.inj ((irectReal_of_not_thin hthin).symm.trans hq)
  obtain ⟨hfirst0, hfirst⟩ := quotient_bounds_of_lt w.cast_nonneg h.cast_nonneg hs hlt hunit hwh hhw
  obtain ⟨hsecond0, hsecond⟩ := quotient_bounds_of_lt h.cast_nonneg w.cast_nonneg hs hlt hunit hhw hwh
  exact ⟨natAbs_floor_le hfirst0 hfirst, natAbs_floor_le hsecond0 hsecond⟩

/-- Where `c < s` the sides are exchanged (R127). -/
theorem irectReal_le_of_gt (hlt : c < s) (hthin : ¬ ThinReal w h s c) {q : ℕ × ℕ} (hq : irectReal w h s c = some q) :
    q.1 ≤ h ∧ q.2 ≤ w := by
  have hswap : irectReal w h c s = some q.swap := by rw [irectReal_exchange_pair, hq]; rfl
  exact (irectReal_le_of_lt hc hs ((add_comm _ _).trans hunit) hlt (thinReal_exchange_pair.not.mpr hthin) hswap).symm

/-! ### The area -/

/-- In the thin branch the product of the two quotients is `short^2 / (4*s*c)`, at most `short * long / 2`. -/
theorem natAbs_floor_half_mul_le (hw : 1 ≤ w) (hh : 1 ≤ h) (hthin : ThinReal w h s c) :
    ⌊((min w h : ℕ) : ℝ) / 2 / s⌋.natAbs * ⌊((min w h : ℕ) : ℝ) / 2 / c⌋.natAbs ≤ w * h := by
  obtain ⟨hs0, hc0⟩ := ne_zero_of_thin hs hc hunit hw hh hthin
  have hshort := short_le_of_thin hs hc hunit hthin
  rw [← min_mul_max w h]
  generalize min w h = short at hshort ⊢
  generalize max w h = long at hshort ⊢
  have hspos : 0 < s := hs.lt_of_ne' hs0
  have hcpos : 0 < c := hc.lt_of_ne' hc0
  refine natAbs_floor_mul_le (by positivity) (by positivity) ?_
  rw [div_div, div_div, div_mul_div_comm, div_le_iff₀ (by positivity), Nat.cast_mul]
  calc (short : ℝ) * short ≤ short * (2 * s * c * long) := by gcongr
    _ ≤ 2 * (short * (2 * s * c * long)) := le_mul_of_one_le_left (by positivity) one_le_two
    _ = short * long * (2 * s * (2 * c)) := by ring

theorem irectReal_area_le (hw : 1 ≤ w) (hh : 1 ≤ h) {q : ℕ × ℕ} (hq : irectReal w h s c = some q) :
    q.1 * q.2 ≤ w * h := by
  by_cases hthin : ThinReal w h s c
  case pos =>
    have harea := natAbs_floor_half_mul_le hs hc hunit hw hh hthin
    have hnz : ¬ (s = 0 ∨ c = 0) := not_or.mpr (ne_zero_of_thin hs hc hunit hw hh hthin)
    obtain hle | hlt := le_or_gt h w
    · obtain rfl := Option.some.inj ((irectReal_of_thin_le hthin hnz hle).symm.trans hq)
      exact harea
    · obtain rfl := Option.some.inj ((irectReal_of_thin_lt hthin hnz hlt).symm.trans hq)
      exact (mul_comm _ _).trans_le harea
  case neg =>
    obtain ⟨hne, -, -⟩ := mul_le_of_not_thin hs hc hthin
    obtain hlt | hgt := lt_or_gt_of_ne hne
    · obtain ⟨hfirst, hsecond⟩ := irectReal_le_of_lt hs hc hunit hlt hthin hq
      exact Nat.mul_le_mul hfirst hsecond
    · obtain ⟨hfirst, hsecond⟩ := irectReal_le_of_gt hs hc hunit hgt hthin hq
      exact (Nat.mul_le_mul hfirst hsecond).trans_eq (mul_comm h w)

end

/-- Settles O60: both commands see the angle through its pair, a point of the unit circle's first quarter. -/
theorem geometryBounds : Obligations.GeometryBounds := by
  intro p w h a hw hh hunit u
  have hs : 0 ≤ u.s := u.s_nonneg
  have hc : 0 ≤ u.c := u.c_nonneg
  obtain ⟨hsq1, hsq2⟩ := bboxReal_sq_le hs hc hunit w h
  obtain ⟨hsum1, hsum2⟩ := bboxReal_le hs hc hunit w h
  obtain ⟨q, hq, hmax1, hmax2⟩ := irectReal_le hw hh hs hc hunit
  rw [u.bbox_eq_bboxReal, u.irect_eq_irectReal]
  exact ⟨hsq1, hsq2, hsum1, hsum2, q, hq, hmax1, hmax2, irectReal_area_le hs hc hunit hw hh hq, fun hthin =>
    ⟨fun hlt => irectReal_le_of_lt hs hc hunit hlt hthin hq, fun hgt => irectReal_le_of_gt hs hc hunit hgt hthin hq⟩⟩

end Sys2Proof.Machine
end
